-- ==== Sys2Proof/Word.lean ====
section
/-! DEFINITION. The two word types of the hardware (spec/00_scope.md R5, R6): 8-bit data and 16-bit addresses.
Arithmetic on them is the wrapping arithmetic of `BitVec` (R6, R140). Byte order, extensions and bit fields are in
Machine/Bytes.lean. -/

namespace Sys2Proof

/-- A register or a memory cell: 8 bits (R5). -/
abbrev Byte := BitVec 8

/-- An address or the program counter: 16 bits (R5). -/
abbrev Word := BitVec 16

end Sys2Proof
end

