-- ==== Sys2Proof/Machine/Bytes.lean ====
section
/-! DEFINITION. Byte order, zero and sign extension, and the halves of a 16-bit value (spec/00_scope.md R6, R7). -/

namespace Sys2Proof

/-- `hi(v) = v[15:8]` (R6); also the page of an address (40_step_and_addressing.md R91). -/
def hi (v : Word) : Byte := (v >>> 8).setWidth 8

/-- `lo(v) = v[7:0]` (R6). -/
def lo (v : Word) : Byte := v.setWidth 8

/-- `{h, l}`: the 16-bit value `h*256 + l` (R6). -/
def join (h l : Byte) : Word := (h.setWidth 16 <<< 8) ||| l.setWidth 16

/-- `zext_16(v)` (R7). -/
def zext16 (v : Byte) : Word := v.setWidth 16

/-- `sext_16(v)`: `v[7] ? 0xFF00 | v : v` (R7). -/
def sext16 (v : Byte) : Word := v.signExtend 16

end Sys2Proof
end

