-- ==== Sys2Proof/Syntax/Forms.lean ====
section
/-! DEFINITION. The vocabulary of the instruction set: the thirteen addressing modes, an operand as the instruction
bytes give it, the mnemonics of the opcode table, and one row of that table. -/

namespace Sys2Proof

/-- The thirteen addressing modes (spec/30_encoding.md R52). -/
inductive Mode where
  | imp | acc | imm | zp | zpx | zpy | rel | abs | abx | aby | ind | izx | izy
  deriving DecidableEq, Repr

/-- The operand of an instruction as its bytes give it: the mode, with the operand byte `b1` or the little-endian
operand word `{b2, b1}` of that mode (R52, R53). -/
inductive OperandForm where
  | imp
  | acc
  /-- the literal operand -/
  | imm (b : Byte)
  /-- a zero-page address -/
  | zp (b : Byte)
  /-- a zero-page base, indexed by `X` -/
  | zpx (b : Byte)
  /-- a zero-page base, indexed by `Y` -/
  | zpy (b : Byte)
  /-- a signed displacement -/
  | rel (b : Byte)
  /-- an absolute address -/
  | abs (w : Word)
  /-- an absolute base, indexed by `X` -/
  | abx (w : Word)
  /-- an absolute base, indexed by `Y` -/
  | aby (w : Word)
  /-- the address of a pointer to the target -/
  | ind (w : Word)
  /-- the zero-page base of the pointer of `(zp,X)` -/
  | izx (b : Byte)
  /-- the zero-page address of the pointer of `(zp),Y` -/
  | izy (b : Byte)
  deriving DecidableEq, Repr

/-- The 57 mnemonics of spec/opcode_table.json: the 56 instructions of 30_encoding.md R55, and `ILL` (R58). -/
inductive Mnemonic where
  | lda | ldx | ldy | sta | stx | sty
  | tax | tay | txa | tya | tsx | txs
  | pha | php | pla | plp
  | and | ora | eor | bit
  | adc | sbc | cmp | cpx | cpy
  | inc | dec | inx | iny | dex | dey
  | asl | lsr | rol | ror
  | jmp | jsr | rts
  | bpl | bmi | bvc | bvs | bcc | bcs | bne | beq
  | clc | sec | cli | sei | cld | sed | clv
  | nop | brk | rti
  | ill
  deriving DecidableEq, Repr

/-- One entry of the opcode table (40_step_and_addressing.md R72): which handler, the mode, the length in bytes, the
base cycles and the extra-cycle flag. -/
structure InstructionInfo where
  mnemonic   : Mnemonic
  mode       : Mode
  length     : Nat
  baseCycles : Nat
  extraCycle : Nat
  deriving DecidableEq, Repr

end Sys2Proof
end

