-- ==== Sys2Proof/Syntax.lean ====
section
/-! DEFINITION. The instructions, whole: every row of spec/opcode_table.json is an instance of exactly one constructor
(log entry 1: the rows of one mnemonic differ in their operand form only, and the 105 `ILL` rows in their opcode byte).
Which forms a mnemonic has is checked in WellFormed.lean. -/

namespace Sys2Proof

/-- A decoded instruction: one constructor per mnemonic of the opcode table, with its operand form where the table
gives it more than one mode, the target or displacement where the mode is fixed, and the byte of an illegal opcode. -/
inductive Instr where
  | lda (f : OperandForm)
  | ldx (f : OperandForm)
  | ldy (f : OperandForm)
  | sta (f : OperandForm)
  | stx (f : OperandForm)
  | sty (f : OperandForm)
  | tax
  | tay
  | txa
  | tya
  | tsx
  | txs
  | pha
  | php
  | pla
  | plp
  | and (f : OperandForm)
  | ora (f : OperandForm)
  | eor (f : OperandForm)
  | bit (f : OperandForm)
  | adc (f : OperandForm)
  | sbc (f : OperandForm)
  | cmp (f : OperandForm)
  | cpx (f : OperandForm)
  | cpy (f : OperandForm)
  | inc (f : OperandForm)
  | dec (f : OperandForm)
  | inx
  | iny
  | dex
  | dey
  | asl (f : OperandForm)
  | lsr (f : OperandForm)
  | rol (f : OperandForm)
  | ror (f : OperandForm)
  | jmp (f : OperandForm)
  | jsr (target : Word)
  | rts
  | bpl (disp : Byte)
  | bmi (disp : Byte)
  | bvc (disp : Byte)
  | bvs (disp : Byte)
  | bcc (disp : Byte)
  | bcs (disp : Byte)
  | bne (disp : Byte)
  | beq (disp : Byte)
  | clc
  | sec
  | cli
  | sei
  | cld
  | sed
  | clv
  | nop
  | brk
  | rti
  | ill (opcode : Byte)
  deriving DecidableEq, Repr

end Sys2Proof
end

