-- ==== Sys2Proof/WellFormed.lean ====
section
/-! DEFINITION. Which instructions exist (spec/40_step_and_addressing.md R94): the legal pairs of mnemonic and mode, and
the 105 illegal opcode bytes (30_encoding.md R58). Written from R56's tables of modes, apart from the decoder. -/

namespace Sys2Proof

/-- The addressing mode of an operand form. -/
def OperandForm.mode : OperandForm → Mode
  | .imp => .imp
  | .acc => .acc
  | .imm _ => .imm
  | .zp _ => .zp
  | .zpx _ => .zpx
  | .zpy _ => .zpy
  | .rel _ => .rel
  | .abs _ => .abs
  | .abx _ => .abx
  | .aby _ => .aby
  | .ind _ => .ind
  | .izx _ => .izx
  | .izy _ => .izy

/-- The modes of ORA AND EOR ADC LDA CMP SBC (R56). -/
def eightModes : List Mode := [.imm, .zp, .zpx, .abs, .abx, .aby, .izx, .izy]

/-- The modes of the four shifts and rotates (R56). -/
def shiftModes : List Mode := [.acc, .zp, .zpx, .abs, .abx]

/-- The 105 opcode bytes with no defined instruction, as R58 lists them. -/
def illegalOpcodes : List Byte :=
  [0x02, 0x03, 0x04, 0x07, 0x0B, 0x0C, 0x0F, 0x12, 0x13, 0x14, 0x17, 0x1A, 0x1B, 0x1C, 0x1F, 0x22, 0x23, 0x27] ++
  [0x2B, 0x2F, 0x32, 0x33, 0x34, 0x37, 0x3A, 0x3B, 0x3C, 0x3F, 0x42, 0x43, 0x44, 0x47, 0x4B, 0x4F, 0x52, 0x53] ++
  [0x54, 0x57, 0x5A, 0x5B, 0x5C, 0x5F, 0x62, 0x63, 0x64, 0x67, 0x6B, 0x6F, 0x72, 0x73, 0x74, 0x77, 0x7A, 0x7B] ++
  [0x7C, 0x7F, 0x80, 0x82, 0x83, 0x87, 0x89, 0x8B, 0x8F, 0x92, 0x93, 0x97, 0x9B, 0x9C, 0x9E, 0x9F, 0xA3, 0xA7] ++
  [0xAB, 0xAF, 0xB2, 0xB3, 0xB7, 0xBB, 0xBF, 0xC2, 0xC3, 0xC7, 0xCB, 0xCF, 0xD2, 0xD3, 0xD4, 0xD7, 0xDA, 0xDB] ++
  [0xDC, 0xDF, 0xE2, 0xE3, 0xE7, 0xEB, 0xEF, 0xF2, 0xF3, 0xF4, 0xF7, 0xFA, 0xFB, 0xFC, 0xFF]

/-- The instruction is one of the opcode table's: its mode is one R56 gives its mnemonic, or its byte one of R58's. -/
def Instr.wellFormed : Instr → Bool
  | .lda f | .and f | .ora f | .eor f | .adc f | .sbc f | .cmp f => eightModes.contains f.mode
  | .ldx f => [Mode.imm, .zp, .zpy, .abs, .aby].contains f.mode
  | .ldy f => [Mode.imm, .zp, .zpx, .abs, .abx].contains f.mode
  | .sta f => [Mode.zp, .zpx, .abs, .abx, .aby, .izx, .izy].contains f.mode
  | .stx f => [Mode.zp, .zpy, .abs].contains f.mode
  | .sty f => [Mode.zp, .zpx, .abs].contains f.mode
  | .cpx f | .cpy f => [Mode.imm, .zp, .abs].contains f.mode
  | .bit f => [Mode.zp, .abs].contains f.mode
  | .inc f | .dec f => [Mode.zp, .zpx, .abs, .abx].contains f.mode
  | .asl f | .lsr f | .rol f | .ror f => shiftModes.contains f.mode
  | .jmp f => [Mode.abs, .ind].contains f.mode
  | .ill op => illegalOpcodes.contains op
  | .tax | .tay | .txa | .tya | .tsx | .txs | .pha | .php | .pla | .plp | .inx | .iny | .dex | .dey
  | .jsr _ | .rts | .bpl _ | .bmi _ | .bvc _ | .bvs _ | .bcc _ | .bcs _ | .bne _ | .beq _
  | .clc | .sec | .cli | .sei | .cld | .sed | .clv | .nop | .brk | .rti => true

end Sys2Proof
end

