-- ==== Sys2Proof/Decode.lean ====
section
/-! DEFINITION. The opcode table, the decoder and the encoder (spec/30_encoding.md). The decoder indexes the 256-entry
table transcribed from spec/opcode_table.json, laid out as the grid of R57; the encoder is written from the tables of
R56 by mnemonic and mode. Laws/Decode.lean relates the two. -/

namespace Sys2Proof

/-! ## The opcode table -/

/-- The length of an instruction is a function of its mode (R52). -/
def Mode.length : Mode → Nat
  | .imp | .acc => 1
  | .imm | .zp | .zpx | .zpy | .rel | .izx | .izy => 2
  | .abs | .abx | .aby | .ind => 3

/-- The length in bytes of an instruction with this operand (R52). -/
def OperandForm.length (f : OperandForm) : Nat := f.mode.length

/-- The entry `ILL` bound to each illegal byte: mode IMP, length 1, 1 cycle, no extra cycle (R58). -/
def illegalInfo : InstructionInfo := ⟨.ill, .imp, 1, 1, 0⟩

/-- Opcodes `0x00` to `0x0F`. -/
def opcodeRow0 : List InstructionInfo :=
  [⟨.brk, .imp, 1, 7, 0⟩, ⟨.ora, .izx, 2, 6, 0⟩, illegalInfo, illegalInfo,
   illegalInfo, ⟨.ora, .zp, 2, 3, 0⟩, ⟨.asl, .zp, 2, 5, 0⟩, illegalInfo,
   ⟨.php, .imp, 1, 3, 0⟩, ⟨.ora, .imm, 2, 2, 0⟩, ⟨.asl, .acc, 1, 2, 0⟩, illegalInfo,
   illegalInfo, ⟨.ora, .abs, 3, 4, 0⟩, ⟨.asl, .abs, 3, 6, 0⟩, illegalInfo]

/-- Opcodes `0x10` to `0x1F`. -/
def opcodeRow1 : List InstructionInfo :=
  [⟨.bpl, .rel, 2, 2, 0⟩, ⟨.ora, .izy, 2, 5, 1⟩, illegalInfo, illegalInfo,
   illegalInfo, ⟨.ora, .zpx, 2, 4, 0⟩, ⟨.asl, .zpx, 2, 6, 0⟩, illegalInfo,
   ⟨.clc, .imp, 1, 2, 0⟩, ⟨.ora, .aby, 3, 4, 1⟩, illegalInfo, illegalInfo,
   illegalInfo, ⟨.ora, .abx, 3, 4, 1⟩, ⟨.asl, .abx, 3, 7, 0⟩, illegalInfo]

/-- Opcodes `0x20` to `0x2F`. -/
def opcodeRow2 : List InstructionInfo :=
  [⟨.jsr, .abs, 3, 6, 0⟩, ⟨.and, .izx, 2, 6, 0⟩, illegalInfo, illegalInfo,
   ⟨.bit, .zp, 2, 3, 0⟩, ⟨.and, .zp, 2, 3, 0⟩, ⟨.rol, .zp, 2, 5, 0⟩, illegalInfo,
   ⟨.plp, .imp, 1, 4, 0⟩, ⟨.and, .imm, 2, 2, 0⟩, ⟨.rol, .acc, 1, 2, 0⟩, illegalInfo,
   ⟨.bit, .abs, 3, 4, 0⟩, ⟨.and, .abs, 3, 4, 0⟩, ⟨.rol, .abs, 3, 6, 0⟩, illegalInfo]

/-- Opcodes `0x30` to `0x3F`. -/
def opcodeRow3 : List InstructionInfo :=
  [⟨.bmi, .rel, 2, 2, 0⟩, ⟨.and, .izy, 2, 5, 1⟩, illegalInfo, illegalInfo,
   illegalInfo, ⟨.and, .zpx, 2, 4, 0⟩, ⟨.rol, .zpx, 2, 6, 0⟩, illegalInfo,
   ⟨.sec, .imp, 1, 2, 0⟩, ⟨.and, .aby, 3, 4, 1⟩, illegalInfo, illegalInfo,
   illegalInfo, ⟨.and, .abx, 3, 4, 1⟩, ⟨.rol, .abx, 3, 7, 0⟩, illegalInfo]

/-- Opcodes `0x40` to `0x4F`. -/
def opcodeRow4 : List InstructionInfo :=
  [⟨.rti, .imp, 1, 6, 0⟩, ⟨.eor, .izx, 2, 6, 0⟩, illegalInfo, illegalInfo,
   illegalInfo, ⟨.eor, .zp, 2, 3, 0⟩, ⟨.lsr, .zp, 2, 5, 0⟩, illegalInfo,
   ⟨.pha, .imp, 1, 3, 0⟩, ⟨.eor, .imm, 2, 2, 0⟩, ⟨.lsr, .acc, 1, 2, 0⟩, illegalInfo,
   ⟨.jmp, .abs, 3, 3, 0⟩, ⟨.eor, .abs, 3, 4, 0⟩, ⟨.lsr, .abs, 3, 6, 0⟩, illegalInfo]

/-- Opcodes `0x50` to `0x5F`. -/
def opcodeRow5 : List InstructionInfo :=
  [⟨.bvc, .rel, 2, 2, 0⟩, ⟨.eor, .izy, 2, 5, 1⟩, illegalInfo, illegalInfo,
   illegalInfo, ⟨.eor, .zpx, 2, 4, 0⟩, ⟨.lsr, .zpx, 2, 6, 0⟩, illegalInfo,
   ⟨.cli, .imp, 1, 2, 0⟩, ⟨.eor, .aby, 3, 4, 1⟩, illegalInfo, illegalInfo,
   illegalInfo, ⟨.eor, .abx, 3, 4, 1⟩, ⟨.lsr, .abx, 3, 7, 0⟩, illegalInfo]

/-- Opcodes `0x60` to `0x6F`. -/
def opcodeRow6 : List InstructionInfo :=
  [⟨.rts, .imp, 1, 6, 0⟩, ⟨.adc, .izx, 2, 6, 0⟩, illegalInfo, illegalInfo,
   illegalInfo, ⟨.adc, .zp, 2, 3, 0⟩, ⟨.ror, .zp, 2, 5, 0⟩, illegalInfo,
   ⟨.pla, .imp, 1, 4, 0⟩, ⟨.adc, .imm, 2, 2, 0⟩, ⟨.ror, .acc, 1, 2, 0⟩, illegalInfo,
   ⟨.jmp, .ind, 3, 5, 0⟩, ⟨.adc, .abs, 3, 4, 0⟩, ⟨.ror, .abs, 3, 6, 0⟩, illegalInfo]

/-- Opcodes `0x70` to `0x7F`. -/
def opcodeRow7 : List InstructionInfo :=
  [⟨.bvs, .rel, 2, 2, 0⟩, ⟨.adc, .izy, 2, 5, 1⟩, illegalInfo, illegalInfo,
   illegalInfo, ⟨.adc, .zpx, 2, 4, 0⟩, ⟨.ror, .zpx, 2, 6, 0⟩, illegalInfo,
   ⟨.sei, .imp, 1, 2, 0⟩, ⟨.adc, .aby, 3, 4, 1⟩, illegalInfo, illegalInfo,
   illegalInfo, ⟨.adc, .abx, 3, 4, 1⟩, ⟨.ror, .abx, 3, 7, 0⟩, illegalInfo]

/-- Opcodes `0x80` to `0x8F`. -/
def opcodeRow8 : List InstructionInfo :=
  [illegalInfo, ⟨.sta, .izx, 2, 6, 0⟩, illegalInfo, illegalInfo,
   ⟨.sty, .zp, 2, 3, 0⟩, ⟨.sta, .zp, 2, 3, 0⟩, ⟨.stx, .zp, 2, 3, 0⟩, illegalInfo,
   ⟨.dey, .imp, 1, 2, 0⟩, illegalInfo, ⟨.txa, .imp, 1, 2, 0⟩, illegalInfo,
   ⟨.sty, .abs, 3, 4, 0⟩, ⟨.sta, .abs, 3, 4, 0⟩, ⟨.stx, .abs, 3, 4, 0⟩, illegalInfo]

/-- Opcodes `0x90` to `0x9F`. -/
def opcodeRow9 : List InstructionInfo :=
  [⟨.bcc, .rel, 2, 2, 0⟩, ⟨.sta, .izy, 2, 6, 0⟩, illegalInfo, illegalInfo,
   ⟨.sty, .zpx, 2, 4, 0⟩, ⟨.sta, .zpx, 2, 4, 0⟩, ⟨.stx, .zpy, 2, 4, 0⟩, illegalInfo,
   ⟨.tya, .imp, 1, 2, 0⟩, ⟨.sta, .aby, 3, 5, 0⟩, ⟨.txs, .imp, 1, 2, 0⟩, illegalInfo,
   illegalInfo, ⟨.sta, .abx, 3, 5, 0⟩, illegalInfo, illegalInfo]

/-- Opcodes `0xA0` to `0xAF`. -/
def opcodeRowA : List InstructionInfo :=
  [⟨.ldy, .imm, 2, 2, 0⟩, ⟨.lda, .izx, 2, 6, 0⟩, ⟨.ldx, .imm, 2, 2, 0⟩, illegalInfo,
   ⟨.ldy, .zp, 2, 3, 0⟩, ⟨.lda, .zp, 2, 3, 0⟩, ⟨.ldx, .zp, 2, 3, 0⟩, illegalInfo,
   ⟨.tay, .imp, 1, 2, 0⟩, ⟨.lda, .imm, 2, 2, 0⟩, ⟨.tax, .imp, 1, 2, 0⟩, illegalInfo,
   ⟨.ldy, .abs, 3, 4, 0⟩, ⟨.lda, .abs, 3, 4, 0⟩, ⟨.ldx, .abs, 3, 4, 0⟩, illegalInfo]

/-- Opcodes `0xB0` to `0xBF`. -/
def opcodeRowB : List InstructionInfo :=
  [⟨.bcs, .rel, 2, 2, 0⟩, ⟨.lda, .izy, 2, 5, 1⟩, illegalInfo, illegalInfo,
   ⟨.ldy, .zpx, 2, 4, 0⟩, ⟨.lda, .zpx, 2, 4, 0⟩, ⟨.ldx, .zpy, 2, 4, 0⟩, illegalInfo,
   ⟨.clv, .imp, 1, 2, 0⟩, ⟨.lda, .aby, 3, 4, 1⟩, ⟨.tsx, .imp, 1, 2, 0⟩, illegalInfo,
   ⟨.ldy, .abx, 3, 4, 1⟩, ⟨.lda, .abx, 3, 4, 1⟩, ⟨.ldx, .aby, 3, 4, 1⟩, illegalInfo]

/-- Opcodes `0xC0` to `0xCF`. -/
def opcodeRowC : List InstructionInfo :=
  [⟨.cpy, .imm, 2, 2, 0⟩, ⟨.cmp, .izx, 2, 6, 0⟩, illegalInfo, illegalInfo,
   ⟨.cpy, .zp, 2, 3, 0⟩, ⟨.cmp, .zp, 2, 3, 0⟩, ⟨.dec, .zp, 2, 5, 0⟩, illegalInfo,
   ⟨.iny, .imp, 1, 2, 0⟩, ⟨.cmp, .imm, 2, 2, 0⟩, ⟨.dex, .imp, 1, 2, 0⟩, illegalInfo,
   ⟨.cpy, .abs, 3, 4, 0⟩, ⟨.cmp, .abs, 3, 4, 0⟩, ⟨.dec, .abs, 3, 6, 0⟩, illegalInfo]

/-- Opcodes `0xD0` to `0xDF`. -/
def opcodeRowD : List InstructionInfo :=
  [⟨.bne, .rel, 2, 2, 0⟩, ⟨.cmp, .izy, 2, 5, 1⟩, illegalInfo, illegalInfo,
   illegalInfo, ⟨.cmp, .zpx, 2, 4, 0⟩, ⟨.dec, .zpx, 2, 6, 0⟩, illegalInfo,
   ⟨.cld, .imp, 1, 2, 0⟩, ⟨.cmp, .aby, 3, 4, 1⟩, illegalInfo, illegalInfo,
   illegalInfo, ⟨.cmp, .abx, 3, 4, 1⟩, ⟨.dec, .abx, 3, 7, 0⟩, illegalInfo]

/-- Opcodes `0xE0` to `0xEF`. -/
def opcodeRowE : List InstructionInfo :=
  [⟨.cpx, .imm, 2, 2, 0⟩, ⟨.sbc, .izx, 2, 6, 0⟩, illegalInfo, illegalInfo,
   ⟨.cpx, .zp, 2, 3, 0⟩, ⟨.sbc, .zp, 2, 3, 0⟩, ⟨.inc, .zp, 2, 5, 0⟩, illegalInfo,
   ⟨.inx, .imp, 1, 2, 0⟩, ⟨.sbc, .imm, 2, 2, 0⟩, ⟨.nop, .imp, 1, 2, 0⟩, illegalInfo,
   ⟨.cpx, .abs, 3, 4, 0⟩, ⟨.sbc, .abs, 3, 4, 0⟩, ⟨.inc, .abs, 3, 6, 0⟩, illegalInfo]

/-- Opcodes `0xF0` to `0xFF`. -/
def opcodeRowF : List InstructionInfo :=
  [⟨.beq, .rel, 2, 2, 0⟩, ⟨.sbc, .izy, 2, 5, 1⟩, illegalInfo, illegalInfo,
   illegalInfo, ⟨.sbc, .zpx, 2, 4, 0⟩, ⟨.inc, .zpx, 2, 6, 0⟩, illegalInfo,
   ⟨.sed, .imp, 1, 2, 0⟩, ⟨.sbc, .aby, 3, 4, 1⟩, illegalInfo, illegalInfo,
   illegalInfo, ⟨.sbc, .abx, 3, 4, 1⟩, ⟨.inc, .abx, 3, 7, 0⟩, illegalInfo]

/-- The table, one row per high nibble of the opcode (R57). -/
def opcodeTable : List (List InstructionInfo) :=
  [opcodeRow0, opcodeRow1, opcodeRow2, opcodeRow3, opcodeRow4, opcodeRow5, opcodeRow6, opcodeRow7] ++
  [opcodeRow8, opcodeRow9, opcodeRowA, opcodeRowB, opcodeRowC, opcodeRowD, opcodeRowE, opcodeRowF]

/-- `TABLE[opcode]` (40_step_and_addressing.md R72): every byte has an entry, so the default is never reached. -/
def opcodeInfo (op : Byte) : InstructionInfo :=
  (opcodeTable.getD (op.toNat / 16) []).getD (op.toNat % 16) illegalInfo

/-! ## Decoding -/

/-- The operand of a mode, assembled from the operand bytes (R53); a byte the mode does not have is not looked at. -/
def operandForm (m : Mode) (b1 b2 : Byte) : OperandForm :=
  match m with
  | .imp => .imp
  | .acc => .acc
  | .imm => .imm b1
  | .zp => .zp b1
  | .zpx => .zpx b1
  | .zpy => .zpy b1
  | .rel => .rel b1
  | .abs => .abs (join b2 b1)
  | .abx => .abx (join b2 b1)
  | .aby => .aby (join b2 b1)
  | .ind => .ind (join b2 b1)
  | .izx => .izx b1
  | .izy => .izy b1

/-- The instruction of an opcode byte and its operand bytes: one table lookup decides (R51), and no operand byte is ever
illegal (R59). -/
def assemble (op b1 b2 : Byte) : Instr :=
  let f := operandForm (opcodeInfo op).mode b1 b2
  match (opcodeInfo op).mnemonic with
  | .lda => .lda f
  | .ldx => .ldx f
  | .ldy => .ldy f
  | .sta => .sta f
  | .stx => .stx f
  | .sty => .sty f
  | .tax => .tax
  | .tay => .tay
  | .txa => .txa
  | .tya => .tya
  | .tsx => .tsx
  | .txs => .txs
  | .pha => .pha
  | .php => .php
  | .pla => .pla
  | .plp => .plp
  | .and => .and f
  | .ora => .ora f
  | .eor => .eor f
  | .bit => .bit f
  | .adc => .adc f
  | .sbc => .sbc f
  | .cmp => .cmp f
  | .cpx => .cpx f
  | .cpy => .cpy f
  | .inc => .inc f
  | .dec => .dec f
  | .inx => .inx
  | .iny => .iny
  | .dex => .dex
  | .dey => .dey
  | .asl => .asl f
  | .lsr => .lsr f
  | .rol => .rol f
  | .ror => .ror f
  | .jmp => .jmp f
  | .jsr => .jsr (join b2 b1)
  | .rts => .rts
  | .bpl => .bpl b1
  | .bmi => .bmi b1
  | .bvc => .bvc b1
  | .bvs => .bvs b1
  | .bcc => .bcc b1
  | .bcs => .bcs b1
  | .bne => .bne b1
  | .beq => .beq b1
  | .clc => .clc
  | .sec => .sec
  | .cli => .cli
  | .sei => .sei
  | .cld => .cld
  | .sed => .sed
  | .clv => .clv
  | .nop => .nop
  | .brk => .brk
  | .rti => .rti
  | .ill => .ill op

/-- Why a list of bytes is no instruction. Every opcode byte is bound (R58), so only bytes that are missing are one. -/
inductive DecodeReject where
  /-- there is no first byte -/
  | noOpcode
  /-- the table gives the opcode more bytes than there are -/
  | truncated (opcode : Byte)
  deriving DecidableEq, Repr

/-- The instruction at the head of a list of bytes, and the bytes after it (R54: the length comes from the table entry
of the first byte and from nothing else). -/
def decode : List Byte → Except DecodeReject (Instr × List Byte)
  | [] => .error .noOpcode
  | op :: rest =>
    match (opcodeInfo op).length, rest with
    | 1, rest => .ok (assemble op 0 0, rest)
    | 2, b1 :: rest => .ok (assemble op b1 0, rest)
    | 3, b1 :: b2 :: rest => .ok (assemble op b1 b2, rest)
    | _, _ => .error (.truncated op)

/-- The three bytes of an instruction word numbered as spec/opcode_table.json numbers it: bit 0 is the least significant
bit of the first byte; the bits from `nbits` up are 0. -/
def tableBytes (nbits w : Nat) : List Byte :=
  let v := w % 2 ^ nbits
  [BitVec.ofNat 8 v, BitVec.ofNat 8 (v / 256), BitVec.ofNat 8 (v / 65536)]

/-- The instruction the decoder reads from an instruction word of the opcode table. -/
def decodeTableWord (nbits w : Nat) : Option Instr :=
  match decode (tableBytes nbits w) with
  | .ok (i, _) => some i
  | .error _ => none

/-! ## Encoding (R56, by mnemonic and mode) -/

/-- A row of R56's eight-mode table. -/
def eightModeOpcode (imm zp zpx abs abx aby izx izy : Byte) : OperandForm → Option Byte
  | .imm _ => some imm
  | .zp _ => some zp
  | .zpx _ => some zpx
  | .abs _ => some abs
  | .abx _ => some abx
  | .aby _ => some aby
  | .izx _ => some izx
  | .izy _ => some izy
  | .imp | .acc | .zpy _ | .rel _ | .ind _ => none

/-- A row of R56's shift and rotate table. -/
def shiftOpcode (acc zp zpx abs abx : Byte) : OperandForm → Option Byte
  | .acc => some acc
  | .zp _ => some zp
  | .zpx _ => some zpx
  | .abs _ => some abs
  | .abx _ => some abx
  | .imp | .imm _ | .zpy _ | .rel _ | .aby _ | .ind _ | .izx _ | .izy _ => none

/-- A row of R56's table of IMM, ZP and ABS. -/
def compareOpcode (imm zp abs : Byte) : OperandForm → Option Byte
  | .imm _ => some imm
  | .zp _ => some zp
  | .abs _ => some abs
  | .imp | .acc | .zpx _ | .zpy _ | .rel _ | .abx _ | .aby _ | .ind _ | .izx _ | .izy _ => none

/-- The opcode byte of LDX: the forms indexed by `Y` (R56). -/
def ldxOpcode : OperandForm → Option Byte
  | .imm _ => some 0xA2
  | .zp _ => some 0xA6
  | .zpy _ => some 0xB6
  | .abs _ => some 0xAE
  | .aby _ => some 0xBE
  | .imp | .acc | .zpx _ | .rel _ | .abx _ | .ind _ | .izx _ | .izy _ => none

/-- The opcode byte of LDY: the forms indexed by `X` (R56). -/
def ldyOpcode : OperandForm → Option Byte
  | .imm _ => some 0xA0
  | .zp _ => some 0xA4
  | .zpx _ => some 0xB4
  | .abs _ => some 0xAC
  | .abx _ => some 0xBC
  | .imp | .acc | .zpy _ | .rel _ | .aby _ | .ind _ | .izx _ | .izy _ => none

/-- The opcode byte of STA, which has no immediate form (R56). -/
def staOpcode : OperandForm → Option Byte
  | .zp _ => some 0x85
  | .zpx _ => some 0x95
  | .abs _ => some 0x8D
  | .abx _ => some 0x9D
  | .aby _ => some 0x99
  | .izx _ => some 0x81
  | .izy _ => some 0x91
  | .imp | .acc | .imm _ | .zpy _ | .rel _ | .ind _ => none

/-- The opcode byte of STX (R56). -/
def stxOpcode : OperandForm → Option Byte
  | .zp _ => some 0x86
  | .zpy _ => some 0x96
  | .abs _ => some 0x8E
  | .imp | .acc | .imm _ | .zpx _ | .rel _ | .abx _ | .aby _ | .ind _ | .izx _ | .izy _ => none

/-- The opcode byte of STY (R56). -/
def styOpcode : OperandForm → Option Byte
  | .zp _ => some 0x84
  | .zpx _ => some 0x94
  | .abs _ => some 0x8C
  | .imp | .acc | .imm _ | .zpy _ | .rel _ | .abx _ | .aby _ | .ind _ | .izx _ | .izy _ => none

/-- The opcode byte of BIT (R56). -/
def bitOpcode : OperandForm → Option Byte
  | .zp _ => some 0x24
  | .abs _ => some 0x2C
  | .imp | .acc | .imm _ | .zpx _ | .zpy _ | .rel _ | .abx _ | .aby _ | .ind _ | .izx _ | .izy _ => none

/-- A row of R56's memory increment and decrement table. -/
def incDecOpcode (zp zpx abs abx : Byte) : OperandForm → Option Byte
  | .zp _ => some zp
  | .zpx _ => some zpx
  | .abs _ => some abs
  | .abx _ => some abx
  | .imp | .acc | .imm _ | .zpy _ | .rel _ | .aby _ | .ind _ | .izx _ | .izy _ => none

/-- The opcode byte of JMP (R56). -/
def jmpOpcode : OperandForm → Option Byte
  | .abs _ => some 0x4C
  | .ind _ => some 0x6C
  | .imp | .acc | .imm _ | .zp _ | .zpx _ | .zpy _ | .rel _ | .abx _ | .aby _ | .izx _ | .izy _ => none

/-- The opcode byte of an instruction (R56, R58); none for a pair of mnemonic and mode that has no opcode (R94). -/
def opcodeOf : Instr → Option Byte
  | .lda f => eightModeOpcode 0xA9 0xA5 0xB5 0xAD 0xBD 0xB9 0xA1 0xB1 f
  | .ldx f => ldxOpcode f
  | .ldy f => ldyOpcode f
  | .sta f => staOpcode f
  | .stx f => stxOpcode f
  | .sty f => styOpcode f
  | .tax => some 0xAA
  | .tay => some 0xA8
  | .txa => some 0x8A
  | .tya => some 0x98
  | .tsx => some 0xBA
  | .txs => some 0x9A
  | .pha => some 0x48
  | .php => some 0x08
  | .pla => some 0x68
  | .plp => some 0x28
  | .and f => eightModeOpcode 0x29 0x25 0x35 0x2D 0x3D 0x39 0x21 0x31 f
  | .ora f => eightModeOpcode 0x09 0x05 0x15 0x0D 0x1D 0x19 0x01 0x11 f
  | .eor f => eightModeOpcode 0x49 0x45 0x55 0x4D 0x5D 0x59 0x41 0x51 f
  | .bit f => bitOpcode f
  | .adc f => eightModeOpcode 0x69 0x65 0x75 0x6D 0x7D 0x79 0x61 0x71 f
  | .sbc f => eightModeOpcode 0xE9 0xE5 0xF5 0xED 0xFD 0xF9 0xE1 0xF1 f
  | .cmp f => eightModeOpcode 0xC9 0xC5 0xD5 0xCD 0xDD 0xD9 0xC1 0xD1 f
  | .cpx f => compareOpcode 0xE0 0xE4 0xEC f
  | .cpy f => compareOpcode 0xC0 0xC4 0xCC f
  | .inc f => incDecOpcode 0xE6 0xF6 0xEE 0xFE f
  | .dec f => incDecOpcode 0xC6 0xD6 0xCE 0xDE f
  | .inx => some 0xE8
  | .iny => some 0xC8
  | .dex => some 0xCA
  | .dey => some 0x88
  | .asl f => shiftOpcode 0x0A 0x06 0x16 0x0E 0x1E f
  | .lsr f => shiftOpcode 0x4A 0x46 0x56 0x4E 0x5E f
  | .rol f => shiftOpcode 0x2A 0x26 0x36 0x2E 0x3E f
  | .ror f => shiftOpcode 0x6A 0x66 0x76 0x6E 0x7E f
  | .jmp f => jmpOpcode f
  | .jsr _ => some 0x20
  | .rts => some 0x60
  | .bpl _ => some 0x10
  | .bmi _ => some 0x30
  | .bvc _ => some 0x50
  | .bvs _ => some 0x70
  | .bcc _ => some 0x90
  | .bcs _ => some 0xB0
  | .bne _ => some 0xD0
  | .beq _ => some 0xF0
  | .clc => some 0x18
  | .sec => some 0x38
  | .cli => some 0x58
  | .sei => some 0x78
  | .cld => some 0xD8
  | .sed => some 0xF8
  | .clv => some 0xB8
  | .nop => some 0xEA
  | .brk => some 0x00
  | .rti => some 0x40
  | .ill op => some op

/-- The operand bytes of a form, low byte of a word first (R50, R52). -/
def OperandForm.bytes : OperandForm → List Byte
  | .imp | .acc => []
  | .imm b | .zp b | .zpx b | .zpy b | .rel b | .izx b | .izy b => [b]
  | .abs w | .abx w | .aby w | .ind w => [lo w, hi w]

/-- The operand of an instruction as a form: JSR's target is mode ABS, a branch's displacement mode REL, and every
instruction without an operand mode IMP (R56). -/
def Instr.form : Instr → OperandForm
  | .lda f | .ldx f | .ldy f | .sta f | .stx f | .sty f | .and f | .ora f | .eor f | .bit f
  | .adc f | .sbc f | .cmp f | .cpx f | .cpy f | .inc f | .dec f | .asl f | .lsr f | .rol f | .ror f | .jmp f => f
  | .jsr w => .abs w
  | .bpl b | .bmi b | .bvc b | .bvs b | .bcc b | .bcs b | .bne b | .beq b => .rel b
  | .tax | .tay | .txa | .tya | .tsx | .txs | .pha | .php | .pla | .plp | .inx | .iny | .dex | .dey | .rts
  | .clc | .sec | .cli | .sei | .cld | .sed | .clv | .nop | .brk | .rti | .ill _ => .imp

/-- The bytes of a well-formed instruction, in memory order (R50); none for a pair the table does not have. -/
def encode (i : Instr) : List Byte :=
  match opcodeOf i with
  | some op => op :: i.form.bytes
  | none => []

end Sys2Proof
end

