-- ==== Sys2Proof/Config.lean ====
section
/-! DEFINITION. The implementation parameters the spec leaves to the model's argument (spec/00_scope.md R5, 10_state.md
R24). The spec calls nothing undefined or unpredictable (93_implementation_defined.md), so there is no free value. -/

namespace Sys2Proof

/-- What the 105 undefined opcode bytes do (30_encoding.md R58, decision D4). -/
inductive IllegalPolicy where
  /-- one byte, one cycle, no effect -/
  | nop1
  /-- the model stops with `IllegalOpcode(opcode, opaddr)` -/
  | fault
  deriving DecidableEq, Repr

/-- What PLP and RTI do with bit 4 of the pulled byte (42_transfer_stack.md R120, decision D5): OPEN. -/
inductive PlpBPolicy where
  /-- bits 4 and 5 of `P` keep their value -/
  | ignore
  /-- bit 4 is copied from the pulled byte, bit 5 forced to 1 -/
  | verbatim
  deriving DecidableEq, Repr

/-- The two parameters of a run (10_state.md R24: "configuration fixed for a whole run"). -/
structure Config where
  illegalPolicy : IllegalPolicy
  plpBPolicy    : PlpBPolicy
  deriving DecidableEq, Repr

/-- The spec's defaults (00_scope.md R5): `nop1` and `ignore`. -/
def Config.default : Config := ⟨.nop1, .ignore⟩

end Sys2Proof
end

