-- ==== Sys2Proof/Machine/Memory.lean ====
section
/-! DEFINITION. The 64 KiB of memory behind the memory capability (spec/20_memory.md R30), as a list of cells in one
canonical form. -/

namespace Sys2Proof.Machine

/-- Memory as its listed cells: addresses strictly rising, no cell equal to what an unlisted address reads as. -/
abbrev Memory := List Host.Cell

/-- DESIGN CHOICE (log entry 3): what an address no cell lists reads as. The spec leaves the contents at power-up to the
memory collaborator (93_implementation_defined.md U5). -/
def Memory.unlisted : Byte := 0x00

/-- The byte at a key. -/
def Memory.lookup : Memory → Nat → Byte
  | [], _ => Memory.unlisted
  | (k, v) :: rest, n => if k = n then v else Memory.lookup rest n

/-- The byte at an address. -/
def Memory.get (m : Memory) (a : Word) : Byte := Memory.lookup m a.toNat

/-- Stores a byte at a key and keeps the canonical form. -/
def Memory.insert : Memory → Nat → Byte → Memory
  | [], n, v => if v = Memory.unlisted then [] else [(n, v)]
  | (k, w) :: rest, n, v =>
    if n < k then (if v = Memory.unlisted then (k, w) :: rest else (n, v) :: (k, w) :: rest)
    else if n = k then (if v = Memory.unlisted then rest else (n, v) :: rest)
    else (k, w) :: Memory.insert rest n v

/-- Stores a byte at an address. -/
def Memory.set (m : Memory) (a : Word) (v : Byte) : Memory := Memory.insert m a.toNat v

/-- The canonical form above a least key: keys rising, below 65536, no listed value equal to `Memory.unlisted`. -/
def Memory.wfFrom : Nat → Memory → Bool
  | _, [] => true
  | least, (k, v) :: rest =>
    decide (least ≤ k) && decide (k < 65536) && (v != Memory.unlisted) && Memory.wfFrom (k + 1) rest

/-- The canonical form. -/
def Memory.wf (m : Memory) : Bool := Memory.wfFrom 0 m

end Sys2Proof.Machine
end

