-- ==== Sys2Proof/Machine/State.lean ====
section
/-! DEFINITION. The state of the core (spec/10_state.md R10) as plain data, with the memory behind its capability, the
parameters of the run, the environment's coming answers and the outputs of the last Step; why a step can stop; and the
state right after Reset. -/

namespace Sys2Proof.Machine

/-- Why the machine stops. -/
inductive Fault where
  /-- `raise IllegalOpcode(opcode, opaddr)` (30_encoding.md R58, 49_flag_system.md R206): raised by the meaning of an
  illegal opcode when `ILLEGAL_POLICY = fault`, and by nothing else. Safe: the spec gives that Step no successor. -/
  | illegalOpcode (opcode : Byte) (opaddr : Word)
  deriving DecidableEq, Repr

/-- Why the machine gives no meaning. -/
inductive Refusal where
  /-- An instruction not modelled yet, by its mnemonic in the opcode table: raised by an arm of `exec`, of which none is
  left. Safe. -/
  | notModelled (mnemonic : String)
  /-- A launch state, or a host write of `P`, with bit 5 at 0 (10_state.md R27, decision D20: "a model should refuse such
  a launch state rather than give it a meaning"): raised by `step` and by the host's write of `P`. Safe. -/
  | unusedBitClear
  deriving DecidableEq, Repr

/-- What the memory capability does with one access (20_memory.md R31: a read may return anything, a write may be
dropped; log entry 2). -/
inductive BusReply where
  /-- plain memory: a read returns the cell's content, a write stores -/
  | memory
  /-- something else stands behind the address: a read returns `v`; a write is accepted and changes no cell -/
  | device (v : Byte)
  deriving DecidableEq, Repr

/-- One call of the memory capability (20_memory.md R31, R43). -/
inductive BusAccess where
  | read (addr : Word) (v : Byte)
  | write (addr : Word) (v : Byte)
  deriving DecidableEq, Repr

structure State where
  /-- the accumulator (R11) -/
  a : Byte
  /-- index register `X` (R12) -/
  x : Byte
  /-- index register `Y` (R12) -/
  y : Byte
  /-- the stack pointer (R14) -/
  sp : Byte
  /-- the status register `P`: C Z I D B U V N from bit 0 (R15) -/
  p : Byte
  /-- the program counter (R13) -/
  pc : Word
  /-- the NMI latch (R22) -/
  nmiPending : Bool
  /-- the IRQ latch (R22) -/
  irqPending : Bool
  /-- the memory behind the capability (20_memory.md R30) -/
  mem : Memory
  /-- the parameters of the run (R24); no step writes them -/
  cfg : Config
  /-- MODEL field (log entry 2): the capability's answers to the coming accesses, oldest first; past its end, memory -/
  replies : List BusReply
  /-- MODEL field (log entry 6): the accesses of the last Step or Reset, in order (20_memory.md R43, R44) -/
  bus : List BusAccess
  /-- MODEL field (log entry 6): the cycle count the last Step returned; none after Reset, which returns none (R253) -/
  stepCycles : Option Byte
  deriving DecidableEq, Repr

/-- The state right after Reset (10_state.md R26, 70_reset_and_hazards.md R240) on a memory that lists nothing (log entry
3) that answers as plain memory, with the spec's default parameters (log entry 5). `PC` is the reset vector's word, and
the two accesses are R240's. -/
def State.reset : State where
  a := 0x00
  x := 0x00
  y := 0x00
  sp := 0xFD
  p := 0x20
  pc := join (Memory.get [] 0xFFFD) (Memory.get [] 0xFFFC)
  nmiPending := false
  irqPending := false
  mem := []
  cfg := Config.default
  replies := []
  bus := [.read 0xFFFC (Memory.get [] 0xFFFC), .read 0xFFFD (Memory.get [] 0xFFFD)]
  stepCycles := none

end Sys2Proof.Machine
end

