-- ==== Sys2Proof/Machine/Flags.lean ====
section
/-! DEFINITION. The flags of `P` (spec/10_state.md R15 to R21), every flag computation of the instruction rules
(44_arithmetic.md, 46_shift_rotate.md), and the copies of `P` that go to and come from the stack. -/

namespace Sys2Proof.Machine

/-- The flags, by letter (R15). -/
inductive Flag where
  | c | z | i | d | b | u | v | n
  deriving DecidableEq, Repr

/-- The bit of a flag in `P` (R15). -/
def Flag.bit : Flag → Nat
  | .c => 0
  | .z => 1
  | .i => 2
  | .d => 3
  | .b => 4
  | .u => 5
  | .v => 6
  | .n => 7

/-- The mask of a flag in `P` (R15). -/
def Flag.mask : Flag → Byte
  | .c => 0x01
  | .z => 0x02
  | .i => 0x04
  | .d => 0x08
  | .b => 0x10
  | .u => 0x20
  | .v => 0x40
  | .n => 0x80

/-- `P.f` (R15). -/
def flag (f : Flag) (p : Byte) : Bool := p.getLsbD f.bit

/-- `SetFlag(f, cond)` (R21): sets the bit if the condition holds, else clears it; no other bit changes. -/
def setFlag (f : Flag) (cond : Bool) (p : Byte) : Byte := if cond then p ||| f.mask else p &&& ~~~f.mask

/-- `SetZN(v)` (R20): Z iff `v` is 0, N from bit 7 of `v`. -/
def setZN (v : Byte) (p : Byte) : Byte := setFlag .n (v.getLsbD 7) (setFlag .z (v == 0) p)

/-! ## Arithmetic (44_arithmetic.md) -/

/-- `result16 = A + M + C` (R135), wide enough not to wrap. -/
def sum16 (a m : Byte) (c : Bool) : Word := zext16 a + zext16 m + (if c then 1 else 0)

/-- `A' = result16 & 0xFF` (R135). -/
def addResult (a m : Byte) (c : Bool) : Byte := lo (sum16 a m c)

/-- `C' = result16 > 0xFF` (R135). -/
def addCarry (a m : Byte) (c : Bool) : Bool := decide (0xFF < sum16 a m c)

/-- `V' = ((~(M ^ A) & (A ^ result16)) & 0x80) != 0`, with the old accumulator (R135). -/
def addOverflow (a m : Byte) (c : Bool) : Bool := (~~~(m ^^^ a) &&& (a ^^^ addResult a m c)) &&& 0x80 != 0

/-- The status after ADC: C, V, Z, N written (R135). -/
def addFlags (a m p : Byte) : Byte :=
  let c := flag .c p
  setZN (addResult a m c) (setFlag .v (addOverflow a m c) (setFlag .c (addCarry a m c) p))

/-- The status after a compare of `r` with `m`: C iff `r >= m` unsigned, Z and N of the wrapped difference (R137). -/
def compareFlags (r m p : Byte) : Byte := setZN (r - m) (setFlag .c (decide (m ≤ r)) p)

/-- The status after BIT: Z of `A & M`, N and V from bits 7 and 6 of `M` (43_logical.md R128). -/
def bitFlags (a m p : Byte) : Byte :=
  setFlag .v (m.getLsbD 6) (setFlag .n (m.getLsbD 7) (setFlag .z (a &&& m == 0) p))

/-! ## Shifts and rotates (46_shift_rotate.md) -/

/-- ASL's result (R161). -/
def aslResult (v : Byte) : Byte := v <<< 1

/-- LSR's result (R162). -/
def lsrResult (v : Byte) : Byte := v >>> 1

/-- ROL's result: bit 0 is the old carry (R163). -/
def rolResult (cin : Bool) (v : Byte) : Byte := (v <<< 1) ||| (if cin then 0x01 else 0x00)

/-- ROR's result: bit 7 is the old carry (R164). -/
def rorResult (cin : Bool) (v : Byte) : Byte := (v >>> 1) ||| (if cin then 0x80 else 0x00)

/-- The status after a shift: C is the bit shifted out, Z and N of the result (R161 to R164). -/
def shiftFlags (out : Bool) (r p : Byte) : Byte := setZN r (setFlag .c out p)

/-! ## Copies of `P` -/

/-- The copy PHP and BRK push: B and U forced to 1 (42_transfer_stack.md R117, 49_flag_system.md R203). -/
def pushedByInstr (p : Byte) : Byte := p ||| 0x30

/-- The copy an interrupt entry pushes: B forced to 0, U to 1 (60_exceptions.md R219). -/
def pushedByInterrupt (p : Byte) : Byte := (p &&& 0xEF) ||| 0x20

/-- `PullP(v)`, the status restore of PLP and RTI (42_transfer_stack.md R120). -/
def pullP (policy : PlpBPolicy) (v p : Byte) : Byte :=
  match policy with
  | .ignore => (v &&& 0xCF) ||| (p &&& 0x30)
  | .verbatim => v ||| 0x20

end Sys2Proof.Machine
end

