-- ==== Sys2Proof/Machine/Ops.lean ====
section
/-! DEFINITION. The operations every rule is written with: register writes, the two calls of the memory capability, the
16-bit reads, Push and Pop (spec/20_memory.md), the entry into an exception and the return from one (60_exceptions.md),
the cycle count of a Step, and the fetch of an instruction's bytes (40_step_and_addressing.md R71, R72).

An access is two functions of the state: the value a read returns (`memRead`) and the state after it (`afterMemRead`). -/

namespace Sys2Proof.Machine

/-! ## Register writes -/

def State.setA (s : State) (v : Byte) : State := { s with a := v }
def State.setX (s : State) (v : Byte) : State := { s with x := v }
def State.setY (s : State) (v : Byte) : State := { s with y := v }
def State.setSp (s : State) (v : Byte) : State := { s with sp := v }
def State.setP (s : State) (v : Byte) : State := { s with p := v }
def State.setPc (s : State) (v : Word) : State := { s with pc := v }
def State.setNmi (s : State) (b : Bool) : State := { s with nmiPending := b }
def State.setIrq (s : State) (b : Bool) : State := { s with irqPending := b }
def State.setMem (s : State) (m : Memory) : State := { s with mem := m }
def State.setReplies (s : State) (rs : List BusReply) : State := { s with replies := rs }
def State.setBus (s : State) (t : List BusAccess) : State := { s with bus := t }
def State.setCycles (s : State) (c : Option Byte) : State := { s with stepCycles := c }

/-! ## The memory capability (20_memory.md R31) -/

/-- What the next read of an address returns: the cell's content, unless the capability answers otherwise. -/
def State.memRead (s : State) (a : Word) : Byte :=
  match s.replies with
  | .device v :: _ => v
  | .memory :: _ | [] => s.mem.get a

/-- The state after that read: the answer is used up and the access recorded. -/
def State.afterMemRead (s : State) (a : Word) : State :=
  { s with replies := s.replies.tail, bus := s.bus ++ [.read a (s.memRead a)] }

/-- Whether the next write reaches a cell: it does not where the capability drops it. -/
def State.writeLands (s : State) : Bool :=
  match s.replies with
  | .device _ :: _ => false
  | .memory :: _ | [] => true

/-- `MemWrite(addr, 1, v)`: from the core's side always a completed write (R31). -/
def State.memWrite (s : State) (a : Word) (v : Byte) : State :=
  { s with mem := if s.writeLands then s.mem.set a v else s.mem, replies := s.replies.tail,
           bus := s.bus ++ [.write a v] }

/-! ## 16-bit reads: the byte at the first address is the low byte and is read first (R33 to R36) -/

/-- The word whose low byte is read at `a` and then its high byte at `b`. -/
def State.memReadPair (s : State) (a b : Word) : Word := join ((s.afterMemRead a).memRead b) (s.memRead a)

/-- The state after those two reads. -/
def State.afterMemReadPair (s : State) (a b : Word) : State := (s.afterMemRead a).afterMemRead b

/-- The second address of `Read16(addr)`: `addr + 1` modulo 65536 (R34). -/
def nextAddr (a : Word) : Word := a + 1

/-- The second address of `ReadBugged(addr)`: it never leaves the page of `addr` (R35). -/
def nextAddrInPage (a : Word) : Word := (a &&& 0xFF00) ||| ((a + 1) &&& 0x00FF)

/-- The second address of `ReadZP16(p)`: it never leaves page 0 (R36). -/
def nextAddrZP (p : Byte) : Word := zext16 (p + 1)

/-! ## The stack (R39 to R41) -/

/-- `0x0100 | SP` (10_state.md R14). -/
def stackAddr (sp : Byte) : Word := 0x0100 ||| zext16 sp

/-- `Push(v)`: writes at `0x0100 | SP`, then decrements `SP` (R39). -/
def State.push (s : State) (v : Byte) : State := (s.memWrite (stackAddr s.sp) v).setSp (s.sp - 1)

/-- The byte `Pop()` returns: read at `0x0100 | (SP + 1)` (R40). -/
def State.popByte (s : State) : Byte := s.memRead (stackAddr (s.sp + 1))

/-- The state after `Pop()`: `SP` incremented before the read (R40). -/
def State.afterPop (s : State) : State := (s.setSp (s.sp + 1)).afterMemRead (stackAddr (s.sp + 1))

/-- A 16-bit value pushed high byte first (R41). -/
def State.pushWord (s : State) (v : Word) : State := (s.push (hi v)).push (lo v)

/-- The word two pops return, low byte first (R41). -/
def State.popWord (s : State) : Word := join s.afterPop.popByte s.popByte

/-- The state after those two pops. -/
def State.afterPopWord (s : State) : State := s.afterPop.afterPop

/-! ## Exceptions (60_exceptions.md) -/

/-- The NMI vector (20_memory.md R38). -/
def nmiVector : Word := 0xFFFA

/-- The Reset vector (20_memory.md R38). -/
def resetVector : Word := 0xFFFC

/-- The IRQ/BRK vector (20_memory.md R38). -/
def irqVector : Word := 0xFFFE

/-- Taking an exception, as BRK (49_flag_system.md R203) and interrupt entry (60_exceptions.md R219) share it: push the
return address high then low, push the copy of `P`, set I, load `PC` from the vector, low byte first. -/
def State.takeException (s : State) (vector ret : Word) (copy : Byte) : State :=
  let pushed := (s.pushWord ret).push copy
  let masked := pushed.setP (setFlag .i true pushed.p)
  (masked.afterMemReadPair vector (nextAddr vector)).setPc (masked.memReadPair vector (nextAddr vector))

/-- Returning from one, as RTI does (49_flag_system.md R204): pull `P`, then `PC` low then high, nothing added. -/
def State.returnFromException (s : State) : State :=
  let restored := s.afterPop.setP (pullP s.cfg.plpBPolicy s.popByte s.p)
  restored.afterPopWord.setPc restored.popWord

/-- The two external interrupts (60_exceptions.md R217). -/
inductive InterruptKind where
  | nmi
  | irq
  deriving DecidableEq, Repr

/-- The vector of an interrupt (60_exceptions.md R216). -/
def InterruptKind.vector : InterruptKind → Word
  | .nmi => nmiVector
  | .irq => irqVector

/-- Clears the latch of the interrupt served, and only that (60_exceptions.md R217). -/
def State.clearLatch (s : State) : InterruptKind → State
  | .nmi => s.setNmi false
  | .irq => s.setIrq false

/-- `InterruptEntry(kind)` (60_exceptions.md R219): pushes `PC` with nothing added and a copy of `P` with B = 0, sets I,
clears the served latch, loads `PC` from the vector, returns 7 cycles. -/
def State.interruptEntry (s : State) (kind : InterruptKind) : State :=
  ((s.clearLatch kind).takeException kind.vector s.pc (pushedByInterrupt s.p)).setCycles (some 7)

/-- The interrupt check, step (0) of every Step (60_exceptions.md R218): NMI before IRQ, IRQ only while I is clear. -/
def State.pendingInterrupt (s : State) : Option InterruptKind :=
  if s.nmiPending then some .nmi
  else if s.irqPending && !flag .i s.p then some .irq
  else none

/-! ## The cycle count (40_step_and_addressing.md R92) -/

/-- The table entry of an instruction; of a pair the table does not have, the entry `ILL` (log entry 1). -/
def tableEntry (i : Instr) : InstructionInfo :=
  match opcodeOf i with
  | some op => opcodeInfo op
  | none => illegalInfo

/-- `info.base_cycles + (op.crossed ? info.extra_cycle : 0) + hx` (R92). -/
def cycleCount (i : Instr) (crossed : Bool) (hx : Nat) : Nat :=
  (tableEntry i).baseCycles + (if crossed then (tableEntry i).extraCycle else 0) + hx

/-- The Step of instruction `i` returns its cycle count, an unsigned 8-bit number (R70). -/
def State.returns (s : State) (i : Instr) (crossed : Bool) (hx : Nat) : State :=
  s.setCycles (some (BitVec.ofNat 8 (cycleCount i crossed hx)))

/-! ## The Step around an instruction -/

/-- 10_state.md R16, R27: bit 5 of `P` is 1 in every launch state the spec gives a meaning. -/
def State.launchable (s : State) : Bool := flag .u s.p

/-- A Step begins with no access made yet. -/
def State.beginStep (s : State) : State := s.setBus []

/-- The instruction at `PC`: the opcode byte, then as many operand bytes as the table gives the opcode (R71, R72, R44), read
through the capability in ascending order. -/
def State.fetch (s : State) : Instr :=
  let op := s.memRead s.pc
  let s1 := s.afterMemRead s.pc
  let b1 := s1.memRead (s.pc + 1)
  let b2 := (s1.afterMemRead (s.pc + 1)).memRead (s.pc + 2)
  match (opcodeInfo op).length with
  | 1 => assemble op 0 0
  | 2 => assemble op b1 0
  | _ => assemble op b1 b2

/-- The state after the fetch: only the bytes the instruction has are read, and `PC` has not moved (R71, R74). -/
def State.afterFetch (s : State) : State :=
  let s1 := s.afterMemRead s.pc
  match (opcodeInfo (s.memRead s.pc)).length with
  | 1 => s1
  | 2 => s1.afterMemRead (s.pc + 1)
  | _ => (s1.afterMemRead (s.pc + 1)).afterMemRead (s.pc + 2)

end Sys2Proof.Machine
end

