-- ==== Sys2Proof/Machine/Operands.lean ====
section
/-! DEFINITION. The addressing-mode resolver (spec/40_step_and_addressing.md R74, R77 to R91) and the shapes the
instruction rules share: read the operand, store a register, read-modify-write, no operand, branch. -/

namespace Sys2Proof.Machine

/-- The Operand record the resolver hands to a handler (R77). -/
structure Operand where
  addr    : Word
  mode    : Mode
  crossed : Bool
  disp    : Word
  deriving DecidableEq, Repr

/-- The page of the address before the index differs from the page after it (R91). -/
def pageCrossed (base addr : Word) : Bool := hi base != hi addr

/-- The zero-page pointer of `(zp,X)`: wraps within page 0 (R89). -/
def izxPointer (s : State) (b : Byte) : Byte := b + s.x

/-- The word at a zero-page pointer, `ReadZP16` (20_memory.md R36). -/
def zpWord (s : State) (p : Byte) : Word := s.memReadPair (zext16 p) (nextAddrZP p)

/-- `Resolve(mode, opaddr)` (R74): the Operand, from the not yet advanced `PC` and the index registers (R78 to R90). -/
def resolve (f : OperandForm) (s : State) : Operand :=
  match f with
  | .imp => ⟨0, .imp, false, 0⟩
  | .acc => ⟨0, .acc, false, 0⟩
  | .imm _ => ⟨s.pc + 1, .imm, false, 0⟩
  | .zp b => ⟨zext16 b, .zp, false, 0⟩
  | .zpx b => ⟨zext16 (b + s.x), .zpx, false, 0⟩
  | .zpy b => ⟨zext16 (b + s.y), .zpy, false, 0⟩
  | .rel b => ⟨0, .rel, false, sext16 b⟩
  | .abs w => ⟨w, .abs, false, 0⟩
  | .abx w => ⟨w + zext16 s.x, .abx, pageCrossed w (w + zext16 s.x), 0⟩
  | .aby w => ⟨w + zext16 s.y, .aby, pageCrossed w (w + zext16 s.y), 0⟩
  | .ind w => ⟨s.memReadPair w (nextAddrInPage w), .ind, false, 0⟩
  | .izx b => ⟨zpWord s (izxPointer s b), .izx, false, 0⟩
  | .izy b => ⟨zpWord s b + zext16 s.y, .izy, pageCrossed (zpWord s b) (zpWord s b + zext16 s.y), 0⟩

/-- The state after the resolver: it reads pointer bytes in the three indirect modes and writes no register and no memory
(R74). The operand bytes of the instruction were read by the fetch (log entry 7). -/
def afterResolve (f : OperandForm) (s : State) : State :=
  match f with
  | .ind w => s.afterMemReadPair w (nextAddrInPage w)
  | .izx b => s.afterMemReadPair (zext16 (izxPointer s b)) (nextAddrZP (izxPointer s b))
  | .izy b => s.afterMemReadPair (zext16 b) (nextAddrZP b)
  | .imp | .acc | .imm _ | .zp _ | .zpx _ | .zpy _ | .rel _ | .abs _ | .abx _ | .aby _ => s

/-- The state the handler starts in: operand resolved, `PC` advanced past the instruction (R75). -/
def atHandler (f : OperandForm) (s : State) : State :=
  (afterResolve f s).setPc (s.pc + BitVec.ofNat 16 f.length)

/-- The operand value a handler works on: register `A` in mode ACC (46_shift_rotate.md R160), the literal in mode IMM,
otherwise `MemRead(op.addr, 1)`. -/
def operandByte (f : OperandForm) (s : State) : Byte :=
  match f with
  | .acc => s.a
  | .imm b => b
  | .imp | .zp _ | .zpx _ | .zpy _ | .rel _ | .abs _ | .abx _ | .aby _ | .ind _ | .izx _ | .izy _ =>
    (atHandler f s).memRead (resolve f s).addr

/-- The state after the handler has that value. -/
def afterOperandByte (f : OperandForm) (s : State) : State :=
  match f with
  | .acc | .imm _ => atHandler f s
  | .imp | .zp _ | .zpx _ | .zpy _ | .rel _ | .abs _ | .abx _ | .aby _ | .ind _ | .izx _ | .izy _ =>
    (atHandler f s).afterMemRead (resolve f s).addr

/-- `WriteResult(op, r)` (46_shift_rotate.md R160): `A` in mode ACC, otherwise one write at `op.addr`. -/
def writeResult (f : OperandForm) (addr : Word) (r : Byte) (s : State) : State :=
  match f with
  | .acc => s.setA r
  | .imp | .imm _ | .zp _ | .zpx _ | .zpy _ | .rel _ | .abs _ | .abx _ | .aby _ | .ind _ | .izx _ | .izy _ =>
    s.memWrite addr r

/-! ## The shapes of a handler -/

/-- A handler that reads its operand and then changes registers only. -/
def runRead (i : Instr) (f : OperandForm) (act : Byte → State → State) (s : State) : Host.Outcome State Fault Refusal :=
  .next ((act (operandByte f s) (afterOperandByte f s)).returns i (resolve f s).crossed 0)

/-- A handler that stores one byte at the effective address and does not read it (20_memory.md R44). -/
def runStore (i : Instr) (f : OperandForm) (v : Byte) (s : State) : Host.Outcome State Fault Refusal :=
  .next (((atHandler f s).memWrite (resolve f s).addr v).returns i (resolve f s).crossed 0)

/-- A handler that reads its operand, writes the result back to the same place, and then sets the flags: one read and one
write (46_shift_rotate.md R160, 45_incdec.md R150). -/
def runModify (i : Instr) (f : OperandForm) (result : Byte → Byte) (flags : Byte → Byte → Byte) (s : State) :
    Host.Outcome State Fault Refusal :=
  let v := operandByte f s
  let written := writeResult f (resolve f s).addr (result v) (afterOperandByte f s)
  .next ((written.setP (flags v written.p)).returns i (resolve f s).crossed 0)

/-- A handler without an operand: mode IMP, `PC` advanced by 1 (R78). -/
def runImplied (i : Instr) (act : State → State) (s : State) : Host.Outcome State Fault Refusal :=
  .next ((act (atHandler .imp s)).returns i false 0)

/-- `Branch(cond)` (48_branch.md R180): the target is the advanced `PC` plus the displacement; one more cycle if taken, two
if the target's page is not that of the instruction following the branch. -/
def runBranch (i : Instr) (cond : Bool) (disp : Byte) (s : State) : Host.Outcome State Fault Refusal :=
  let following := atHandler (.rel disp) s
  let target := following.pc + (resolve (.rel disp) s).disp
  if cond then .next ((following.setPc target).returns i false (if hi target != hi following.pc then 2 else 1))
  else .next (following.returns i false 0)

end Sys2Proof.Machine
end

