-- ==== Sys2Proof/Machine/Arithmetic.lean ====
section
/-! DEFINITION. ADC SBC CMP CPX CPY (spec/44_arithmetic.md). `P.D` is not consulted (R141). -/

namespace Sys2Proof.Machine

/-- ADC: `A <- A + M + C`; C, V, Z, N (R135). -/
def execAdc (f : OperandForm) (s : State) : Host.Outcome State Fault Refusal :=
  runRead (.adc f) f (fun m t => (t.setA (addResult t.a m (flag .c t.p))).setP (addFlags t.a m t.p)) s

/-- SBC: ADC of the ones' complement of `M` (R136). -/
def execSbc (f : OperandForm) (s : State) : Host.Outcome State Fault Refusal :=
  runRead (.sbc f) f (fun m t => (t.setA (addResult t.a (m ^^^ 0xFF) (flag .c t.p))).setP (addFlags t.a (m ^^^ 0xFF) t.p)) s

/-- CMP: C, Z, N of `A - M`; `A` is not changed (R137). -/
def execCmp (f : OperandForm) (s : State) : Host.Outcome State Fault Refusal :=
  runRead (.cmp f) f (fun m t => t.setP (compareFlags t.a m t.p)) s

/-- CPX: C, Z, N of `X - M` (R138). -/
def execCpx (f : OperandForm) (s : State) : Host.Outcome State Fault Refusal :=
  runRead (.cpx f) f (fun m t => t.setP (compareFlags t.x m t.p)) s

/-- CPY: C, Z, N of `Y - M` (R139). -/
def execCpy (f : OperandForm) (s : State) : Host.Outcome State Fault Refusal :=
  runRead (.cpy f) f (fun m t => t.setP (compareFlags t.y m t.p)) s

end Sys2Proof.Machine
end

