-- ==== Sys2Proof/Machine/Branch.lean ====
section
/-! DEFINITION. The eight conditional branches (spec/48_branch.md). -/

namespace Sys2Proof.Machine

/-- BPL: `Branch(P.N == 0)` (R181). -/
def execBpl (disp : Byte) (s : State) : Host.Outcome State Fault Refusal :=
  runBranch (.bpl disp) (!flag .n s.p) disp s

/-- BMI: `Branch(P.N == 1)` (R182). -/
def execBmi (disp : Byte) (s : State) : Host.Outcome State Fault Refusal :=
  runBranch (.bmi disp) (flag .n s.p) disp s

/-- BVC: `Branch(P.V == 0)` (R183). -/
def execBvc (disp : Byte) (s : State) : Host.Outcome State Fault Refusal :=
  runBranch (.bvc disp) (!flag .v s.p) disp s

/-- BVS: `Branch(P.V == 1)` (R184). -/
def execBvs (disp : Byte) (s : State) : Host.Outcome State Fault Refusal :=
  runBranch (.bvs disp) (flag .v s.p) disp s

/-- BCC: `Branch(P.C == 0)` (R185). -/
def execBcc (disp : Byte) (s : State) : Host.Outcome State Fault Refusal :=
  runBranch (.bcc disp) (!flag .c s.p) disp s

/-- BCS: `Branch(P.C == 1)` (R186). -/
def execBcs (disp : Byte) (s : State) : Host.Outcome State Fault Refusal :=
  runBranch (.bcs disp) (flag .c s.p) disp s

/-- BNE: `Branch(P.Z == 0)` (R187). -/
def execBne (disp : Byte) (s : State) : Host.Outcome State Fault Refusal :=
  runBranch (.bne disp) (!flag .z s.p) disp s

/-- BEQ: `Branch(P.Z == 1)` (R188). -/
def execBeq (disp : Byte) (s : State) : Host.Outcome State Fault Refusal :=
  runBranch (.beq disp) (flag .z s.p) disp s

end Sys2Proof.Machine
end

