-- ==== Sys2Proof/Machine/FlagSystem.lean ====
section
/-! DEFINITION. CLC SEC CLI SEI CLD SED CLV NOP BRK RTI and the illegal opcodes (spec/49_flag_system.md). -/

namespace Sys2Proof.Machine

/-- CLC: `P.C <- 0` and nothing else (R195). -/
def execClc (s : State) : Host.Outcome State Fault Refusal :=
  runImplied .clc (fun t => t.setP (setFlag .c false t.p)) s

/-- SEC: `P.C <- 1` and nothing else (R196). -/
def execSec (s : State) : Host.Outcome State Fault Refusal :=
  runImplied .sec (fun t => t.setP (setFlag .c true t.p)) s

/-- CLI: `P.I <- 0` and nothing else (R197). -/
def execCli (s : State) : Host.Outcome State Fault Refusal :=
  runImplied .cli (fun t => t.setP (setFlag .i false t.p)) s

/-- SEI: `P.I <- 1` and nothing else (R198). -/
def execSei (s : State) : Host.Outcome State Fault Refusal :=
  runImplied .sei (fun t => t.setP (setFlag .i true t.p)) s

/-- CLD: `P.D <- 0` and nothing else (R199). -/
def execCld (s : State) : Host.Outcome State Fault Refusal :=
  runImplied .cld (fun t => t.setP (setFlag .d false t.p)) s

/-- SED: `P.D <- 1` and nothing else (R200). -/
def execSed (s : State) : Host.Outcome State Fault Refusal :=
  runImplied .sed (fun t => t.setP (setFlag .d true t.p)) s

/-- CLV: `P.V <- 0` and nothing else (R201). -/
def execClv (s : State) : Host.Outcome State Fault Refusal :=
  runImplied .clv (fun t => t.setP (setFlag .v false t.p)) s

/-- NOP: empty (R202). -/
def execNop (s : State) : Host.Outcome State Fault Refusal :=
  runImplied .nop (fun t => t) s

/-- BRK: takes the exception through the IRQ/BRK vector; the return address is the opcode's address plus 2, the pushed copy
of `P` has B = 1; the byte after the opcode is not read (R203). -/
def execBrk (s : State) : Host.Outcome State Fault Refusal :=
  runImplied .brk (fun t => t.takeException irqVector (s.pc + 2) (pushedByInstr t.p)) s

/-- RTI: `P`, then `PC` low and high, from the stack (R204). -/
def execRti (s : State) : Host.Outcome State Fault Refusal :=
  runImplied .rti (fun t => t.returnFromException) s

/-- ILL, the handler of each illegal opcode byte (R206): under `nop1` it changes nothing; under `fault` the Step has no
successor and the model stops with the opcode and its address (30_encoding.md R58). -/
def execIll (opcode : Byte) (s : State) : Host.Outcome State Fault Refusal :=
  match s.cfg.illegalPolicy with
  | .nop1 => runImplied (.ill opcode) (fun t => t) s
  | .fault => .fault (.illegalOpcode opcode s.pc)

end Sys2Proof.Machine
end

