-- ==== Sys2Proof/Machine/IncDec.lean ====
section
/-! DEFINITION. INC DEC INX INY DEX DEY (spec/45_incdec.md). None touches C or V. -/

namespace Sys2Proof.Machine

/-- INC: one read, one write of `M + 1`; Z, N of the new value (R150). -/
def execInc (f : OperandForm) (s : State) : Host.Outcome State Fault Refusal :=
  runModify (.inc f) f (fun m => m + 1) (fun m p => setZN (m + 1) p) s

/-- DEC: one read, one write of `M - 1`; Z, N of the new value (R151). -/
def execDec (f : OperandForm) (s : State) : Host.Outcome State Fault Refusal :=
  runModify (.dec f) f (fun m => m - 1) (fun m p => setZN (m - 1) p) s

/-- INX: `X <- X + 1; SetZN` (R152). -/
def execInx (s : State) : Host.Outcome State Fault Refusal :=
  runImplied .inx (fun t => (t.setX (t.x + 1)).setP (setZN (t.x + 1) t.p)) s

/-- INY: `Y <- Y + 1; SetZN` (R153). -/
def execIny (s : State) : Host.Outcome State Fault Refusal :=
  runImplied .iny (fun t => (t.setY (t.y + 1)).setP (setZN (t.y + 1) t.p)) s

/-- DEX: `X <- X - 1; SetZN` (R154). -/
def execDex (s : State) : Host.Outcome State Fault Refusal :=
  runImplied .dex (fun t => (t.setX (t.x - 1)).setP (setZN (t.x - 1) t.p)) s

/-- DEY: `Y <- Y - 1; SetZN` (R155). -/
def execDey (s : State) : Host.Outcome State Fault Refusal :=
  runImplied .dey (fun t => (t.setY (t.y - 1)).setP (setZN (t.y - 1) t.p)) s

end Sys2Proof.Machine
end

