-- ==== Sys2Proof/Machine/JumpCall.lean ====
section
/-! DEFINITION. JMP JSR RTS (spec/47_jump_call.md). -/

namespace Sys2Proof.Machine

/-- JMP: `PC <- op.addr`; the handler makes no access (R170). -/
def execJmp (f : OperandForm) (s : State) : Host.Outcome State Fault Refusal :=
  .next (((atHandler f s).setPc (resolve f s).addr).returns (.jmp f) (resolve f s).crossed 0)

/-- JSR: pushes the advanced `PC` less 1, high byte first, then `PC <- op.addr` (R171). -/
def execJsr (target : Word) (s : State) : Host.Outcome State Fault Refusal :=
  let t := atHandler (.abs target) s
  .next (((t.pushWord (t.pc - 1)).setPc (resolve (.abs target) s).addr).returns (.jsr target) false 0)

/-- RTS: pops low then high, `PC <- {h, l} + 1` (R172). -/
def execRts (s : State) : Host.Outcome State Fault Refusal :=
  runImplied .rts (fun t => t.afterPopWord.setPc (t.popWord + 1)) s

end Sys2Proof.Machine
end

