-- ==== Sys2Proof/Machine/LoadStore.lean ====
section
/-! DEFINITION. LDA LDX LDY STA STX STY (spec/41_load_store.md). -/

namespace Sys2Proof.Machine

/-- LDA: `A <- M; SetZN(M)` (R100). -/
def execLda (f : OperandForm) (s : State) : Host.Outcome State Fault Refusal :=
  runRead (.lda f) f (fun m t => (t.setA m).setP (setZN m t.p)) s

/-- LDX: `X <- M; SetZN(M)` (R101). -/
def execLdx (f : OperandForm) (s : State) : Host.Outcome State Fault Refusal :=
  runRead (.ldx f) f (fun m t => (t.setX m).setP (setZN m t.p)) s

/-- LDY: `Y <- M; SetZN(M)` (R102). -/
def execLdy (f : OperandForm) (s : State) : Host.Outcome State Fault Refusal :=
  runRead (.ldy f) f (fun m t => (t.setY m).setP (setZN m t.p)) s

/-- STA: `MemWrite(op.addr, 1, A)`; no flag (R103). -/
def execSta (f : OperandForm) (s : State) : Host.Outcome State Fault Refusal := runStore (.sta f) f s.a s

/-- STX: `MemWrite(op.addr, 1, X)`; no flag (R104). -/
def execStx (f : OperandForm) (s : State) : Host.Outcome State Fault Refusal := runStore (.stx f) f s.x s

/-- STY: `MemWrite(op.addr, 1, Y)`; no flag (R105). -/
def execSty (f : OperandForm) (s : State) : Host.Outcome State Fault Refusal := runStore (.sty f) f s.y s

end Sys2Proof.Machine
end

