-- ==== Sys2Proof/Machine/Logical.lean ====
section
/-! DEFINITION. AND ORA EOR BIT (spec/43_logical.md). -/

namespace Sys2Proof.Machine

/-- AND: `A <- A & M; SetZN` (R125). -/
def execAnd (f : OperandForm) (s : State) : Host.Outcome State Fault Refusal :=
  runRead (.and f) f (fun m t => (t.setA (t.a &&& m)).setP (setZN (t.a &&& m) t.p)) s

/-- ORA: `A <- A | M; SetZN` (R126). -/
def execOra (f : OperandForm) (s : State) : Host.Outcome State Fault Refusal :=
  runRead (.ora f) f (fun m t => (t.setA (t.a ||| m)).setP (setZN (t.a ||| m) t.p)) s

/-- EOR: `A <- A ^ M; SetZN` (R127). -/
def execEor (f : OperandForm) (s : State) : Host.Outcome State Fault Refusal :=
  runRead (.eor f) f (fun m t => (t.setA (t.a ^^^ m)).setP (setZN (t.a ^^^ m) t.p)) s

/-- BIT: Z of `A & M`, N and V from bits 7 and 6 of `M`; `A` is not modified (R128). -/
def execBit (f : OperandForm) (s : State) : Host.Outcome State Fault Refusal :=
  runRead (.bit f) f (fun m t => t.setP (bitFlags t.a m t.p)) s

end Sys2Proof.Machine
end

