-- ==== Sys2Proof/Machine/ShiftRotate.lean ====
section
/-! DEFINITION. ASL LSR ROL ROR, on `A` or on a memory byte (spec/46_shift_rotate.md R160). -/

namespace Sys2Proof.Machine

/-- ASL: C from bit 7, bit 0 becomes 0 (R161). -/
def execAsl (f : OperandForm) (s : State) : Host.Outcome State Fault Refusal :=
  runModify (.asl f) f (aslResult) (fun v p => shiftFlags (v.getLsbD 7) (aslResult v) p) s

/-- LSR: C from bit 0, bit 7 becomes 0 (R162). -/
def execLsr (f : OperandForm) (s : State) : Host.Outcome State Fault Refusal :=
  runModify (.lsr f) f (lsrResult) (fun v p => shiftFlags (v.getLsbD 0) (lsrResult v) p) s

/-- ROL: C from bit 7, bit 0 becomes the old C (R163). -/
def execRol (f : OperandForm) (s : State) : Host.Outcome State Fault Refusal :=
  runModify (.rol f) f (rolResult (flag .c s.p)) (fun v p => shiftFlags (v.getLsbD 7) (rolResult (flag .c s.p) v) p) s

/-- ROR: C from bit 0, bit 7 becomes the old C (R164). -/
def execRor (f : OperandForm) (s : State) : Host.Outcome State Fault Refusal :=
  runModify (.ror f) f (rorResult (flag .c s.p)) (fun v p => shiftFlags (v.getLsbD 0) (rorResult (flag .c s.p) v) p) s

end Sys2Proof.Machine
end

