-- ==== Sys2Proof/Machine/Stack.lean ====
section
/-! DEFINITION. PHA PHP PLA PLP (spec/42_transfer_stack.md). -/

namespace Sys2Proof.Machine

/-- PHA: `Push(A)` (R116). -/
def execPha (s : State) : Host.Outcome State Fault Refusal :=
  runImplied .pha (fun t => t.push t.a) s

/-- PHP: `Push(P | 0x30)`; the register is not changed (R117). -/
def execPhp (s : State) : Host.Outcome State Fault Refusal :=
  runImplied .php (fun t => t.push (pushedByInstr t.p)) s

/-- PLA: `v <- Pop(); A <- v; SetZN(v)` (R118). -/
def execPla (s : State) : Host.Outcome State Fault Refusal :=
  runImplied .pla (fun t => (t.afterPop.setA t.popByte).setP (setZN t.popByte t.p)) s

/-- PLP: `v <- Pop(); PullP(v)` (R119, R120). -/
def execPlp (s : State) : Host.Outcome State Fault Refusal :=
  runImplied .plp (fun t => t.afterPop.setP (pullP t.cfg.plpBPolicy t.popByte t.p)) s

end Sys2Proof.Machine
end

