-- ==== Sys2Proof/Machine/Transfer.lean ====
section
/-! DEFINITION. TAX TAY TXA TYA TSX TXS (spec/42_transfer_stack.md). -/

namespace Sys2Proof.Machine

/-- TAX: `X <- A; SetZN(A)` (R110). -/
def execTax (s : State) : Host.Outcome State Fault Refusal :=
  runImplied .tax (fun t => (t.setX t.a).setP (setZN t.a t.p)) s

/-- TAY: `Y <- A; SetZN(A)` (R111). -/
def execTay (s : State) : Host.Outcome State Fault Refusal :=
  runImplied .tay (fun t => (t.setY t.a).setP (setZN t.a t.p)) s

/-- TXA: `A <- X; SetZN(X)` (R112). -/
def execTxa (s : State) : Host.Outcome State Fault Refusal :=
  runImplied .txa (fun t => (t.setA t.x).setP (setZN t.x t.p)) s

/-- TYA: `A <- Y; SetZN(Y)` (R113). -/
def execTya (s : State) : Host.Outcome State Fault Refusal :=
  runImplied .tya (fun t => (t.setA t.y).setP (setZN t.y t.p)) s

/-- TSX: `X <- SP; SetZN(SP)` (R114). -/
def execTsx (s : State) : Host.Outcome State Fault Refusal :=
  runImplied .tsx (fun t => (t.setX t.sp).setP (setZN t.sp t.p)) s

/-- TXS: `SP <- X`; the one transfer that writes no flag (R115). -/
def execTxs (s : State) : Host.Outcome State Fault Refusal :=
  runImplied .txs (fun t => t.setSp t.x) s

end Sys2Proof.Machine
end

