-- ==== Sys2Proof/Machine/Dispatch.lean ====
section
/-! DEFINITION. `Handler[info.mnemonic](op, opaddr)` (spec/40_step_and_addressing.md R76): one arm per instruction. -/

namespace Sys2Proof.Machine

def exec (i : Instr) (s : State) : Host.Outcome State Fault Refusal :=
  match i with
  | .lda f => Sys2Proof.Machine.execLda f s
  | .ldx f => Sys2Proof.Machine.execLdx f s
  | .ldy f => Sys2Proof.Machine.execLdy f s
  | .sta f => Sys2Proof.Machine.execSta f s
  | .stx f => Sys2Proof.Machine.execStx f s
  | .sty f => Sys2Proof.Machine.execSty f s
  | .tax => Sys2Proof.Machine.execTax s
  | .tay => Sys2Proof.Machine.execTay s
  | .txa => Sys2Proof.Machine.execTxa s
  | .tya => Sys2Proof.Machine.execTya s
  | .tsx => Sys2Proof.Machine.execTsx s
  | .txs => Sys2Proof.Machine.execTxs s
  | .pha => Sys2Proof.Machine.execPha s
  | .php => Sys2Proof.Machine.execPhp s
  | .pla => Sys2Proof.Machine.execPla s
  | .plp => Sys2Proof.Machine.execPlp s
  | .and f => Sys2Proof.Machine.execAnd f s
  | .ora f => Sys2Proof.Machine.execOra f s
  | .eor f => Sys2Proof.Machine.execEor f s
  | .bit f => Sys2Proof.Machine.execBit f s
  | .adc f => Sys2Proof.Machine.execAdc f s
  | .sbc f => Sys2Proof.Machine.execSbc f s
  | .cmp f => Sys2Proof.Machine.execCmp f s
  | .cpx f => Sys2Proof.Machine.execCpx f s
  | .cpy f => Sys2Proof.Machine.execCpy f s
  | .inc f => Sys2Proof.Machine.execInc f s
  | .dec f => Sys2Proof.Machine.execDec f s
  | .inx => Sys2Proof.Machine.execInx s
  | .iny => Sys2Proof.Machine.execIny s
  | .dex => Sys2Proof.Machine.execDex s
  | .dey => Sys2Proof.Machine.execDey s
  | .asl f => Sys2Proof.Machine.execAsl f s
  | .lsr f => Sys2Proof.Machine.execLsr f s
  | .rol f => Sys2Proof.Machine.execRol f s
  | .ror f => Sys2Proof.Machine.execRor f s
  | .jmp f => Sys2Proof.Machine.execJmp f s
  | .jsr target => Sys2Proof.Machine.execJsr target s
  | .rts => Sys2Proof.Machine.execRts s
  | .bpl disp => Sys2Proof.Machine.execBpl disp s
  | .bmi disp => Sys2Proof.Machine.execBmi disp s
  | .bvc disp => Sys2Proof.Machine.execBvc disp s
  | .bvs disp => Sys2Proof.Machine.execBvs disp s
  | .bcc disp => Sys2Proof.Machine.execBcc disp s
  | .bcs disp => Sys2Proof.Machine.execBcs disp s
  | .bne disp => Sys2Proof.Machine.execBne disp s
  | .beq disp => Sys2Proof.Machine.execBeq disp s
  | .clc => Sys2Proof.Machine.execClc s
  | .sec => Sys2Proof.Machine.execSec s
  | .cli => Sys2Proof.Machine.execCli s
  | .sei => Sys2Proof.Machine.execSei s
  | .cld => Sys2Proof.Machine.execCld s
  | .sed => Sys2Proof.Machine.execSed s
  | .clv => Sys2Proof.Machine.execClv s
  | .nop => Sys2Proof.Machine.execNop s
  | .brk => Sys2Proof.Machine.execBrk s
  | .rti => Sys2Proof.Machine.execRti s
  | .ill opcode => Sys2Proof.Machine.execIll opcode s

end Sys2Proof.Machine
end

