-- ==== Sys2Proof/Machine/Step.lean ====
section
/-! DEFINITION. `Step()` (spec/40_step_and_addressing.md R70): the interrupt check, then either an interrupt entry or one
whole instruction. -/

namespace Sys2Proof.Machine

/-- One Step. A launch state with bit 5 of `P` at 0 is refused (10_state.md R27, log entry 9). -/
def step (s : State) : Host.Outcome State Fault Refusal :=
  if s.launchable then
    match s.beginStep.pendingInterrupt with
    | some kind => .next (s.beginStep.interruptEntry kind)
    | none => exec s.beginStep.fetch s.beginStep.afterFetch
  else .refused .unusedBitClear

/-- `s` with an instruction word of the opcode table stored at `PC`, so that the next step fetches and runs exactly it: its
three bytes at `PC`, `PC + 1`, `PC + 2`, the capability answering as plain memory, no interrupt pending, bit 5 of `P` at 1
(log entry 14). -/
def State.withFetchWord (s : State) (nbits w : Nat) : State :=
  let put (m : Memory) (k : Nat) : Memory := m.set (s.pc + BitVec.ofNat 16 k) ((tableBytes nbits w).getD k 0)
  ((((s.setMem (put (put (put s.mem 0) 1) 2)).setReplies []).setNmi false).setIrq false).setP (setFlag .u true s.p)

end Sys2Proof.Machine
end

