-- ==== Sys2Proof/Machine/HostPort.lean ====
section
/-! DEFINITION. What the host may do between two Steps (spec/00_scope.md R9, 10_state.md R27, 60_exceptions.md R217,
70_reset_and_hazards.md R240): Reset, writes of the six registers, of the two latches and of memory, and the answers the
memory capability will give (20_memory.md R31). -/

namespace Sys2Proof.Machine

/-- `Reset()` (R240): the registers and latches at their reset values, `PC` from the reset vector, low byte first, through the
memory capability; no write, and no cycle count (R253). It does not depend on the registers before it. -/
def State.hostReset (s : State) : State :=
  let cleared : State :=
    { s with a := 0x00, x := 0x00, y := 0x00, sp := 0xFD, p := 0x20, nmiPending := false, irqPending := false, bus := [],
             stepCycles := none }
  (cleared.afterMemReadPair resetVector (nextAddr resetVector)).setPc
    (cleared.memReadPair resetVector (nextAddr resetVector))

/-- One act of the host between two Steps (R9). -/
inductive HostAction where
  | reset
  | writeA (v : Byte)
  | writeX (v : Byte)
  | writeY (v : Byte)
  | writeSp (v : Byte)
  | writeP (v : Byte)
  | writePc (v : Word)
  /-- sets or withdraws an NMI request (60_exceptions.md R217) -/
  | latchNmi (b : Bool)
  /-- sets or withdraws an IRQ request (60_exceptions.md R217) -/
  | latchIrq (b : Bool)
  /-- changes memory behind the capability (20_memory.md R45) -/
  | poke (addr : Word) (v : Byte)
  /-- fixes the capability's answers to the coming accesses (20_memory.md R31, log entry 2) -/
  | answer (rs : List BusReply)
  deriving DecidableEq, Repr

/-- The host's write of `P` (10_state.md R27): refused where it would clear bit 5 (decision D20). -/
def State.hostWriteP (s : State) (v : Byte) : Host.Outcome State Fault Refusal :=
  if flag .u v then .next (s.setP v) else .refused .unusedBitClear

/-- The effect of an act of the host. -/
def State.host (s : State) : HostAction → Host.Outcome State Fault Refusal
  | .reset => .next s.hostReset
  | .writeA v => .next (s.setA v)
  | .writeX v => .next (s.setX v)
  | .writeY v => .next (s.setY v)
  | .writeSp v => .next (s.setSp v)
  | .writeP v => s.hostWriteP v
  | .writePc v => .next (s.setPc v)
  | .latchNmi b => .next (s.setNmi b)
  | .latchIrq b => .next (s.setIrq b)
  | .poke a v => .next (s.setMem (s.mem.set a v))
  | .answer rs => .next (s.setReplies rs)

end Sys2Proof.Machine
end

