-- ==== Sys2Proof/Safety.lean ====
section
/-! DEFINITION. What counts as a legal state and a safe run, and the frames claims are stated in. -/

namespace Sys2Proof.Machine

/-- The invariant of the machine: memory in canonical form, and bit 5 of `P` at 1 (spec/10_state.md R16). -/
def State.Inv (s : State) : Prop := s.mem.wf = true ∧ flag .u s.p = true

/-- One event of a run: a Step, or an act of the host between two Steps (spec/00_scope.md R9). -/
inductive Event where
  | step
  | host (h : HostAction)
  deriving DecidableEq, Repr

/-- The effect of an event. -/
def State.event (s : State) : Event → Host.Outcome State Fault Refusal
  | .step => step s
  | .host h => s.host h

/-- `t` follows from `s` by a list of events, each with a next state. -/
def Run : State → List Event → State → Prop
  | s, [], t => s = t
  | s, e :: es, t => ∃ u, s.event e = .next u ∧ Run u es t

/-- A state a run from reset can reach, whatever the host does between Steps. -/
def Reachable (t : State) : Prop := ∃ es, Run State.reset es t

/-- Safety of a Step: it completes (spec/40_step_and_addressing.md R93). -/
def State.StepCompletes (s : State) : Prop := ∃ t, step s = .next t

/-- Every byte of memory reads as before. -/
def SameMemory (s t : State) : Prop := ∀ a, t.mem.get a = s.mem.get a

/-- Every byte of memory outside a list of addresses reads as before. -/
def SameMemoryOutside (l : List Word) (s t : State) : Prop := ∀ a, a ∉ l → t.mem.get a = s.mem.get a

/-- The latches and the parameters of the run are as before. -/
def SameControl (s t : State) : Prop :=
  t.nmiPending = s.nmiPending ∧ t.irqPending = s.irqPending ∧ t.cfg = s.cfg

/-- Every flag outside a list is as before. -/
def SameFlagsOutside (l : List Flag) (s t : State) : Prop := ∀ f, f ∉ l → flag f t.p = flag f s.p

/-- `SetZN(v)` (spec/10_state.md R20): Z iff `v` is 0, N iff bit 7 of `v` is 1. -/
def ZNFollow (v : Byte) (t : State) : Prop := flag .z t.p = decide (v = 0) ∧ flag .n t.p = decide (128 ≤ v.toNat)

/-- Memory answers as plain memory from here on, and is in canonical form (20_memory.md R31: "plain RAM"). -/
def State.Plain (s : State) : Prop := s.replies = [] ∧ s.mem.wf = true

/-- A recorded access made again, by a call of the capability (20_memory.md R31). -/
def State.access (s : State) : BusAccess → State
  | .read a _ => s.afterMemRead a
  | .write a v => s.memWrite a v

/-- The accesses of a list, made one after another (20_memory.md R43). -/
def State.accesses (s : State) (l : List BusAccess) : State := l.foldl State.access s

/-- The condition of a branch (48_branch.md R181 to R188); none for any other instruction. -/
def branchCondition (i : Instr) (s : State) : Option Bool :=
  match i with
  | .bpl _ => some (!flag .n s.p)
  | .bmi _ => some (flag .n s.p)
  | .bvc _ => some (!flag .v s.p)
  | .bvs _ => some (flag .v s.p)
  | .bcc _ => some (!flag .c s.p)
  | .bcs _ => some (flag .c s.p)
  | .bne _ => some (!flag .z s.p)
  | .beq _ => some (flag .z s.p)
  | _ => none

/-- `hx` (40_step_and_addressing.md R92): 0 but for a taken branch, 1 for one within the page of the instruction following it,
2 for one to another page (48_branch.md R180). -/
def handlerCycles (i : Instr) (s : State) : Nat :=
  if branchCondition i s = some true then
    if hi (s.pc + 2 + (resolve i.form s).disp) = hi (s.pc + 2) then 1 else 2
  else 0

/-- The table of base cycles by class of instructions and mode (spec/70_reset_and_hazards.md R251, decision D3): the instructions of a
class, the modes of a column, and the figure. Written from that table, apart from the opcode table. -/
def cycleFigures : List (List Mnemonic × List Mode × Nat) :=
  let read : List Mnemonic := [.lda, .ldx, .ldy, .adc, .sbc, .and, .ora, .eor, .cmp, .cpx, .cpy, .bit]
  let store : List Mnemonic := [.sta, .stx, .sty]
  let modify : List Mnemonic := [.asl, .lsr, .rol, .ror, .inc, .dec]
  let registerOrFlag : List Mnemonic :=
    [.tax, .tay, .txa, .tya, .tsx, .txs, .inx, .iny, .dex, .dey, .clc, .sec, .cli, .sei, .cld, .sed, .clv, .nop]
  [(read, [.imm], 2), (read, [.zp], 3), (read, [.zpx, .zpy], 4), (read, [.abs], 4), (read, [.abx, .aby], 4),
   (read, [.izx], 6), (read, [.izy], 5)] ++
  [(store, [.zp], 3), (store, [.zpx, .zpy], 4), (store, [.abs], 4), (store, [.abx, .aby], 5), (store, [.izx], 6),
   (store, [.izy], 6)] ++
  [(modify, [.acc], 2), (modify, [.zp], 5), (modify, [.zpx], 6), (modify, [.abs], 6), (modify, [.abx], 7)] ++
  [(registerOrFlag, [.imp], 2), ([.pha, .php], [.imp], 3), ([.pla, .plp], [.imp], 4), ([.jmp], [.abs], 3),
   ([.jmp], [.ind], 5), ([.jsr], [.abs], 6), ([.rts, .rti], [.imp], 6), ([.brk], [.imp], 7)] ++
  [([.bpl, .bmi, .bvc, .bvs, .bcc, .bcs, .bne, .beq], [.rel], 2), ([.ill], [.imp], 1)]

/-- `n` pops: the bytes in the order they are pulled, and the state after them (20_memory.md R40). -/
def popMany : Nat → State → List Byte × State
  | 0, s => ([], s)
  | n + 1, s => (s.popByte :: (popMany n s.afterPop).1, (popMany n s.afterPop).2)

/-- The bytes of a list pushed in order (20_memory.md R39). -/
def pushMany (vs : List Byte) (s : State) : State := vs.foldl (fun t v => t.push v) s

/-- Two states that differ at most in bit 4 of `P` and in `PLP_B_POLICY`. -/
def LikeUpToBreak (s t : State) : Prop :=
  t = { s with p := t.p, cfg := t.cfg } ∧ t.cfg.illegalPolicy = s.cfg.illegalPolicy ∧
    ∀ f, f ≠ .b → flag f t.p = flag f s.p

/-- The same outcome, up to bit 4 of `P` and `PLP_B_POLICY` of a next state. -/
def OutcomesLikeUpToBreak : Host.Outcome State Fault Refusal → Host.Outcome State Fault Refusal → Prop
  | .next s, .next t => LikeUpToBreak s t
  | .fault r, .fault q => r = q
  | .refused r, .refused q => r = q
  | _, _ => False

end Sys2Proof.Machine
end

