-- ==== Sys2Proof/Certificates/Slice0/Obligations.lean ====
section
/-! DEFINITION. The statements for the provers. In them `s` is the state an instruction starts in (`s.pc` is the address of its
opcode, `opaddr`, and its bytes have been fetched) and `t` the next state. `t.bus` is `s.bus` with the handler's own accesses
after it (log entry 6). A statement whose docstring names a decision D<n> rests on the spec's own choice
(spec/92_eei_decisions.md), not on its source. -/

open Sys2Proof Sys2Proof.Machine

/-! ## Encoding -/

/-- Every well-formed instruction, with every operand at every value its encoding admits, is decoded from its encoding, and
the bytes after it are left. The opcode bytes are decision D1's, the lengths D2's and D4's. -/
def Obligations.DecodeInvertsEncode : Prop :=
  ∀ (i : Instr) (rest : List Byte), i.wellFormed = true → decode (encode i ++ rest) = .ok (i, rest)

/-- What the decoder reads is well formed, and its encoding is the bytes it was read from: no two byte sequences stand for
one instruction. Decisions D1, D2, D4. -/
def Obligations.EncodeInvertsDecode : Prop :=
  ∀ (bytes : List Byte) (i : Instr) (rest : List Byte), decode bytes = .ok (i, rest) →
    i.wellFormed = true ∧ encode i ++ rest = bytes

/-- Decoding fails only where bytes are missing: no opcode byte and no operand byte is refused (R58, R59). -/
def Obligations.OnlyMissingBytesAreRejected : Prop :=
  ∀ bytes : List Byte, (∃ e, decode bytes = .error e) ↔
    bytes.length < (match bytes with
      | [] => 1
      | op :: _ => (opcodeInfo op).mode.length)

/-- Instruction bytes of the spec's assembler table (30_encoding.md section 5), of its worked example S6 and of its programs P1,
P2, P3, P5 decode to the instructions they stand for. The opcode bytes are decision D1's but for `A9`, `69`, `85`; that `02` is
an illegal opcode of one byte is R58, decision D4 (log entry 11). -/
def Obligations.SpecBytesDecode : Prop :=
  ∀ q ∈ [(([0xA9, 0xD0] : List Byte), Instr.lda (.imm 0xD0)),
         ([0x69, 0x50], .adc (.imm 0x50)), ([0x85, 0x10], .sta (.zp 0x10)), ([0xB6, 0x10], .ldx (.zpy 0x10)),
         ([0xBD, 0xFF, 0x00], .lda (.abx 0x00FF)), ([0xA1, 0x20], .lda (.izx 0x20)), ([0xB1, 0x20], .lda (.izy 0x20)),
         ([0x6C, 0xFF, 0x01], .jmp (.ind 0x01FF)), ([0x20, 0x20, 0xC0], .jsr 0xC020), ([0x0A], .asl .acc),
         ([0xD0, 0xFA], .bne 0xFA), ([0x9A], .txs), ([0x48], .pha),
         ([0xE6, 0x40], .inc (.zp 0x40)), ([0x58], .cli), ([0x02], .ill 0x02)],
  decode q.1 = .ok (q.2, [])

/-- The opcode table satisfies the invariants of R62: all 256 entries bound, 105 of them `ILL`, the modes REL, ACC and IND on
their opcodes only, the length that of the mode, the extra-cycle flag 0 or 1 and 1 only on read entries of the modes ABX, ABY,
IZY; and it has the spec's cycle figures: the flag is 1 on exactly the 23 opcodes of R56, and the base cycles of each entry are
those R251 gives its class of instructions and its mode. The bytes are decisions D1, D4, the lengths D2, D4, the figures D3. -/
def Obligations.OpcodeTableIsValid : Prop :=
  illegalOpcodes.length = 105 ∧ illegalOpcodes.Nodup ∧
  ∀ op : Byte, let e := opcodeInfo op
    (e.mnemonic = .ill ↔ op ∈ illegalOpcodes) ∧
    (e.mode = .rel ↔ e.mnemonic ∈ [.bpl, .bmi, .bvc, .bvs, .bcc, .bcs, .bne, .beq]) ∧
    (e.mode = .rel ↔ op ∈ [(0x10 : Byte), 0x30, 0x50, 0x70, 0x90, 0xB0, 0xD0, 0xF0]) ∧
    (e.mode = .acc ↔ op ∈ [(0x0A : Byte), 0x2A, 0x4A, 0x6A]) ∧
    (e.mode = .ind ↔ op = 0x6C) ∧
    (e.extraCycle = 0 ∨ e.extraCycle = 1 ∧ e.mode ∈ [.abx, .aby, .izy] ∧
      e.mnemonic ∈ [.lda, .ldx, .ldy, .and, .ora, .eor, .adc, .cmp, .sbc]) ∧
    (e.extraCycle = 1 ↔ op ∈ [(0x1D : Byte), 0x19, 0x11, 0x3D, 0x39, 0x31, 0x5D, 0x59, 0x51, 0x7D, 0x79, 0x71,
      0xBD, 0xB9, 0xB1, 0xDD, 0xD9, 0xD1, 0xFD, 0xF9, 0xF1, 0xBE, 0xBC]) ∧
    (∃ figure ∈ cycleFigures, e.mnemonic ∈ figure.1 ∧ e.mode ∈ figure.2.1 ∧ e.baseCycles = figure.2.2) ∧
    e.length = e.mode.length

/-! ## Memory and the stack -/

/-- What the memory capability does with one access (R31; its answers are log entry 2's). Where the next answer is a device's
byte `v`, a read of any address returns `v` and a write changes no cell. Where the next answer is `memory`, or there is none
left, a read returns the cell and a write stores its byte in that cell and no other. Each access uses up the answer, is recorded
(log entry 6), and changes nothing else (R43). So on plain memory a read after a write returns the byte written at its address
and the earlier byte everywhere else (R45). -/
def Obligations.LoadSeesTheLatestStore : Prop :=
  (∀ (s : State) (rs : List BusReply) (v : Byte), s.replies = .device v :: rs → ∀ (a : Word) (w : Byte),
    s.memRead a = v ∧
    s.afterMemRead a = (s.setReplies rs).setBus (s.bus ++ [.read a v]) ∧
    s.memWrite a w = (s.setReplies rs).setBus (s.bus ++ [.write a w])) ∧
  (∀ (s : State) (rs : List BusReply), (s.replies = .memory :: rs ∨ s.replies = [] ∧ rs = []) → ∀ (a : Word) (w : Byte),
    s.memRead a = s.mem.get a ∧
    s.afterMemRead a = (s.setReplies rs).setBus (s.bus ++ [.read a (s.mem.get a)]) ∧
    s.memWrite a w = ((s.setMem (s.memWrite a w).mem).setReplies rs).setBus (s.bus ++ [.write a w]) ∧
    SameMemoryOutside [a] s (s.memWrite a w) ∧
    (s.mem.wf = true → (s.memWrite a w).mem.get a = w ∧ (s.memWrite a w).mem.wf = true)) ∧
  ∀ (s : State) (a b : Word) (v : Byte), s.Plain →
    (s.memWrite a v).memRead b = (if b = a then v else s.memRead b) ∧
    (s.memWrite a v).bus = s.bus ++ [.write a v] ∧ (s.memWrite a v).Plain

/-- `Push(v)` writes `v` at `0x0100 | SP`, with `SP` before the decrement, and decrements `SP` modulo 256; nothing else (R39). The
write is one access of the capability. -/
def Obligations.PushWritesThenDecrements : Prop :=
  ∀ (s : State) (v : Byte),
    (s.push v).bus = s.bus ++ [.write (0x0100 ||| s.sp.setWidth 16) v] ∧
    (s.push v).sp.toNat = (s.sp.toNat + 255) % 256 ∧
    (s.Plain → (s.push v).mem.get (0x0100 ||| s.sp.setWidth 16) = v) ∧
    SameMemoryOutside [0x0100 ||| s.sp.setWidth 16] s (s.push v) ∧
    (s.push v).a = s.a ∧ (s.push v).x = s.x ∧ (s.push v).y = s.y ∧ (s.push v).p = s.p ∧ (s.push v).pc = s.pc ∧
    SameControl s (s.push v) ∧
    s.push v = (s.memWrite (0x0100 ||| s.sp.setWidth 16) v).setSp (s.push v).sp

/-- `Pop()` increments `SP` modulo 256 and then reads at `0x0100 | SP`; `n` pushes then `n` pops restore `SP` for every `n`, and
on plain memory up to 256 bytes come back, last pushed first (R40). -/
def Obligations.PopsUndoPushes : Prop :=
  (∀ s : State,
    s.popByte = s.memRead (0x0100 ||| (s.sp + 1).setWidth 16) ∧
    s.afterPop.sp.toNat = (s.sp.toNat + 1) % 256 ∧
    s.afterPop.bus = s.bus ++ [.read (0x0100 ||| (s.sp + 1).setWidth 16) s.popByte] ∧ s.afterPop.mem = s.mem ∧
    s.afterPop = (s.afterMemRead (0x0100 ||| (s.sp + 1).setWidth 16)).setSp s.afterPop.sp) ∧
  (∀ (s : State) (vs : List Byte), (popMany vs.length (pushMany vs s)).2.sp = s.sp) ∧
  (∀ (s : State) (vs : List Byte), s.Plain → vs.length ≤ 256 →
    (popMany vs.length (pushMany vs s)).1 = vs.reverse)

/-! ## The flags -/

/-- `SetZN(v)` sets Z iff `v` is 0 and N iff bit 7 of `v` is 1, clears them otherwise, and changes no other bit (R20);
`SetFlag(f, cond)` sets the bit of `f` if the condition holds, else clears it, and changes no other bit (R21). -/
def Obligations.SetZnAndSetFlagWriteTheirBitsOnly : Prop :=
  (∀ v p : Byte, flag .z (setZN v p) = decide (v.toNat = 0) ∧ flag .n (setZN v p) = decide (128 ≤ v.toNat) ∧
    ∀ f, f ≠ .z → f ≠ .n → flag f (setZN v p) = flag f p) ∧
  (∀ (f : Flag) (cond : Bool) (p : Byte), flag f (setFlag f cond p) = cond ∧
    ∀ g, g ≠ f → flag g (setFlag f cond p) = flag g p)

/-! ## Addressing modes -/

/-- Zero-page addresses are the operand byte, and indexed ones wrap within page 0; none is ever a page crossing, and the
resolver makes no access but the operand byte's (R81, R82, R83; the number of accesses is decision D13; that one is made by the
fetch, log entry 7). -/
def Obligations.ZeroPageModesStayInPageZero : Prop :=
  ∀ (s : State) (b : Byte),
    ((resolve (.zp b) s).addr.toNat = b.toNat ∧ (resolve (.zp b) s).crossed = false ∧ (resolve (.zp b) s).disp = 0 ∧
      afterResolve (.zp b) s = s) ∧
    ((resolve (.zpx b) s).addr.toNat = (b.toNat + s.x.toNat) % 256 ∧ (resolve (.zpx b) s).crossed = false ∧
      (resolve (.zpx b) s).disp = 0 ∧ afterResolve (.zpx b) s = s) ∧
    ((resolve (.zpy b) s).addr.toNat = (b.toNat + s.y.toNat) % 256 ∧ (resolve (.zpy b) s).crossed = false ∧
      (resolve (.zpy b) s).disp = 0 ∧ afterResolve (.zpy b) s = s)

/-- An absolute address is the operand word (R85), never a crossing. Absolute indexed addresses are the base plus the unsigned
index modulo 65536, and a crossing is a changed high byte (R86, R87, R91); that the wrap at the top of the address space is one
too is decision D14. In all three modes the resolver makes no access but the operand bytes' (decision D13; those are made by the
fetch, log entry 7). -/
def Obligations.AbsoluteIndexedAddresses : Prop :=
  ∀ (s : State) (w : Word),
    ((resolve (.abs w) s).addr = w ∧ (resolve (.abs w) s).crossed = false ∧ (resolve (.abs w) s).disp = 0 ∧
      afterResolve (.abs w) s = s) ∧
    ((resolve (.abx w) s).addr.toNat = (w.toNat + s.x.toNat) % 65536 ∧
      ((resolve (.abx w) s).crossed = true ↔ 256 ≤ w.toNat % 256 + s.x.toNat) ∧ (resolve (.abx w) s).disp = 0 ∧
      afterResolve (.abx w) s = s) ∧
    ((resolve (.aby w) s).addr.toNat = (w.toNat + s.y.toNat) % 65536 ∧
      ((resolve (.aby w) s).crossed = true ↔ 256 ≤ w.toNat % 256 + s.y.toNat) ∧ (resolve (.aby w) s).disp = 0 ∧
      afterResolve (.aby w) s = s)

/-- Mode IND is `ReadBugged` of its pointer: the target's low byte is read at the pointer and then its high byte at the next
address, except that a pointer at the end of a page has it read at the start of the same page (R35). Never a crossing. On plain
memory those are the cells' contents. -/
def Obligations.IndirectPointerWrapsWithinItsPage : Prop :=
  ∀ (s : State) (w : Word),
    let q : Word := if w.toNat % 256 = 255 then BitVec.ofNat 16 (w.toNat - 255) else w + 1
    (resolve (.ind w) s).addr.toNat = ((s.afterMemRead w).memRead q).toNat * 256 + (s.memRead w).toNat ∧
    afterResolve (.ind w) s = (s.afterMemRead w).afterMemRead q ∧
    (resolve (.ind w) s).crossed = false ∧ (resolve (.ind w) s).disp = 0 ∧
    (s.Plain → (resolve (.ind w) s).addr.toNat = (s.mem.get q).toNat * 256 + (s.mem.get w).toNat ∧
      afterResolve (.ind w) s = s.setBus (s.bus ++ [.read w (s.mem.get w), .read q (s.mem.get q)]))

/-- Mode `(zp,X)`: pointer and its high byte both wrap within page 0, low byte read first (R89, R36). Never a crossing. On plain
memory those are the cells' contents. -/
def Obligations.IndexedIndirectPointerStaysInPageZero : Prop :=
  ∀ (s : State) (b : Byte),
    let p : Word := BitVec.ofNat 16 ((b.toNat + s.x.toNat) % 256)
    let q : Word := BitVec.ofNat 16 ((b.toNat + s.x.toNat + 1) % 256)
    (resolve (.izx b) s).addr.toNat = ((s.afterMemRead p).memRead q).toNat * 256 + (s.memRead p).toNat ∧
    afterResolve (.izx b) s = (s.afterMemRead p).afterMemRead q ∧
    (resolve (.izx b) s).crossed = false ∧ (resolve (.izx b) s).disp = 0 ∧
    (s.Plain → (resolve (.izx b) s).addr.toNat = (s.mem.get q).toNat * 256 + (s.mem.get p).toNat ∧
      afterResolve (.izx b) s = s.setBus (s.bus ++ [.read p (s.mem.get p), .read q (s.mem.get q)]))

/-- Mode `(zp),Y`: the word at the pointer, low byte read first, its high byte from page 0 (decision D12), plus `Y` modulo 65536; a
crossing is a changed high byte (R90, R91; at the top of the address space decision D14). On plain memory those are the cells'
contents. -/
def Obligations.IndirectIndexedAddsYToThePointedWord : Prop :=
  ∀ (s : State) (b : Byte),
    let p : Word := BitVec.ofNat 16 b.toNat
    let q : Word := BitVec.ofNat 16 ((b.toNat + 1) % 256)
    (resolve (.izy b) s).addr.toNat =
      (((s.afterMemRead p).memRead q).toNat * 256 + (s.memRead p).toNat + s.y.toNat) % 65536 ∧
    ((resolve (.izy b) s).crossed = true ↔ 256 ≤ (s.memRead p).toNat + s.y.toNat) ∧
    afterResolve (.izy b) s = (s.afterMemRead p).afterMemRead q ∧ (resolve (.izy b) s).disp = 0 ∧
    (s.Plain → (resolve (.izy b) s).addr.toNat =
        ((s.mem.get q).toNat * 256 + (s.mem.get p).toNat + s.y.toNat) % 65536 ∧
      ((resolve (.izy b) s).crossed = true ↔ 256 ≤ (s.mem.get p).toNat + s.y.toNat) ∧
      afterResolve (.izy b) s = s.setBus (s.bus ++ [.read p (s.mem.get p), .read q (s.mem.get q)]))

/-! ## Load and store -/

/-- LDA, LDX, LDY copy the operand byte to their register and set Z and N from it; nothing else but `PC` changes, memory does
not, and the operand's accesses are the only ones. The flags and the names LDX, LDY are decisions D16, D17, the number of
accesses D13. -/
def Obligations.LoadsCopyTheOperand : Prop :=
  ∀ (f : OperandForm) (s : State),
    (∃ t, exec (.lda f) s = .next t ∧ t.a = operandByte f s ∧ t.x = s.x ∧ t.y = s.y ∧ t.sp = s.sp ∧
      ZNFollow (operandByte f s) t ∧ SameFlagsOutside [.z, .n] s t ∧ t.pc = s.pc + BitVec.ofNat 16 f.length ∧
      t.bus = (afterOperandByte f s).bus ∧ SameControl s t ∧ SameMemory s t) ∧
    (∃ t, exec (.ldx f) s = .next t ∧ t.x = operandByte f s ∧ t.a = s.a ∧ t.y = s.y ∧ t.sp = s.sp ∧
      ZNFollow (operandByte f s) t ∧ SameFlagsOutside [.z, .n] s t ∧ t.pc = s.pc + BitVec.ofNat 16 f.length ∧
      t.bus = (afterOperandByte f s).bus ∧ SameControl s t ∧ SameMemory s t) ∧
    (∃ t, exec (.ldy f) s = .next t ∧ t.y = operandByte f s ∧ t.a = s.a ∧ t.x = s.x ∧ t.sp = s.sp ∧
      ZNFollow (operandByte f s) t ∧ SameFlagsOutside [.z, .n] s t ∧ t.pc = s.pc + BitVec.ofNat 16 f.length ∧
      t.bus = (afterOperandByte f s).bus ∧ SameControl s t ∧ SameMemory s t)

/-- The operand byte a handler works on: the literal in mode IMM, `A` in mode ACC, else one read at the effective address, made
after the resolver's reads and recorded, and no other access (R76, R77, R80, R160, R44; the number of accesses is decision D13);
on plain memory that read returns the cell. Where the literal is read is log entry 7. -/
def Obligations.OperandByteIsTheCellAtTheAddress : Prop :=
  ∀ (f : OperandForm) (s : State),
    operandByte f s = (match f with
      | .imm b => b
      | .acc => s.a
      | _ => (afterResolve f s).memRead (resolve f s).addr) ∧
    (afterOperandByte f s).bus = (match f with
      | .imm _ | .acc => s.bus
      | _ => (afterResolve f s).bus ++ [.read (resolve f s).addr (operandByte f s)]) ∧
    (s.Plain → operandByte f s = (match f with
      | .imm b => b
      | .acc => s.a
      | _ => s.mem.get (resolve f s).addr))

/-- STA, STX, STY write their register at the effective address, as their one access after the resolver's, and change no
register, flag or other byte. STX and STY are decision D17's. -/
def Obligations.StoresWriteOneByte : Prop :=
  ∀ (f : OperandForm) (s : State), ∀ q ∈ [(Instr.sta f, s.a), (.stx f, s.x), (.sty f, s.y)],
    ∃ t, exec q.1 s = .next t ∧
      t.bus = (afterResolve f s).bus ++ [.write (resolve f s).addr q.2] ∧
      (s.Plain → t.mem.get (resolve f s).addr = q.2) ∧ SameMemoryOutside [(resolve f s).addr] s t ∧
      t.a = s.a ∧ t.x = s.x ∧ t.y = s.y ∧ t.sp = s.sp ∧ t.p = s.p ∧ t.pc = s.pc + BitVec.ofNat 16 f.length ∧
      SameControl s t

/-! ## Transfers and stack instructions -/

/-- TAX, TAY, TXA, TYA, TSX copy one register to another and set Z and N from the byte moved; TXS copies `X` to `SP` and writes
no flag. No other register, flag or byte changes, and the handler makes no access (R44, decision D13). Decisions D16, D17. -/
def Obligations.TransfersCopyOneRegister : Prop :=
  ∀ s : State,
    (∃ t, exec .tax s = .next t ∧ t.x = s.a ∧ t.a = s.a ∧ t.y = s.y ∧ t.sp = s.sp ∧ ZNFollow s.a t ∧
      SameFlagsOutside [.z, .n] s t ∧ t.pc = s.pc + 1 ∧ t.bus = s.bus ∧ SameControl s t ∧ SameMemory s t) ∧
    (∃ t, exec .tay s = .next t ∧ t.y = s.a ∧ t.a = s.a ∧ t.x = s.x ∧ t.sp = s.sp ∧ ZNFollow s.a t ∧
      SameFlagsOutside [.z, .n] s t ∧ t.pc = s.pc + 1 ∧ t.bus = s.bus ∧ SameControl s t ∧ SameMemory s t) ∧
    (∃ t, exec .txa s = .next t ∧ t.a = s.x ∧ t.x = s.x ∧ t.y = s.y ∧ t.sp = s.sp ∧ ZNFollow s.x t ∧
      SameFlagsOutside [.z, .n] s t ∧ t.pc = s.pc + 1 ∧ t.bus = s.bus ∧ SameControl s t ∧ SameMemory s t) ∧
    (∃ t, exec .tya s = .next t ∧ t.a = s.y ∧ t.x = s.x ∧ t.y = s.y ∧ t.sp = s.sp ∧ ZNFollow s.y t ∧
      SameFlagsOutside [.z, .n] s t ∧ t.pc = s.pc + 1 ∧ t.bus = s.bus ∧ SameControl s t ∧ SameMemory s t) ∧
    (∃ t, exec .tsx s = .next t ∧ t.x = s.sp ∧ t.a = s.a ∧ t.y = s.y ∧ t.sp = s.sp ∧ ZNFollow s.sp t ∧
      SameFlagsOutside [.z, .n] s t ∧ t.pc = s.pc + 1 ∧ t.bus = s.bus ∧ SameControl s t ∧ SameMemory s t) ∧
    (∃ t, exec .txs s = .next t ∧ t.sp = s.x ∧ t.a = s.a ∧ t.x = s.x ∧ t.y = s.y ∧ t.p = s.p ∧
      t.pc = s.pc + 1 ∧ t.bus = s.bus ∧ SameControl s t ∧ SameMemory s t)

/-- PHA pushes `A`; PHP pushes a copy of `P` with B and U at 1 and leaves the register as it is (R117). Each writes the one byte at
`0x0100 | SP`. PHA is decision D17's. -/
def Obligations.PhaAndPhpPushOneByte : Prop :=
  ∀ s : State, ∀ q ∈ [(Instr.pha, s.a), (.php, s.p ||| 0x30)],
    ∃ t, exec q.1 s = .next t ∧ t.bus = s.bus ++ [.write (stackAddr s.sp) q.2] ∧
      (s.Plain → t.mem.get (stackAddr s.sp) = q.2) ∧ SameMemoryOutside [stackAddr s.sp] s t ∧
      t.sp = s.sp - 1 ∧ t.a = s.a ∧ t.x = s.x ∧ t.y = s.y ∧ t.p = s.p ∧ t.pc = s.pc + 1 ∧ SameControl s t

/-- PLA pulls `A` and sets Z and N from it; PLP pulls the flags C, Z, I, D, V, N, keeps U at 1, and takes bit 4 by the policy.
Decisions D5, D6, D16, D17. -/
def Obligations.PlaAndPlpPullOneByte : Prop :=
  ∀ s : State,
    (∃ t, exec .pla s = .next t ∧ t.a = s.popByte ∧ ZNFollow s.popByte t ∧ SameFlagsOutside [.z, .n] s t ∧
      t.sp = s.sp + 1 ∧ t.bus = s.bus ++ [.read (stackAddr (s.sp + 1)) s.popByte] ∧ t.x = s.x ∧ t.y = s.y ∧
      t.pc = s.pc + 1 ∧ SameControl s t ∧ SameMemory s t) ∧
    (∃ t, exec .plp s = .next t ∧
      (∀ f ∈ [Flag.c, .z, .i, .d, .v, .n], flag f t.p = flag f s.popByte) ∧
      flag .u t.p = (flag .u s.p || s.cfg.plpBPolicy == .verbatim) ∧
      flag .b t.p = (if s.cfg.plpBPolicy = .ignore then flag .b s.p else flag .b s.popByte) ∧
      t.sp = s.sp + 1 ∧ t.bus = s.bus ++ [.read (stackAddr (s.sp + 1)) s.popByte] ∧ t.a = s.a ∧ t.x = s.x ∧ t.y = s.y ∧
      t.pc = s.pc + 1 ∧ SameControl s t ∧ SameMemory s t)

/-! ## Logical -/

/-- AND, ORA, EOR: the bitwise result in `A`, Z and N from it, no effect on the other flags (R125, R126, R127); the
operand's accesses are the only ones (R44, decision D13). -/
def Obligations.LogicalInstructionsCombineBitwise : Prop :=
  ∀ (f : OperandForm) (s : State),
    ∀ q ∈ [(Instr.and f, s.a &&& operandByte f s), (.ora f, s.a ||| operandByte f s), (.eor f, s.a ^^^ operandByte f s)],
    ∃ t, exec q.1 s = .next t ∧ t.a = q.2 ∧ ZNFollow q.2 t ∧ SameFlagsOutside [.z, .n] s t ∧
      t.x = s.x ∧ t.y = s.y ∧ t.sp = s.sp ∧ t.pc = s.pc + BitVec.ofNat 16 f.length ∧
      t.bus = (afterOperandByte f s).bus ∧ SameControl s t ∧ SameMemory s t

/-- BIT: Z from `A & M`, N and V from bits 7 and 6 of `M` itself; `A` and memory are not modified (R128), and
the operand's accesses are the only ones (R44, decision D13). -/
def Obligations.BitTestsWithoutWriting : Prop :=
  ∀ (f : OperandForm) (s : State),
    ∃ t, exec (.bit f) s = .next t ∧ flag .z t.p = decide (s.a &&& operandByte f s = 0) ∧
      flag .n t.p = decide (128 ≤ (operandByte f s).toNat) ∧
      flag .v t.p = decide (64 ≤ (operandByte f s).toNat % 128) ∧ SameFlagsOutside [.z, .n, .v] s t ∧
      t.a = s.a ∧ t.x = s.x ∧ t.y = s.y ∧ t.sp = s.sp ∧ t.pc = s.pc + BitVec.ofNat 16 f.length ∧
      t.bus = (afterOperandByte f s).bus ∧ SameControl s t ∧ SameMemory s t

/-! ## Arithmetic -/

/-- ADC: `A' = (A + M + C) mod 256`, `C'` iff the sum exceeds 255, `V'` iff the signs of `A` and `M` are equal and the result's
differs, which is iff the signed sum leaves -128..127, Z and N from `A'`; I, D, B, U unchanged (R135, R140); the
operand's accesses are the only ones (R44, decision D13). -/
def Obligations.AdcAddsWithCarry : Prop :=
  ∀ (f : OperandForm) (s : State),
    let m := operandByte f s
    let c := (flag .c s.p).toNat
    ∃ t, exec (.adc f) s = .next t ∧ t.a.toNat = (s.a.toNat + m.toNat + c) % 256 ∧
      flag .c t.p = decide (255 < s.a.toNat + m.toNat + c) ∧
      flag .v t.p = (s.a.getLsbD 7 == m.getLsbD 7 && t.a.getLsbD 7 != s.a.getLsbD 7) ∧
      (flag .v t.p = true ↔ ¬(-128 ≤ s.a.toInt + m.toInt + c ∧ s.a.toInt + m.toInt + c ≤ 127)) ∧
      ZNFollow t.a t ∧ SameFlagsOutside [.c, .v, .z, .n] s t ∧
      t.x = s.x ∧ t.y = s.y ∧ t.sp = s.sp ∧ t.pc = s.pc + BitVec.ofNat 16 f.length ∧
      t.bus = (afterOperandByte f s).bus ∧ SameControl s t ∧ SameMemory s t

/-- SBC, with `borrow = 1 - C`: `A' = (A - M - borrow) mod 256`, `C'` iff no borrow out, `V'` iff the signed difference leaves
-128..127, Z and N from `A'`; the rest unchanged (R136, R140); the operand's accesses are the only ones (R44,
decision D13). -/
def Obligations.SbcSubtractsWithBorrow : Prop :=
  ∀ (f : OperandForm) (s : State),
    let m := operandByte f s
    let borrow : Int := if flag .c s.p then 0 else 1
    ∃ t, exec (.sbc f) s = .next t ∧ (t.a.toNat : Int) = ((s.a.toNat : Int) - m.toNat - borrow) % 256 ∧
      flag .c t.p = decide (0 ≤ (s.a.toNat : Int) - m.toNat - borrow) ∧
      (flag .v t.p = true ↔ ¬(-128 ≤ s.a.toInt - m.toInt - borrow ∧ s.a.toInt - m.toInt - borrow ≤ 127)) ∧
      ZNFollow t.a t ∧ SameFlagsOutside [.c, .v, .z, .n] s t ∧
      t.x = s.x ∧ t.y = s.y ∧ t.sp = s.sp ∧ t.pc = s.pc + BitVec.ofNat 16 f.length ∧
      t.bus = (afterOperandByte f s).bus ∧ SameControl s t ∧ SameMemory s t

/-- The D flag is inert: ADC and SBC give the same registers, flags and memory whatever D holds, but for D itself (R18, R141;
decision D19). -/
def Obligations.DecimalFlagIsInert : Prop :=
  ∀ (f : OperandForm) (s : State) (d : Bool), ∀ i ∈ [Instr.adc f, .sbc f],
    ∃ t u, exec i s = .next t ∧ exec i (s.setP (setFlag .d d s.p)) = .next u ∧ u = t.setP u.p ∧
      flag .d t.p = flag .d s.p ∧ flag .d u.p = d ∧ ∀ g, g ≠ .d → flag g u.p = flag g t.p

/-- CMP, CPX, CPY: C iff the register is at least `M` unsigned, Z iff equal, N from bit 7 of the wrapped difference; the register, V
and the rest unchanged (R137, R138, R139); the operand's accesses are the only ones (R44, decision D13). -/
def Obligations.ComparesSetCarryZeroNegative : Prop :=
  ∀ (f : OperandForm) (s : State), ∀ q ∈ [(Instr.cmp f, s.a), (.cpx f, s.x), (.cpy f, s.y)],
    ∃ t, exec q.1 s = .next t ∧ flag .c t.p = decide ((operandByte f s).toNat ≤ q.2.toNat) ∧
      flag .z t.p = decide (q.2 = operandByte f s) ∧
      flag .n t.p = decide (128 ≤ (q.2.toNat + 256 - (operandByte f s).toNat) % 256) ∧
      SameFlagsOutside [.c, .z, .n] s t ∧ t.a = s.a ∧ t.x = s.x ∧ t.y = s.y ∧ t.sp = s.sp ∧
      t.pc = s.pc + BitVec.ofNat 16 f.length ∧ t.bus = (afterOperandByte f s).bus ∧ SameControl s t ∧ SameMemory s t

/-! ## Increment and decrement -/

/-- INC and DEC: one read, then one write of the byte plus or minus 1 modulo 256 at the same address, Z and N from the new
value, C and V untouched, no register changed (R150, R151). -/
def Obligations.MemoryIncrementAndDecrement : Prop :=
  ∀ (f : OperandForm) (s : State), ∀ q ∈ [(Instr.inc f, 1), (.dec f, 255)], q.1.wellFormed = true →
    let r := BitVec.ofNat 8 ((operandByte f s).toNat + q.2)
    ∃ t, exec q.1 s = .next t ∧
      t.bus = (afterResolve f s).bus ++
        [.read (resolve f s).addr (operandByte f s), .write (resolve f s).addr r] ∧
      (s.Plain → t.mem.get (resolve f s).addr = r) ∧ SameMemoryOutside [(resolve f s).addr] s t ∧
      ZNFollow r t ∧ SameFlagsOutside [.z, .n] s t ∧ t.a = s.a ∧ t.x = s.x ∧ t.y = s.y ∧ t.sp = s.sp ∧
      t.pc = s.pc + BitVec.ofNat 16 f.length ∧ SameControl s t

/-- INX, INY, DEX, DEY: the register plus or minus 1 modulo 256, Z and N from the new value, nothing else but `PC`, and the
handler makes no access (R44, decision D13). The mnemonics are decision D17's. -/
def Obligations.RegisterIncrementAndDecrement : Prop :=
  ∀ s : State,
    (∀ q ∈ [(Instr.inx, 1), (.dex, 255)],
      ∃ t, exec q.1 s = .next t ∧ t.x.toNat = (s.x.toNat + q.2) % 256 ∧ t.y = s.y ∧ ZNFollow t.x t ∧
        SameFlagsOutside [.z, .n] s t ∧ t.a = s.a ∧ t.sp = s.sp ∧ t.pc = s.pc + 1 ∧ t.bus = s.bus ∧
        SameControl s t ∧ SameMemory s t) ∧
    (∀ q ∈ [(Instr.iny, 1), (.dey, 255)],
      ∃ t, exec q.1 s = .next t ∧ t.y.toNat = (s.y.toNat + q.2) % 256 ∧ t.x = s.x ∧ ZNFollow t.y t ∧
        SameFlagsOutside [.z, .n] s t ∧ t.a = s.a ∧ t.sp = s.sp ∧ t.pc = s.pc + 1 ∧ t.bus = s.bus ∧
        SameControl s t ∧ SameMemory s t)

/-! ## Shifts and rotates -/

/-- ASL, LSR, ROL, ROR: the result as a number, the carry out, Z and N of the result; on `A` in place in mode ACC, else one read and
one write of the byte at the effective address with `A` untouched (R160 to R164). -/
def Obligations.ShiftsMoveOneBit : Prop :=
  ∀ (f : OperandForm) (s : State),
    let v := (operandByte f s).toNat
    let c := (flag .c s.p).toNat
    ∀ q ∈ [(Instr.asl f, 2 * v % 256, decide (128 ≤ v)), (.lsr f, v / 2, decide (v % 2 = 1)),
           (.rol f, 2 * v % 256 + c, decide (128 ≤ v)), (.ror f, v / 2 + 128 * c, decide (v % 2 = 1))],
    q.1.wellFormed = true →
    let r := BitVec.ofNat 8 q.2.1
    ∃ t, exec q.1 s = .next t ∧ flag .c t.p = q.2.2 ∧ ZNFollow r t ∧ SameFlagsOutside [.c, .z, .n] s t ∧
      (if f = .acc then operandByte f s = s.a ∧ t.a = r ∧ t.bus = s.bus ∧ SameMemory s t
       else t.a = s.a ∧ (s.Plain → t.mem.get (resolve f s).addr = r) ∧
        SameMemoryOutside [(resolve f s).addr] s t ∧
        t.bus = (afterResolve f s).bus ++
          [.read (resolve f s).addr (operandByte f s), .write (resolve f s).addr r]) ∧
      t.x = s.x ∧ t.y = s.y ∧ t.sp = s.sp ∧ t.pc = s.pc + BitVec.ofNat 16 f.length ∧ SameControl s t

/-- ROL is a 9-bit rotation of carry and operand: nine of them restore both (R163); so do nine ROR, and one ROR undoes one
ROL. -/
def Obligations.NineRotationsRestore : Prop :=
  ∀ s : State,
    let rol (s : State) : Option State := match exec (.rol .acc) s with
      | .next t => some t
      | _ => none
    let ror (s : State) : Option State := match exec (.ror .acc) s with
      | .next t => some t
      | _ => none
    (∃ t, (((((((((rol s).bind rol).bind rol).bind rol).bind rol).bind rol).bind rol).bind rol).bind rol) = some t ∧
      t.a = s.a ∧ flag .c t.p = flag .c s.p) ∧
    (∃ t, (((((((((ror s).bind ror).bind ror).bind ror).bind ror).bind ror).bind ror).bind ror).bind ror) = some t ∧
      t.a = s.a ∧ flag .c t.p = flag .c s.p) ∧
    (∃ t, (rol s).bind ror = some t ∧ t.a = s.a ∧ flag .c t.p = flag .c s.p)

/-! ## Jump, call, return, branch -/

/-- JMP: `PC` is the resolved target and nothing else changes; the handler makes no access (R170). -/
def Obligations.JmpSetsThePc : Prop :=
  ∀ (f : OperandForm) (s : State),
    ∃ t, exec (.jmp f) s = .next t ∧ t.pc = (resolve f s).addr ∧ t.bus = (afterResolve f s).bus ∧
      t.a = s.a ∧ t.x = s.x ∧ t.y = s.y ∧ t.sp = s.sp ∧ t.p = s.p ∧ SameControl s t ∧ SameMemory s t

/-- JSR: pushes the address of its own last byte, high byte first, and jumps; no flag changes (R171). -/
def Obligations.JsrPushesTheReturnAddress : Prop :=
  ∀ (s : State) (target : Word), let ret := s.pc + 2
    ∃ t, exec (.jsr target) s = .next t ∧ t.pc = target ∧ t.sp = s.sp - 2 ∧
      t.bus = s.bus ++ [.write (stackAddr s.sp) (hi ret), .write (stackAddr (s.sp - 1)) (lo ret)] ∧
      (s.Plain → t.mem.get (stackAddr s.sp) = hi ret ∧ t.mem.get (stackAddr (s.sp - 1)) = lo ret) ∧
      SameMemoryOutside [stackAddr s.sp, stackAddr (s.sp - 1)] s t ∧
      t.a = s.a ∧ t.x = s.x ∧ t.y = s.y ∧ t.p = s.p ∧ SameControl s t

/-- RTS: pops low then high, and `PC` is that word plus 1 modulo 65536; no flag changes (R172). -/
def Obligations.RtsPopsAndAddsOne : Prop :=
  ∀ s : State,
    ∃ t, exec .rts s = .next t ∧ t.sp = s.sp + 2 ∧
      t.pc.toNat = (s.afterPop.popByte.toNat * 256 + s.popByte.toNat + 1) % 65536 ∧
      t.bus = s.bus ++ [.read (stackAddr (s.sp + 1)) s.popByte, .read (stackAddr (s.sp + 2)) s.afterPop.popByte] ∧
      t.a = s.a ∧ t.x = s.x ∧ t.y = s.y ∧ t.p = s.p ∧ SameControl s t ∧ SameMemory s t

/-- On plain memory JSR and then RTS come back to the instruction after the JSR, with `SP` as it was (R171, R172). -/
def Obligations.RtsReturnsToTheInstructionAfterJsr : Prop :=
  ∀ (s : State) (target : Word), s.Plain →
    ∃ t u, exec (.jsr target) s = .next t ∧ exec .rts t = .next u ∧ u.pc = s.pc + 3 ∧ u.sp = s.sp ∧ u.p = s.p

/-- The eight branches: taken exactly when the named flag has the named value, to the advanced `PC` plus the signed displacement; 2
cycles if not taken, 3 within the page of the following instruction, 4 to another page; nothing else changes (R180 to R188). -/
def Obligations.BranchesTestOneFlag : Prop :=
  ∀ (s : State) (d : Byte),
    ∀ q ∈ [(Instr.bpl d, !flag .n s.p), (.bmi d, flag .n s.p), (.bvc d, !flag .v s.p), (.bvs d, flag .v s.p),
           (.bcc d, !flag .c s.p), (.bcs d, flag .c s.p), (.bne d, !flag .z s.p), (.beq d, flag .z s.p)],
    let following : Nat := (s.pc.toNat + 2) % 65536
    let target : Int := ((following : Int) + d.toInt) % 65536
    ∃ t, exec q.1 s = .next t ∧ (t.pc.toNat : Int) = (if q.2 then target else (following : Int)) ∧
      t.stepCycles = some (if q.2 then (if target / 256 = (following : Int) / 256 then 3 else 4) else 2) ∧
      t.bus = s.bus ∧ t.a = s.a ∧ t.x = s.x ∧ t.y = s.y ∧ t.sp = s.sp ∧ t.p = s.p ∧ SameControl s t ∧ SameMemory s t

/-! ## Flag and system instructions -/

/-- CLC, SEC, CLI, SEI, CLD, SED, CLV set or clear exactly one named bit; no other state changes but `PC` (R195 to R201). -/
def Obligations.FlagInstructionsWriteOneBit : Prop :=
  ∀ s : State,
    ∀ q ∈ [(Instr.clc, Flag.c, false), (.sec, .c, true), (.cli, .i, false), (.sei, .i, true), (.cld, .d, false),
           (.sed, .d, true), (.clv, .v, false)],
    ∃ t, exec q.1 s = .next t ∧ flag q.2.1 t.p = q.2.2 ∧ SameFlagsOutside [q.2.1] s t ∧ t.bus = s.bus ∧
      t.a = s.a ∧ t.x = s.x ∧ t.y = s.y ∧ t.sp = s.sp ∧ t.pc = s.pc + 1 ∧ SameControl s t ∧ SameMemory s t

/-- NOP leaves every register and flag unchanged except `PC`, which goes up by 1, and takes 2 cycles (R202). -/
def Obligations.NopOnlyAdvances : Prop :=
  ∀ s : State, exec .nop s = .next ((s.setPc (s.pc + 1)).setCycles (some 2))

/-- BRK: pushes `opaddr + 2` high then low and a copy of `P` with B and U at 1, sets I in the register and no other flag, and
loads `PC` from `0xFFFE`, low byte read first, through the capability whatever it answers (R203, R216); 7 cycles. `u` is the
state after the three pushes' writes. On plain memory the bytes pushed and the vector are the cells'. The return address and the
untouched register bit B are decisions D7, D8, the order of accesses D13, the answers log entry 2's. -/
def Obligations.BrkTakesTheTrap : Prop :=
  ∀ s : State, let ret := s.pc + 2
    let u := ((s.memWrite (stackAddr s.sp) (hi ret)).memWrite (stackAddr (s.sp - 1)) (lo ret)).memWrite
      (stackAddr (s.sp - 2)) (s.p ||| 0x30)
    ∃ t, exec .brk s = .next t ∧ t.sp = s.sp - 3 ∧ flag .i t.p = true ∧ SameFlagsOutside [.i] s t ∧
      t.pc = join ((u.afterMemRead 0xFFFE).memRead 0xFFFF) (u.memRead 0xFFFE) ∧
      t.bus = s.bus ++ [.write (stackAddr s.sp) (hi ret), .write (stackAddr (s.sp - 1)) (lo ret),
        .write (stackAddr (s.sp - 2)) (s.p ||| 0x30), .read 0xFFFE (u.memRead 0xFFFE),
        .read 0xFFFF ((u.afterMemRead 0xFFFE).memRead 0xFFFF)] ∧
      t.mem = u.mem ∧ t.replies = s.replies.drop 5 ∧
      (s.Plain → t.pc = join (s.mem.get 0xFFFF) (s.mem.get 0xFFFE) ∧
        t.bus = s.bus ++ [.write (stackAddr s.sp) (hi ret), .write (stackAddr (s.sp - 1)) (lo ret),
          .write (stackAddr (s.sp - 2)) (s.p ||| 0x30), .read 0xFFFE (s.mem.get 0xFFFE), .read 0xFFFF (s.mem.get 0xFFFF)] ∧
        t.mem.get (stackAddr s.sp) = hi ret ∧ t.mem.get (stackAddr (s.sp - 1)) = lo ret ∧
        t.mem.get (stackAddr (s.sp - 2)) = s.p ||| 0x30) ∧
      SameMemoryOutside [stackAddr s.sp, stackAddr (s.sp - 1), stackAddr (s.sp - 2)] s t ∧
      t.a = s.a ∧ t.x = s.x ∧ t.y = s.y ∧ SameControl s t ∧ t.stepCycles = some 7

/-- RTI: pulls `P` and then `PC`, low then high, with nothing added; I is what was pulled, and bits 4 and 5 follow PLP's policy.
Decisions D5, D6. -/
def Obligations.RtiRestoresStatusAndPc : Prop :=
  ∀ s : State,
    ∃ t, exec .rti s = .next t ∧ t.sp = s.sp + 3 ∧
      (∀ f ∈ [Flag.c, .z, .i, .d, .v, .n], flag f t.p = flag f s.popByte) ∧
      flag .u t.p = (flag .u s.p || s.cfg.plpBPolicy == .verbatim) ∧
      flag .b t.p = (if s.cfg.plpBPolicy = .ignore then flag .b s.p else flag .b s.popByte) ∧
      t.pc = join s.afterPop.afterPop.popByte s.afterPop.popByte ∧
      t.bus = s.bus ++ [.read (stackAddr (s.sp + 1)) s.popByte, .read (stackAddr (s.sp + 2)) s.afterPop.popByte,
        .read (stackAddr (s.sp + 3)) s.afterPop.afterPop.popByte] ∧
      t.a = s.a ∧ t.x = s.x ∧ t.y = s.y ∧ SameControl s t ∧ SameMemory s t

/-- An illegal opcode: under `nop1` only `PC` changes, by 1, and the Step returns 1; under `fault` the model stops with
`IllegalOpcode(opcode, opaddr)` (R206). -/
def Obligations.IllegalOpcodesFollowThePolicy : Prop :=
  ∀ (s : State) (op : Byte), op ∈ illegalOpcodes →
    (s.cfg.illegalPolicy = .nop1 → exec (.ill op) s = .next ((s.setPc (s.pc + 1)).setCycles (some 1))) ∧
    (s.cfg.illegalPolicy = .fault → exec (.ill op) s = .fault (.illegalOpcode op s.pc))

/-! ## Exceptions -/

/-- The interrupt check precedes the fetch: NMI whatever I holds, else IRQ while I is clear; otherwise the Step fetches and runs an
instruction (R218). -/
def Obligations.InterruptCheckPrecedesTheFetch : Prop :=
  ∀ s : State, s.launchable = true →
    (s.nmiPending = true → step s = .next ((s.setBus []).interruptEntry .nmi)) ∧
    (s.nmiPending = false → s.irqPending = true → flag .i s.p = false →
      step s = .next ((s.setBus []).interruptEntry .irq)) ∧
    (s.nmiPending = false → (s.irqPending = false ∨ flag .i s.p = true) →
      step s = exec (s.setBus []).fetch (s.setBus []).afterFetch)

/-- An interrupt entry pushes `PC` high then low with nothing added and a copy of `P` with B at 0 and U at 1, sets I and no
other flag, clears the served latch and not the other, loads `PC` from the vector, low byte read first, through the capability
whatever it answers (R216, R219), and returns 7. `u` is the state after the three pushes' writes. On plain memory the bytes
pushed and the vector are the cells'. Decisions D9, D11, D13; the answers are log entry 2's. -/
def Obligations.InterruptEntrySavesAndVectors : Prop :=
  ∀ (s : State) (k : InterruptKind),
    let t := s.interruptEntry k
    let v : Word := match k with
      | .nmi => 0xFFFA
      | .irq => 0xFFFE
    let copy : Byte := (s.p &&& 0xEF) ||| 0x20
    let u := ((s.memWrite (stackAddr s.sp) (hi s.pc)).memWrite (stackAddr (s.sp - 1)) (lo s.pc)).memWrite
      (stackAddr (s.sp - 2)) copy
    t.sp = s.sp - 3 ∧ flag .i t.p = true ∧ SameFlagsOutside [.i] s t ∧ t.a = s.a ∧ t.x = s.x ∧ t.y = s.y ∧
    t.cfg = s.cfg ∧ t.stepCycles = some 7 ∧
    t.nmiPending = (match k with
      | .nmi => false
      | .irq => s.nmiPending) ∧
    t.irqPending = (match k with
      | .nmi => s.irqPending
      | .irq => false) ∧
    t.pc = join ((u.afterMemRead v).memRead (v + 1)) (u.memRead v) ∧
    t.bus = s.bus ++ [.write (stackAddr s.sp) (hi s.pc), .write (stackAddr (s.sp - 1)) (lo s.pc),
      .write (stackAddr (s.sp - 2)) copy, .read v (u.memRead v), .read (v + 1) ((u.afterMemRead v).memRead (v + 1))] ∧
    t.mem = u.mem ∧ t.replies = s.replies.drop 5 ∧
    SameMemoryOutside [stackAddr s.sp, stackAddr (s.sp - 1), stackAddr (s.sp - 2)] s t ∧
    (s.Plain → t.pc = join (s.mem.get (v + 1)) (s.mem.get v) ∧
      t.mem.get (stackAddr s.sp) = hi s.pc ∧ t.mem.get (stackAddr (s.sp - 1)) = lo s.pc ∧
      t.mem.get (stackAddr (s.sp - 2)) = copy ∧
      t.bus = s.bus ++ [.write (stackAddr s.sp) (hi s.pc), .write (stackAddr (s.sp - 1)) (lo s.pc),
        .write (stackAddr (s.sp - 2)) copy, .read v (s.mem.get v), .read (v + 1) (s.mem.get (v + 1))])

/-- On plain memory an RTI right after an interrupt entry resumes exactly the interrupted stream: `PC`, `SP`, `A`, `X`, `Y` and
every flag but B as before, and B too under `ignore` (decisions D5, D9). -/
def Obligations.RtiResumesTheInterruptedStream : Prop :=
  ∀ (s : State) (k : InterruptKind), s.Plain → flag .u s.p = true →
    ∃ t, exec .rti (s.interruptEntry k) = .next t ∧ t.pc = s.pc ∧ t.sp = s.sp ∧ t.a = s.a ∧ t.x = s.x ∧ t.y = s.y ∧
      SameFlagsOutside [.b] s t ∧ (s.cfg.plpBPolicy = .ignore → t.p = s.p)

/-- On plain memory an RTI right after a BRK resumes two bytes after the BRK's opcode, with every flag but B as before, and B too
under `ignore` (decisions D5, D7, D8). -/
def Obligations.RtiResumesTwoBytesAfterBrk : Prop :=
  ∀ s : State, s.Plain → flag .u s.p = true →
    ∃ t u, exec .brk s = .next t ∧ exec .rti t = .next u ∧ u.pc = s.pc + 2 ∧ u.sp = s.sp ∧
      SameFlagsOutside [.b] s u ∧ (s.cfg.plpBPolicy = .ignore → u.p = s.p)

/-- I takes effect at the very next Step: after CLI a latched IRQ is entered before any further instruction, after SEI it is not
(R246, an inference of the spec from R218). -/
def Obligations.InterruptDisableActsAtOnce : Prop :=
  ∀ s : State, s.nmiPending = false → s.irqPending = true → flag .u s.p = true →
    (∃ t, exec .cli s = .next t ∧ step t = .next ((t.setBus []).interruptEntry .irq)) ∧
    (∃ t, exec .sei s = .next t ∧ step t = exec (t.setBus []).fetch (t.setBus []).afterFetch)

/-! ## The Step -/

/-- A Step runs the decoded instruction: where the bytes that reads at `PC`, `PC + 1`, `PC + 2` return decode to `i` and no
interrupt is taken, the Step is `exec i` on the state after the reads of the instruction's own bytes, for every list of answers
(R70, R71, R72, R75, R76); on plain memory the bytes are the cells', and that state differs in the record of those reads only.
That every operand byte, the literal of mode IMM among them, is read before `exec` is the model's reading, log entry 7
(DEDUCED): the spec gives those reads to the resolver and the handler (R74, R80), in the same order. The launch state is
decision D20's, the latches D11's, the order of accesses D13's, the answers log entry 2's. -/
def Obligations.StepRunsTheDecodedInstruction : Prop :=
  (∀ (s : State) (i : Instr) (rest : List Byte), s.launchable = true → s.pendingInterrupt = none →
    decode [s.memRead s.pc, (s.afterMemRead s.pc).memRead (s.pc + 1),
      ((s.afterMemRead s.pc).afterMemRead (s.pc + 1)).memRead (s.pc + 2)] = .ok (i, rest) →
    step s = exec i ((List.range i.form.length).foldl (fun u k => u.afterMemRead (s.pc + BitVec.ofNat 16 k)) (s.setBus []))) ∧
  ∀ (s : State) (i : Instr) (rest : List Byte), s.launchable = true → s.pendingInterrupt = none → s.Plain →
    decode [s.mem.get s.pc, s.mem.get (s.pc + 1), s.mem.get (s.pc + 2)] = .ok (i, rest) →
    step s = exec i (s.setBus ((List.range i.form.length).map fun k =>
      .read (s.pc + BitVec.ofNat 16 k) (s.mem.get (s.pc + BitVec.ofNat 16 k))))

/-- Every instruction of the 56, in every form and state, answers a next state, and so does an illegal opcode under `nop1`: no
memory access, address or operand stops one (R31, R215). -/
def Obligations.EveryInstructionCompletes : Prop :=
  ∀ (i : Instr) (s : State), (∀ op, i = .ill op → s.cfg.illegalPolicy = .nop1) → ∃ t, exec i s = .next t

/-- A Step always completes and returns a count under `nop1`: it is total on the launch states the spec gives a meaning (R93), which
are those with bit 5 of `P` at 1 (decision D20); the next state is one of them, because PLP and RTI keep the bit at 1 (R16,
decision D6, log entry 11), and has the same parameters (R24), so the run goes on. -/
def Obligations.StepAlwaysCompletes : Prop :=
  ∀ s : State, flag .u s.p = true → s.cfg.illegalPolicy = .nop1 →
    ∃ t c, step s = .next t ∧ t.stepCycles = some c ∧ flag .u t.p = true ∧ t.cfg = s.cfg

/-- A Step stops only where the spec says so: at an illegal opcode under `fault`, with that opcode and its address; and it is
refused exactly in a launch state with bit 5 of `P` at 0 (R58, R206; decisions D4, D20). -/
def Obligations.StepStopsOnlyAtIllegalOpcodes : Prop :=
  ∀ s : State,
    (∀ r, step s = .fault r ↔ s.launchable = true ∧ s.pendingInterrupt = none ∧ s.cfg.illegalPolicy = .fault ∧
      s.memRead s.pc ∈ illegalOpcodes ∧ r = .illegalOpcode (s.memRead s.pc) s.pc) ∧
    (∀ r, step s = .refused r ↔ s.launchable = false ∧ r = .unusedBitClear)

/-- The cycle total is base plus the extra cycle of a crossing plus the handler's own, which is not 0 for a taken branch only
(R92). -/
def Obligations.CycleTotalFollowsTheTable : Prop :=
  ∀ (i : Instr) (s t : State), i.wellFormed = true → exec i s = .next t →
    ∃ op, opcodeOf i = some op ∧ ∃ c, t.stepCycles = some c ∧
      c.toNat = (opcodeInfo op).baseCycles + (if (resolve i.form s).crossed then (opcodeInfo op).extraCycle else 0) +
        handlerCycles i s

/-- The returned count lies in 1..7, and no Step reads the count of the Step before it (R252). -/
def Obligations.CycleCountLiesInOneToSeven : Prop :=
  ∀ (s t : State) (c : Option Byte), step s = .next t →
    step (s.setCycles c) = .next t ∧ ∃ n : Byte, t.stepCycles = some n ∧ 1 ≤ n.toNat ∧ n.toNat ≤ 7

/-! ## Invariants and whole-machine rules -/

/-- The listed instructions write no flag (R19). -/
def Obligations.NoIncidentalFlagChanges : Prop :=
  ∀ (i : Instr) (s t : State),
    (∃ f d w op, i ∈ [Instr.sta f, .stx f, .sty f, .txs, .pha, .php, .jmp f, .jsr w, .rts, .bpl d, .bmi d, .bvc d, .bvs d,
      .bcc d, .bcs d, .bne d, .beq d, .nop, .ill op]) →
    exec i s = .next t → t.p = s.p

/-- The parameters of a run are fixed for the whole run: no event of a run changes them (R24). -/
def Obligations.ConfigurationIsFixed : Prop :=
  ∀ (es : List Event) (s t : State), Run s es t → t.cfg = s.cfg

/-- A Step clears a latch only when it serves it, and sets none (decision D11): an instruction leaves both as they are. -/
def Obligations.StepClearsOnlyTheServedLatch : Prop :=
  ∀ s t : State, step s = .next t →
    t.nmiPending = (s.nmiPending && s.pendingInterrupt != some .nmi) ∧
    t.irqPending = (s.irqPending && s.pendingInterrupt != some .irq)

/-- Under `ignore` no Step changes bit 4 of `P` (R17; decisions D5, D8, D9). -/
def Obligations.BreakBitIsNeverWrittenUnderIgnore : Prop :=
  ∀ s t : State, s.cfg.plpBPolicy = .ignore → step s = .next t → flag .b t.p = flag .b s.p

/-- Nothing depends on bit 4 of `P` or on `PLP_B_POLICY`: two states that differ in them only step to the same outcome, next states
again differing in them only (R17, R120: inferences of the spec). -/
def Obligations.BreakBitAndPolicyAreUnobservable : Prop :=
  ∀ s t : State, LikeUpToBreak s t → OutcomesLikeUpToBreak (step s) (step t)

/-- The state after reset meets the invariant, with every field at its value: `A`, `X`, `Y`, `P`, `SP` and the latches at the
spec's reset values (R26; the latches are decision D11), `PC` the word that the memory of the model reads at the reset vector
(R26, R240; that nothing is listed and an unlisted byte is 0x00, so that the word is 0x0000, is log entries 3, 4). The
parameters are log entry 5's choice, the empty list of answers log entry 2's, the recorded reads of the vector and the absent
cycle count (R240, R253) are held as log entry 6 says. -/
def Obligations.ResetStateMeetsTheInvariant : Prop :=
  State.reset.Inv ∧ State.reset.a = 0x00 ∧ State.reset.x = 0x00 ∧ State.reset.y = 0x00 ∧ State.reset.p = 0x20 ∧
  State.reset.sp = 0xFD ∧ State.reset.nmiPending = false ∧ State.reset.irqPending = false ∧ State.reset.mem = [] ∧
  State.reset.pc = join (Memory.get [] 0xFFFD) (Memory.get [] 0xFFFC) ∧ State.reset.pc = 0x0000 ∧
  State.reset.cfg = Config.default ∧ State.reset.replies = [] ∧
  State.reset.bus = [.read 0xFFFC (Memory.get [] 0xFFFC), .read 0xFFFD (Memory.get [] 0xFFFD)] ∧
  State.reset.stepCycles = none

/-- `Reset()` from any state: `A = X = Y = 0`, `P = 0x20`, `SP = 0xFD`, both latches clear, `PC` the little-endian word that two
reads of `0xFFFC` and then `0xFFFD` return, whatever the capability answers, no write, memory untouched, no count (R26, R240,
R216, R253; the latches are decision D11, the answers log entry 2's). On plain memory the two bytes are the cells'. -/
def Obligations.HostResetInstallsTheResetValues : Prop :=
  ∀ s : State, ∃ t, s.host .reset = .next t ∧ t.a = 0 ∧ t.x = 0 ∧ t.y = 0 ∧ t.p = 0x20 ∧ t.sp = 0xFD ∧
    t.nmiPending = false ∧ t.irqPending = false ∧ t.mem = s.mem ∧ t.cfg = s.cfg ∧ t.stepCycles = none ∧
    t.pc.toNat = ((s.afterMemRead 0xFFFC).memRead 0xFFFD).toNat * 256 + (s.memRead 0xFFFC).toNat ∧
    t.bus = [.read 0xFFFC (s.memRead 0xFFFC), .read 0xFFFD ((s.afterMemRead 0xFFFC).memRead 0xFFFD)] ∧
    t.replies = s.replies.drop 2 ∧
    (s.Plain → t.pc.toNat = (s.mem.get 0xFFFD).toNat * 256 + (s.mem.get 0xFFFC).toNat ∧
      t.bus = [.read 0xFFFC (s.mem.get 0xFFFC), .read 0xFFFD (s.mem.get 0xFFFD)])

/-- Every Step keeps the invariant: memory in canonical form and bit 5 of `P` at 1, from every state that meets it and under
either value of each policy (R16, decision D6; the canonical form is the model's, log entry 3). And from every state a Step reaches
memory by the accesses it records and by nothing else: making those accesses again, in their order, gives its memory and its
record, and uses up one answer of the capability for each (R43, R44; the number and order of accesses is decision D13, the
answers and the record log entries 2, 6). So plain memory stays plain. -/
def Obligations.StepKeepsTheInvariant : Prop :=
  ∀ s t : State, step s = .next t →
    (s.Inv → t.Inv) ∧
    ((s.setBus []).accesses t.bus).mem = t.mem ∧ ((s.setBus []).accesses t.bus).bus = t.bus ∧
    t.replies = s.replies.drop t.bus.length ∧ (s.Plain → t.Plain)

/-- The invariant, memory in canonical form and bit 5 of `P` at 1, is kept by every act of the host that is not refused, from
every state that meets it, and holds in every state that a run of Steps and acts of the host reaches from `State.reset`. Bit 5:
R16, R27, decisions D6, D20. The canonical form of memory is the model's, log entry 3; the start `State.reset` rests on log
entries 3, 4, 5; the acts of the host are log entry 8's (R9, R217, R240). -/
def Obligations.EveryReachableStateMeetsTheInvariant : Prop :=
  (∀ (s t : State) (h : HostAction), s.Inv → s.host h = .next t → t.Inv) ∧ ∀ t, Reachable t → t.Inv
end

