-- ==== Sys2Proof/Laws/Flags.lean ====
section
/-! SUPPORT. What each flag of a computed status is, and the halves of a 16-bit value. -/

namespace Sys2Proof

@[simp] theorem hi_join (h l : Byte) : hi (join h l) = h := by
  ext i hi'
  simp only [hi, join, BitVec.getElem_setWidth, BitVec.getLsbD_ushiftRight, BitVec.getLsbD_or,
    BitVec.getLsbD_shiftLeft, BitVec.getLsbD_setWidth]
  simp [show 8 + i < 16 by omega, show i < 16 by omega, BitVec.getLsbD_eq_getElem hi']

@[simp] theorem lo_join (h l : Byte) : lo (join h l) = l := by
  ext i hi'
  simp [lo, join]

@[simp] theorem join_hi_lo (v : Word) : join (hi v) (lo v) = v := by
  ext i hi'
  simp only [join, hi, lo, BitVec.getElem_or, BitVec.getElem_shiftLeft, BitVec.getElem_setWidth,
    BitVec.getLsbD_setWidth, BitVec.getLsbD_ushiftRight]
  by_cases h : i < 8
  · simp [h, hi']
  · have h8 : 8 + (i - 8) = i := by omega
    have hl : i - 8 < 8 := by omega
    simp [h, hi', h8, hl]

/-- A word is determined by its halves. -/
theorem word_ext {v w : Word} (h : hi v = hi w) (l : lo v = lo w) : v = w := by
  rw [← join_hi_lo v, ← join_hi_lo w, h, l]

theorem hi_toNat (w : Word) : (hi w).toNat = w.toNat / 256 := by
  have := w.isLt
  simp only [hi, BitVec.toNat_setWidth, BitVec.toNat_ushiftRight, Nat.shiftRight_eq_div_pow]
  omega

theorem lo_toNat (w : Word) : (lo w).toNat = w.toNat % 256 := by
  simp [lo]

theorem join_toNat (h l : Byte) : (join h l).toNat = h.toNat * 256 + l.toNat := by
  have hh := h.isLt
  have hl := l.isLt
  have e : join h l = BitVec.ofNat 16 (h.toNat * 256 + l.toNat) := by
    apply word_ext
    · apply BitVec.eq_of_toNat_eq
      rw [hi_join, hi_toNat, BitVec.toNat_ofNat]
      omega
    · apply BitVec.eq_of_toNat_eq
      rw [lo_join, lo_toNat, BitVec.toNat_ofNat]
      omega
  rw [e, BitVec.toNat_ofNat]
  omega

namespace Machine

/-- `SetFlag` writes its own bit and no other (R21). -/
@[simp] theorem flag_setFlag (f g : Flag) (c : Bool) (p : Byte) :
    flag f (setFlag g c p) = if f = g then c else flag f p := by
  cases f <;> cases g <;> cases c <;> simp [flag, setFlag, Flag.bit, Flag.mask]

/-- `SetZN` writes Z and N and no other flag (R20). -/
@[simp] theorem flag_setZN (f : Flag) (v p : Byte) :
    flag f (setZN v p) = if f = .n then v.getLsbD 7 else if f = .z then v == 0 else flag f p := by
  simp only [setZN, flag_setFlag]

/-- A status byte is its eight flags. -/
theorem flags_ext {p q : Byte} (h : ∀ f, flag f p = flag f q) : p = q := by
  apply BitVec.eq_of_getLsbD_eq
  intro i hi
  have := h .c; have := h .z; have := h .i; have := h .d; have := h .b; have := h .u; have := h .v; have := h .n
  simp only [flag, Flag.bit] at *
  match i with
  | 0 | 1 | 2 | 3 | 4 | 5 | 6 | 7 => assumption
  | n + 8 => omega

/-- The copy PHP and BRK push: B and U at 1, the rest of `P`. -/
@[simp] theorem flag_pushedByInstr (f : Flag) (p : Byte) :
    flag f (pushedByInstr p) = if f = .b ∨ f = .u then true else flag f p := by
  cases f <;> simp [flag, pushedByInstr, Flag.bit]

/-- The copy an interrupt entry pushes: B at 0, U at 1, the rest of `P`. -/
@[simp] theorem flag_pushedByInterrupt (f : Flag) (p : Byte) :
    flag f (pushedByInterrupt p) = if f = .u then true else if f = .b then false else flag f p := by
  cases f <;> simp [flag, pushedByInterrupt, Flag.bit]

/-- `PullP`: the six live flags from the pulled byte; B from the register or from the byte by the policy; U kept under `ignore`
and set under `verbatim` (R120). -/
@[simp] theorem flag_pullP (f : Flag) (policy : PlpBPolicy) (v p : Byte) :
    flag f (pullP policy v p) =
      match policy, f with
      | .ignore, .b => flag .b p
      | .ignore, .u => flag .u p
      | .verbatim, .u => true
      | _, f => flag f v := by
  cases policy <;> cases f <;> simp [flag, pullP, Flag.bit]

/-- ADC's status: C, V, Z, N (R135). -/
@[simp] theorem flag_addFlags (f : Flag) (a m p : Byte) :
    flag f (addFlags a m p) =
      match f with
      | .c => addCarry a m (flag .c p)
      | .v => addOverflow a m (flag .c p)
      | .z => addResult a m (flag .c p) == 0
      | .n => (addResult a m (flag .c p)).getLsbD 7
      | f => flag f p := by
  cases f <;> simp [addFlags]

/-- A compare's status: C, Z, N (R137). -/
@[simp] theorem flag_compareFlags (f : Flag) (r m p : Byte) :
    flag f (compareFlags r m p) =
      match f with
      | .c => decide (m ≤ r)
      | .z => r - m == 0
      | .n => (r - m).getLsbD 7
      | f => flag f p := by
  cases f <;> simp [compareFlags]

/-- BIT's status: Z, N, V (R128). -/
@[simp] theorem flag_bitFlags (f : Flag) (a m p : Byte) :
    flag f (bitFlags a m p) =
      match f with
      | .z => a &&& m == 0
      | .n => m.getLsbD 7
      | .v => m.getLsbD 6
      | f => flag f p := by
  cases f <;> simp [bitFlags]

/-- A shift's status: C, Z, N (R161 to R164). -/
@[simp] theorem flag_shiftFlags (f : Flag) (out : Bool) (r p : Byte) :
    flag f (shiftFlags out r p) =
      match f with
      | .c => out
      | .z => r == 0
      | .n => r.getLsbD 7
      | f => flag f p := by
  cases f <;> simp [shiftFlags]

end Machine

end Sys2Proof
end

