-- ==== Sys2Proof/Laws/Memory.lean ====
section
/-! SUPPORT. The laws of memory: reading after a write, and the canonical form, which every operation keeps and which makes
memories that read alike equal. -/

namespace Sys2Proof.Machine

/-- Below the least key of a canonical memory nothing is listed. -/
theorem Memory.lookup_below {m : Memory} {least k : Nat} (h : Memory.wfFrom least m = true) (hk : k < least) :
    Memory.lookup m k = Memory.unlisted := by
  induction m generalizing least with
  | nil => rfl
  | cons c rest ih =>
    obtain ⟨j, w⟩ := c
    simp only [Memory.wfFrom, Bool.and_eq_true, decide_eq_true_eq] at h
    have hj : j ≠ k := by omega
    simp only [Memory.lookup, if_neg hj]
    exact ih h.2 (by omega)

/-- A write leaves every other key alone, whatever the form of the memory. -/
theorem Memory.lookup_insert_other (m : Memory) {n k : Nat} (v : Byte) (hk : k ≠ n) :
    Memory.lookup (Memory.insert m n v) k = Memory.lookup m k := by
  have hn : n ≠ k := hk.symm
  induction m with
  | nil => by_cases hv : v = Memory.unlisted <;> simp [Memory.insert, Memory.lookup, hv, hn]
  | cons c rest ih =>
    obtain ⟨j, w⟩ := c
    simp only [Memory.insert]
    split
    · by_cases hv : v = Memory.unlisted <;> simp [Memory.lookup, hv, hn]
    · split
      · rename_i _ hj
        subst hj
        by_cases hv : v = Memory.unlisted <;> simp [Memory.lookup, hv, hn]
      · simp only [Memory.lookup, ih]

/-- A canonical memory reads the written byte at its key. -/
theorem Memory.lookup_insert_same (m : Memory) (n : Nat) (v : Byte) (least : Nat) (h : Memory.wfFrom least m = true) :
    Memory.lookup (Memory.insert m n v) n = v := by
  induction m generalizing least with
  | nil => by_cases hv : v = Memory.unlisted <;> simp [Memory.insert, Memory.lookup, hv]
  | cons c rest ih =>
    obtain ⟨j, w⟩ := c
    simp only [Memory.wfFrom, Bool.and_eq_true, decide_eq_true_eq] at h
    have hrest := h.2
    simp only [Memory.insert]
    split
    · have hj : j ≠ n := by omega
      by_cases hv : v = Memory.unlisted
      · simp [Memory.lookup, hv, hj, Memory.lookup_below hrest (show n < j + 1 by omega)]
      · simp [Memory.lookup, hv]
    · split
      · rename_i _ hj
        subst hj
        by_cases hv : v = Memory.unlisted
        · simp [hv, Memory.lookup_below hrest (show n < n + 1 by omega)]
        · simp [Memory.lookup, hv]
      · rename_i _ hj
        simp only [Memory.lookup, if_neg (Ne.symm hj)]
        exact ih (j + 1) hrest

theorem Memory.wfFrom_mono {m : Memory} {l l' : Nat} (h : Memory.wfFrom l m = true) (hl : l' ≤ l) :
    Memory.wfFrom l' m = true := by
  cases m with
  | nil => rfl
  | cons c r =>
    simp only [Memory.wfFrom, Bool.and_eq_true, decide_eq_true_eq] at h ⊢
    exact ⟨⟨⟨by omega, h.1.1.2⟩, h.1.2⟩, h.2⟩

theorem Memory.wfFrom_insert (m : Memory) (n : Nat) (v : Byte) (least : Nat) (h : Memory.wfFrom least m = true)
    (hn : n < 65536) (hl : least ≤ n) : Memory.wfFrom least (Memory.insert m n v) = true := by
  induction m generalizing least with
  | nil =>
    by_cases hv : v = Memory.unlisted <;> simp [Memory.insert, Memory.wfFrom, hv, hn, hl]
  | cons c rest ih =>
    obtain ⟨j, w⟩ := c
    have h' := h
    simp only [Memory.wfFrom, Bool.and_eq_true, decide_eq_true_eq] at h
    obtain ⟨⟨⟨hlj, hj⟩, hw⟩, hrest⟩ := h
    simp only [Memory.insert]
    split
    · split
      · exact h'
      · rename_i hnj hv
        simp only [Memory.wfFrom, Bool.and_eq_true, decide_eq_true_eq]
        exact ⟨⟨⟨hl, hn⟩, by simpa using hv⟩, ⟨⟨⟨by omega, hj⟩, hw⟩, hrest⟩⟩
    · split
      · split
        · exact Memory.wfFrom_mono hrest (by omega)
        · rename_i hnj hv
          simp only [Memory.wfFrom, Bool.and_eq_true, decide_eq_true_eq]
          exact ⟨⟨⟨hl, hn⟩, by simpa using hv⟩, Memory.wfFrom_mono hrest (by omega)⟩
      · simp only [Memory.wfFrom, Bool.and_eq_true, decide_eq_true_eq]
        exact ⟨⟨⟨hlj, hj⟩, hw⟩, ih (j + 1) hrest (by omega)⟩

/-- Reading after a write to the same address gives the byte written. -/
theorem Memory.get_set_same (m : Memory) (a : Word) (v : Byte) (h : m.wf = true) : (m.set a v).get a = v :=
  Memory.lookup_insert_same m _ v 0 h

/-- A write leaves every other address alone. -/
theorem Memory.get_set_other (m : Memory) {a b : Word} (v : Byte) (hab : b ≠ a) : (m.set a v).get b = m.get b :=
  Memory.lookup_insert_other m v fun h => hab (BitVec.eq_of_toNat_eq h)

/-- Both at once. -/
theorem Memory.get_set (m : Memory) (a b : Word) (v : Byte) (h : m.wf = true) :
    (m.set a v).get b = if b = a then v else m.get b := by
  split
  · rename_i hb; rw [hb, Memory.get_set_same m a v h]
  · rename_i hb; exact Memory.get_set_other m v hb

/-- The one write of memory keeps the canonical form. -/
theorem Memory.wf_set (m : Memory) (a : Word) (v : Byte) (h : m.wf = true) : (m.set a v).wf = true :=
  Memory.wfFrom_insert m _ v 0 h a.isLt (Nat.zero_le _)

/-- Canonical memories that read alike from a key on are equal. -/
theorem Memory.lookup_ext {m n : Memory} {least : Nat} (hm : Memory.wfFrom least m = true)
    (hn : Memory.wfFrom least n = true) (h : ∀ k < 65536, Memory.lookup m k = Memory.lookup n k) : m = n := by
  induction m generalizing n least with
  | nil =>
    cases n with
    | nil => rfl
    | cons d q =>
      obtain ⟨j, w⟩ := d
      simp only [Memory.wfFrom, Bool.and_eq_true, decide_eq_true_eq] at hn
      have := h j hn.1.1.2
      simp only [Memory.lookup, if_true] at this
      simp [← this] at hn
  | cons c r ih =>
    obtain ⟨k, v⟩ := c
    simp only [Memory.wfFrom, Bool.and_eq_true, decide_eq_true_eq] at hm
    have hkv := h k hm.1.1.2
    simp only [Memory.lookup, if_true] at hkv
    cases n with
    | nil =>
      simp only [Memory.lookup] at hkv
      simp [hkv] at hm
    | cons d q =>
      obtain ⟨j, w⟩ := d
      simp only [Memory.wfFrom, Bool.and_eq_true, decide_eq_true_eq] at hn
      have hjw := h j hn.1.1.2
      simp only [Memory.lookup, if_true] at hjw
      obtain hlt | rfl | hlt := Nat.lt_trichotomy k j
      · rw [Memory.lookup, if_neg (by omega), Memory.lookup_below hn.2 (by omega)] at hkv
        simp [hkv] at hm
      · simp only [if_true] at hjw
        subst hjw
        rw [ih hm.2 hn.2]
        intro i hi
        by_cases hik : i ≤ k
        · rw [Memory.lookup_below hm.2 (by omega), Memory.lookup_below hn.2 (by omega)]
        · simpa [Memory.lookup, show k ≠ i by omega] using h i hi
      · rw [if_neg (by omega), Memory.lookup_below hm.2 (by omega)] at hjw
        simp [← hjw] at hn

/-- So equal memories are equal data (log entry 3). -/
theorem Memory.ext_get {m n : Memory} (hm : m.wf = true) (hn : n.wf = true) (h : ∀ a, m.get a = n.get a) : m = n := by
  refine Memory.lookup_ext hm hn fun k hk => ?_
  have := h (BitVec.ofNat 16 k)
  simpa [Memory.get, Nat.mod_eq_of_lt hk] using this

theorem Memory.wf_nil : Memory.wf [] = true := rfl

end Sys2Proof.Machine
end

