-- ==== Sys2Proof/Laws/State.lean ====
section
/-! SUPPORT. One lemma per field per update of State, so that no proof unfolds a record update. -/

namespace Sys2Proof.Machine

section
variable (s : State) (v : Byte)
@[simp] theorem State.setA_a : (s.setA v).a = v := rfl
@[simp] theorem State.setA_x : (s.setA v).x = s.x := rfl
@[simp] theorem State.setA_y : (s.setA v).y = s.y := rfl
@[simp] theorem State.setA_sp : (s.setA v).sp = s.sp := rfl
@[simp] theorem State.setA_p : (s.setA v).p = s.p := rfl
@[simp] theorem State.setA_pc : (s.setA v).pc = s.pc := rfl
@[simp] theorem State.setA_nmiPending : (s.setA v).nmiPending = s.nmiPending := rfl
@[simp] theorem State.setA_irqPending : (s.setA v).irqPending = s.irqPending := rfl
@[simp] theorem State.setA_mem : (s.setA v).mem = s.mem := rfl
@[simp] theorem State.setA_cfg : (s.setA v).cfg = s.cfg := rfl
@[simp] theorem State.setA_replies : (s.setA v).replies = s.replies := rfl
@[simp] theorem State.setA_bus : (s.setA v).bus = s.bus := rfl
@[simp] theorem State.setA_stepCycles : (s.setA v).stepCycles = s.stepCycles := rfl
end

section
variable (s : State) (v : Byte)
@[simp] theorem State.setX_a : (s.setX v).a = s.a := rfl
@[simp] theorem State.setX_x : (s.setX v).x = v := rfl
@[simp] theorem State.setX_y : (s.setX v).y = s.y := rfl
@[simp] theorem State.setX_sp : (s.setX v).sp = s.sp := rfl
@[simp] theorem State.setX_p : (s.setX v).p = s.p := rfl
@[simp] theorem State.setX_pc : (s.setX v).pc = s.pc := rfl
@[simp] theorem State.setX_nmiPending : (s.setX v).nmiPending = s.nmiPending := rfl
@[simp] theorem State.setX_irqPending : (s.setX v).irqPending = s.irqPending := rfl
@[simp] theorem State.setX_mem : (s.setX v).mem = s.mem := rfl
@[simp] theorem State.setX_cfg : (s.setX v).cfg = s.cfg := rfl
@[simp] theorem State.setX_replies : (s.setX v).replies = s.replies := rfl
@[simp] theorem State.setX_bus : (s.setX v).bus = s.bus := rfl
@[simp] theorem State.setX_stepCycles : (s.setX v).stepCycles = s.stepCycles := rfl
end

section
variable (s : State) (v : Byte)
@[simp] theorem State.setY_a : (s.setY v).a = s.a := rfl
@[simp] theorem State.setY_x : (s.setY v).x = s.x := rfl
@[simp] theorem State.setY_y : (s.setY v).y = v := rfl
@[simp] theorem State.setY_sp : (s.setY v).sp = s.sp := rfl
@[simp] theorem State.setY_p : (s.setY v).p = s.p := rfl
@[simp] theorem State.setY_pc : (s.setY v).pc = s.pc := rfl
@[simp] theorem State.setY_nmiPending : (s.setY v).nmiPending = s.nmiPending := rfl
@[simp] theorem State.setY_irqPending : (s.setY v).irqPending = s.irqPending := rfl
@[simp] theorem State.setY_mem : (s.setY v).mem = s.mem := rfl
@[simp] theorem State.setY_cfg : (s.setY v).cfg = s.cfg := rfl
@[simp] theorem State.setY_replies : (s.setY v).replies = s.replies := rfl
@[simp] theorem State.setY_bus : (s.setY v).bus = s.bus := rfl
@[simp] theorem State.setY_stepCycles : (s.setY v).stepCycles = s.stepCycles := rfl
end

section
variable (s : State) (v : Byte)
@[simp] theorem State.setSp_a : (s.setSp v).a = s.a := rfl
@[simp] theorem State.setSp_x : (s.setSp v).x = s.x := rfl
@[simp] theorem State.setSp_y : (s.setSp v).y = s.y := rfl
@[simp] theorem State.setSp_sp : (s.setSp v).sp = v := rfl
@[simp] theorem State.setSp_p : (s.setSp v).p = s.p := rfl
@[simp] theorem State.setSp_pc : (s.setSp v).pc = s.pc := rfl
@[simp] theorem State.setSp_nmiPending : (s.setSp v).nmiPending = s.nmiPending := rfl
@[simp] theorem State.setSp_irqPending : (s.setSp v).irqPending = s.irqPending := rfl
@[simp] theorem State.setSp_mem : (s.setSp v).mem = s.mem := rfl
@[simp] theorem State.setSp_cfg : (s.setSp v).cfg = s.cfg := rfl
@[simp] theorem State.setSp_replies : (s.setSp v).replies = s.replies := rfl
@[simp] theorem State.setSp_bus : (s.setSp v).bus = s.bus := rfl
@[simp] theorem State.setSp_stepCycles : (s.setSp v).stepCycles = s.stepCycles := rfl
end

section
variable (s : State) (v : Byte)
@[simp] theorem State.setP_a : (s.setP v).a = s.a := rfl
@[simp] theorem State.setP_x : (s.setP v).x = s.x := rfl
@[simp] theorem State.setP_y : (s.setP v).y = s.y := rfl
@[simp] theorem State.setP_sp : (s.setP v).sp = s.sp := rfl
@[simp] theorem State.setP_p : (s.setP v).p = v := rfl
@[simp] theorem State.setP_pc : (s.setP v).pc = s.pc := rfl
@[simp] theorem State.setP_nmiPending : (s.setP v).nmiPending = s.nmiPending := rfl
@[simp] theorem State.setP_irqPending : (s.setP v).irqPending = s.irqPending := rfl
@[simp] theorem State.setP_mem : (s.setP v).mem = s.mem := rfl
@[simp] theorem State.setP_cfg : (s.setP v).cfg = s.cfg := rfl
@[simp] theorem State.setP_replies : (s.setP v).replies = s.replies := rfl
@[simp] theorem State.setP_bus : (s.setP v).bus = s.bus := rfl
@[simp] theorem State.setP_stepCycles : (s.setP v).stepCycles = s.stepCycles := rfl
end

section
variable (s : State) (v : Word)
@[simp] theorem State.setPc_a : (s.setPc v).a = s.a := rfl
@[simp] theorem State.setPc_x : (s.setPc v).x = s.x := rfl
@[simp] theorem State.setPc_y : (s.setPc v).y = s.y := rfl
@[simp] theorem State.setPc_sp : (s.setPc v).sp = s.sp := rfl
@[simp] theorem State.setPc_p : (s.setPc v).p = s.p := rfl
@[simp] theorem State.setPc_pc : (s.setPc v).pc = v := rfl
@[simp] theorem State.setPc_nmiPending : (s.setPc v).nmiPending = s.nmiPending := rfl
@[simp] theorem State.setPc_irqPending : (s.setPc v).irqPending = s.irqPending := rfl
@[simp] theorem State.setPc_mem : (s.setPc v).mem = s.mem := rfl
@[simp] theorem State.setPc_cfg : (s.setPc v).cfg = s.cfg := rfl
@[simp] theorem State.setPc_replies : (s.setPc v).replies = s.replies := rfl
@[simp] theorem State.setPc_bus : (s.setPc v).bus = s.bus := rfl
@[simp] theorem State.setPc_stepCycles : (s.setPc v).stepCycles = s.stepCycles := rfl
end

section
variable (s : State) (v : Bool)
@[simp] theorem State.setNmi_a : (s.setNmi v).a = s.a := rfl
@[simp] theorem State.setNmi_x : (s.setNmi v).x = s.x := rfl
@[simp] theorem State.setNmi_y : (s.setNmi v).y = s.y := rfl
@[simp] theorem State.setNmi_sp : (s.setNmi v).sp = s.sp := rfl
@[simp] theorem State.setNmi_p : (s.setNmi v).p = s.p := rfl
@[simp] theorem State.setNmi_pc : (s.setNmi v).pc = s.pc := rfl
@[simp] theorem State.setNmi_nmiPending : (s.setNmi v).nmiPending = v := rfl
@[simp] theorem State.setNmi_irqPending : (s.setNmi v).irqPending = s.irqPending := rfl
@[simp] theorem State.setNmi_mem : (s.setNmi v).mem = s.mem := rfl
@[simp] theorem State.setNmi_cfg : (s.setNmi v).cfg = s.cfg := rfl
@[simp] theorem State.setNmi_replies : (s.setNmi v).replies = s.replies := rfl
@[simp] theorem State.setNmi_bus : (s.setNmi v).bus = s.bus := rfl
@[simp] theorem State.setNmi_stepCycles : (s.setNmi v).stepCycles = s.stepCycles := rfl
end

section
variable (s : State) (v : Bool)
@[simp] theorem State.setIrq_a : (s.setIrq v).a = s.a := rfl
@[simp] theorem State.setIrq_x : (s.setIrq v).x = s.x := rfl
@[simp] theorem State.setIrq_y : (s.setIrq v).y = s.y := rfl
@[simp] theorem State.setIrq_sp : (s.setIrq v).sp = s.sp := rfl
@[simp] theorem State.setIrq_p : (s.setIrq v).p = s.p := rfl
@[simp] theorem State.setIrq_pc : (s.setIrq v).pc = s.pc := rfl
@[simp] theorem State.setIrq_nmiPending : (s.setIrq v).nmiPending = s.nmiPending := rfl
@[simp] theorem State.setIrq_irqPending : (s.setIrq v).irqPending = v := rfl
@[simp] theorem State.setIrq_mem : (s.setIrq v).mem = s.mem := rfl
@[simp] theorem State.setIrq_cfg : (s.setIrq v).cfg = s.cfg := rfl
@[simp] theorem State.setIrq_replies : (s.setIrq v).replies = s.replies := rfl
@[simp] theorem State.setIrq_bus : (s.setIrq v).bus = s.bus := rfl
@[simp] theorem State.setIrq_stepCycles : (s.setIrq v).stepCycles = s.stepCycles := rfl
end

section
variable (s : State) (v : Memory)
@[simp] theorem State.setMem_a : (s.setMem v).a = s.a := rfl
@[simp] theorem State.setMem_x : (s.setMem v).x = s.x := rfl
@[simp] theorem State.setMem_y : (s.setMem v).y = s.y := rfl
@[simp] theorem State.setMem_sp : (s.setMem v).sp = s.sp := rfl
@[simp] theorem State.setMem_p : (s.setMem v).p = s.p := rfl
@[simp] theorem State.setMem_pc : (s.setMem v).pc = s.pc := rfl
@[simp] theorem State.setMem_nmiPending : (s.setMem v).nmiPending = s.nmiPending := rfl
@[simp] theorem State.setMem_irqPending : (s.setMem v).irqPending = s.irqPending := rfl
@[simp] theorem State.setMem_mem : (s.setMem v).mem = v := rfl
@[simp] theorem State.setMem_cfg : (s.setMem v).cfg = s.cfg := rfl
@[simp] theorem State.setMem_replies : (s.setMem v).replies = s.replies := rfl
@[simp] theorem State.setMem_bus : (s.setMem v).bus = s.bus := rfl
@[simp] theorem State.setMem_stepCycles : (s.setMem v).stepCycles = s.stepCycles := rfl
end

section
variable (s : State) (v : List BusReply)
@[simp] theorem State.setReplies_a : (s.setReplies v).a = s.a := rfl
@[simp] theorem State.setReplies_x : (s.setReplies v).x = s.x := rfl
@[simp] theorem State.setReplies_y : (s.setReplies v).y = s.y := rfl
@[simp] theorem State.setReplies_sp : (s.setReplies v).sp = s.sp := rfl
@[simp] theorem State.setReplies_p : (s.setReplies v).p = s.p := rfl
@[simp] theorem State.setReplies_pc : (s.setReplies v).pc = s.pc := rfl
@[simp] theorem State.setReplies_nmiPending : (s.setReplies v).nmiPending = s.nmiPending := rfl
@[simp] theorem State.setReplies_irqPending : (s.setReplies v).irqPending = s.irqPending := rfl
@[simp] theorem State.setReplies_mem : (s.setReplies v).mem = s.mem := rfl
@[simp] theorem State.setReplies_cfg : (s.setReplies v).cfg = s.cfg := rfl
@[simp] theorem State.setReplies_replies : (s.setReplies v).replies = v := rfl
@[simp] theorem State.setReplies_bus : (s.setReplies v).bus = s.bus := rfl
@[simp] theorem State.setReplies_stepCycles : (s.setReplies v).stepCycles = s.stepCycles := rfl
end

section
variable (s : State) (v : List BusAccess)
@[simp] theorem State.setBus_a : (s.setBus v).a = s.a := rfl
@[simp] theorem State.setBus_x : (s.setBus v).x = s.x := rfl
@[simp] theorem State.setBus_y : (s.setBus v).y = s.y := rfl
@[simp] theorem State.setBus_sp : (s.setBus v).sp = s.sp := rfl
@[simp] theorem State.setBus_p : (s.setBus v).p = s.p := rfl
@[simp] theorem State.setBus_pc : (s.setBus v).pc = s.pc := rfl
@[simp] theorem State.setBus_nmiPending : (s.setBus v).nmiPending = s.nmiPending := rfl
@[simp] theorem State.setBus_irqPending : (s.setBus v).irqPending = s.irqPending := rfl
@[simp] theorem State.setBus_mem : (s.setBus v).mem = s.mem := rfl
@[simp] theorem State.setBus_cfg : (s.setBus v).cfg = s.cfg := rfl
@[simp] theorem State.setBus_replies : (s.setBus v).replies = s.replies := rfl
@[simp] theorem State.setBus_bus : (s.setBus v).bus = v := rfl
@[simp] theorem State.setBus_stepCycles : (s.setBus v).stepCycles = s.stepCycles := rfl
end

section
variable (s : State) (v : Option Byte)
@[simp] theorem State.setCycles_a : (s.setCycles v).a = s.a := rfl
@[simp] theorem State.setCycles_x : (s.setCycles v).x = s.x := rfl
@[simp] theorem State.setCycles_y : (s.setCycles v).y = s.y := rfl
@[simp] theorem State.setCycles_sp : (s.setCycles v).sp = s.sp := rfl
@[simp] theorem State.setCycles_p : (s.setCycles v).p = s.p := rfl
@[simp] theorem State.setCycles_pc : (s.setCycles v).pc = s.pc := rfl
@[simp] theorem State.setCycles_nmiPending : (s.setCycles v).nmiPending = s.nmiPending := rfl
@[simp] theorem State.setCycles_irqPending : (s.setCycles v).irqPending = s.irqPending := rfl
@[simp] theorem State.setCycles_mem : (s.setCycles v).mem = s.mem := rfl
@[simp] theorem State.setCycles_cfg : (s.setCycles v).cfg = s.cfg := rfl
@[simp] theorem State.setCycles_replies : (s.setCycles v).replies = s.replies := rfl
@[simp] theorem State.setCycles_bus : (s.setCycles v).bus = s.bus := rfl
@[simp] theorem State.setCycles_stepCycles : (s.setCycles v).stepCycles = v := rfl
end

end Sys2Proof.Machine
end

