-- ==== Sys2Proof/Laws/Ops.lean ====
section
/-! SUPPORT. What each shared operation can do, once: the fields it leaves alone, and what it does to the others. -/

namespace Sys2Proof.Machine

variable (s : State)

/-! ## A read: only the answer used up and the access recorded -/

section
variable (addr : Word)
@[simp] theorem State.afterMemRead_a : (s.afterMemRead addr).a = s.a := rfl
@[simp] theorem State.afterMemRead_x : (s.afterMemRead addr).x = s.x := rfl
@[simp] theorem State.afterMemRead_y : (s.afterMemRead addr).y = s.y := rfl
@[simp] theorem State.afterMemRead_sp : (s.afterMemRead addr).sp = s.sp := rfl
@[simp] theorem State.afterMemRead_p : (s.afterMemRead addr).p = s.p := rfl
@[simp] theorem State.afterMemRead_pc : (s.afterMemRead addr).pc = s.pc := rfl
@[simp] theorem State.afterMemRead_nmiPending : (s.afterMemRead addr).nmiPending = s.nmiPending := rfl
@[simp] theorem State.afterMemRead_irqPending : (s.afterMemRead addr).irqPending = s.irqPending := rfl
@[simp] theorem State.afterMemRead_mem : (s.afterMemRead addr).mem = s.mem := rfl
@[simp] theorem State.afterMemRead_cfg : (s.afterMemRead addr).cfg = s.cfg := rfl
@[simp] theorem State.afterMemRead_stepCycles : (s.afterMemRead addr).stepCycles = s.stepCycles := rfl
@[simp] theorem State.afterMemRead_replies : (s.afterMemRead addr).replies = s.replies.tail := rfl
@[simp] theorem State.afterMemRead_bus : (s.afterMemRead addr).bus = s.bus ++ [.read addr (s.memRead addr)] := rfl
end

/-- On plain memory a read returns the cell's content (20_memory.md R31). -/
theorem State.memRead_plain {s : State} (h : s.replies = []) (addr : Word) : s.memRead addr = s.mem.get addr := by
  simp [State.memRead, h]

/-- A read depends on the memory and the coming answers only. -/
theorem State.memRead_congr {s t : State} (hm : s.mem = t.mem) (hr : s.replies = t.replies) (addr : Word) :
    s.memRead addr = t.memRead addr := by
  simp [State.memRead, hm, hr]

section
variable (addr : Word)
@[simp] theorem State.memRead_setA (v : Byte) : (s.setA v).memRead addr = s.memRead addr := rfl
@[simp] theorem State.writeLands_setA (v : Byte) : (s.setA v).writeLands = s.writeLands := rfl
@[simp] theorem State.memRead_setX (v : Byte) : (s.setX v).memRead addr = s.memRead addr := rfl
@[simp] theorem State.writeLands_setX (v : Byte) : (s.setX v).writeLands = s.writeLands := rfl
@[simp] theorem State.memRead_setY (v : Byte) : (s.setY v).memRead addr = s.memRead addr := rfl
@[simp] theorem State.writeLands_setY (v : Byte) : (s.setY v).writeLands = s.writeLands := rfl
@[simp] theorem State.memRead_setSp (v : Byte) : (s.setSp v).memRead addr = s.memRead addr := rfl
@[simp] theorem State.writeLands_setSp (v : Byte) : (s.setSp v).writeLands = s.writeLands := rfl
@[simp] theorem State.memRead_setP (v : Byte) : (s.setP v).memRead addr = s.memRead addr := rfl
@[simp] theorem State.writeLands_setP (v : Byte) : (s.setP v).writeLands = s.writeLands := rfl
@[simp] theorem State.memRead_setPc (v : Word) : (s.setPc v).memRead addr = s.memRead addr := rfl
@[simp] theorem State.writeLands_setPc (v : Word) : (s.setPc v).writeLands = s.writeLands := rfl
@[simp] theorem State.memRead_setNmi (v : Bool) : (s.setNmi v).memRead addr = s.memRead addr := rfl
@[simp] theorem State.writeLands_setNmi (v : Bool) : (s.setNmi v).writeLands = s.writeLands := rfl
@[simp] theorem State.memRead_setIrq (v : Bool) : (s.setIrq v).memRead addr = s.memRead addr := rfl
@[simp] theorem State.writeLands_setIrq (v : Bool) : (s.setIrq v).writeLands = s.writeLands := rfl
@[simp] theorem State.memRead_setBus (v : List BusAccess) : (s.setBus v).memRead addr = s.memRead addr := rfl
@[simp] theorem State.writeLands_setBus (v : List BusAccess) : (s.setBus v).writeLands = s.writeLands := rfl
@[simp] theorem State.memRead_setCycles (v : Option Byte) : (s.setCycles v).memRead addr = s.memRead addr := rfl
@[simp] theorem State.writeLands_setCycles (v : Option Byte) : (s.setCycles v).writeLands = s.writeLands := rfl
end

/-! ## A write: one cell at most, the answer used up and the access recorded -/

section
variable (addr : Word) (v : Byte)
@[simp] theorem State.memWrite_a : (s.memWrite addr v).a = s.a := rfl
@[simp] theorem State.memWrite_x : (s.memWrite addr v).x = s.x := rfl
@[simp] theorem State.memWrite_y : (s.memWrite addr v).y = s.y := rfl
@[simp] theorem State.memWrite_sp : (s.memWrite addr v).sp = s.sp := rfl
@[simp] theorem State.memWrite_p : (s.memWrite addr v).p = s.p := rfl
@[simp] theorem State.memWrite_pc : (s.memWrite addr v).pc = s.pc := rfl
@[simp] theorem State.memWrite_nmiPending : (s.memWrite addr v).nmiPending = s.nmiPending := rfl
@[simp] theorem State.memWrite_irqPending : (s.memWrite addr v).irqPending = s.irqPending := rfl
@[simp] theorem State.memWrite_cfg : (s.memWrite addr v).cfg = s.cfg := rfl
@[simp] theorem State.memWrite_stepCycles : (s.memWrite addr v).stepCycles = s.stepCycles := rfl
@[simp] theorem State.memWrite_replies : (s.memWrite addr v).replies = s.replies.tail := rfl
@[simp] theorem State.memWrite_bus : (s.memWrite addr v).bus = s.bus ++ [.write addr v] := rfl
theorem State.memWrite_mem : (s.memWrite addr v).mem = if s.writeLands then s.mem.set addr v else s.mem := rfl
end

/-- On plain memory a write lands. -/
theorem State.writeLands_plain {s : State} (h : s.replies = []) : s.writeLands = true := by
  simp [State.writeLands, h]

/-- On plain memory a write is a write of memory. -/
theorem State.memWrite_mem_plain {s : State} (h : s.replies = []) (addr : Word) (v : Byte) :
    (s.memWrite addr v).mem = s.mem.set addr v := by
  simp [State.memWrite_mem, State.writeLands_plain h]

/-- A write leaves every other address alone. -/
theorem State.get_memWrite_other {addr b : Word} (v : Byte) (h : b ≠ addr) :
    (s.memWrite addr v).mem.get b = s.mem.get b := by
  rw [State.memWrite_mem]
  split
  · exact Memory.get_set_other _ _ h
  · rfl

/-- A write keeps the canonical form. -/
theorem State.wf_memWrite {s : State} (h : s.mem.wf = true) (addr : Word) (v : Byte) :
    (s.memWrite addr v).mem.wf = true := by
  rw [State.memWrite_mem]
  split
  · exact Memory.wf_set _ _ _ h
  · exact h

/-! ## Two reads -/

section
variable (a b : Word)
@[simp] theorem State.afterMemReadPair_a : (s.afterMemReadPair a b).a = s.a := rfl
@[simp] theorem State.afterMemReadPair_x : (s.afterMemReadPair a b).x = s.x := rfl
@[simp] theorem State.afterMemReadPair_y : (s.afterMemReadPair a b).y = s.y := rfl
@[simp] theorem State.afterMemReadPair_sp : (s.afterMemReadPair a b).sp = s.sp := rfl
@[simp] theorem State.afterMemReadPair_p : (s.afterMemReadPair a b).p = s.p := rfl
@[simp] theorem State.afterMemReadPair_pc : (s.afterMemReadPair a b).pc = s.pc := rfl
@[simp] theorem State.afterMemReadPair_nmiPending : (s.afterMemReadPair a b).nmiPending = s.nmiPending := rfl
@[simp] theorem State.afterMemReadPair_irqPending : (s.afterMemReadPair a b).irqPending = s.irqPending := rfl
@[simp] theorem State.afterMemReadPair_mem : (s.afterMemReadPair a b).mem = s.mem := rfl
@[simp] theorem State.afterMemReadPair_cfg : (s.afterMemReadPair a b).cfg = s.cfg := rfl
@[simp] theorem State.afterMemReadPair_stepCycles : (s.afterMemReadPair a b).stepCycles = s.stepCycles := rfl
@[simp] theorem State.afterMemReadPair_replies : (s.afterMemReadPair a b).replies = s.replies.tail.tail := rfl
end

/-- On plain memory a 16-bit read is the two cells, the first address holding the low byte (R33). -/
theorem State.memReadPair_plain {s : State} (h : s.replies = []) (a b : Word) :
    s.memReadPair a b = join (s.mem.get b) (s.mem.get a) := by
  simp [State.memReadPair, State.memRead, h]

/-! ## Push and Pop -/

section
variable (v : Byte)
@[simp] theorem State.push_a : (s.push v).a = s.a := rfl
@[simp] theorem State.push_x : (s.push v).x = s.x := rfl
@[simp] theorem State.push_y : (s.push v).y = s.y := rfl
@[simp] theorem State.push_p : (s.push v).p = s.p := rfl
@[simp] theorem State.push_pc : (s.push v).pc = s.pc := rfl
@[simp] theorem State.push_nmiPending : (s.push v).nmiPending = s.nmiPending := rfl
@[simp] theorem State.push_irqPending : (s.push v).irqPending = s.irqPending := rfl
@[simp] theorem State.push_cfg : (s.push v).cfg = s.cfg := rfl
@[simp] theorem State.push_stepCycles : (s.push v).stepCycles = s.stepCycles := rfl
@[simp] theorem State.push_sp : (s.push v).sp = s.sp - 1 := rfl
@[simp] theorem State.push_replies : (s.push v).replies = s.replies.tail := rfl
@[simp] theorem State.push_bus : (s.push v).bus = s.bus ++ [.write (stackAddr s.sp) v] := rfl
@[simp] theorem State.push_mem : (s.push v).mem = (s.memWrite (stackAddr s.sp) v).mem := rfl
end

@[simp] theorem State.afterPop_a : (s.afterPop).a = s.a := rfl
@[simp] theorem State.afterPop_x : (s.afterPop).x = s.x := rfl
@[simp] theorem State.afterPop_y : (s.afterPop).y = s.y := rfl
@[simp] theorem State.afterPop_p : (s.afterPop).p = s.p := rfl
@[simp] theorem State.afterPop_pc : (s.afterPop).pc = s.pc := rfl
@[simp] theorem State.afterPop_nmiPending : (s.afterPop).nmiPending = s.nmiPending := rfl
@[simp] theorem State.afterPop_irqPending : (s.afterPop).irqPending = s.irqPending := rfl
@[simp] theorem State.afterPop_mem : (s.afterPop).mem = s.mem := rfl
@[simp] theorem State.afterPop_cfg : (s.afterPop).cfg = s.cfg := rfl
@[simp] theorem State.afterPop_stepCycles : (s.afterPop).stepCycles = s.stepCycles := rfl
@[simp] theorem State.afterPop_sp : s.afterPop.sp = s.sp + 1 := rfl
@[simp] theorem State.afterPop_replies : s.afterPop.replies = s.replies.tail := rfl

section
variable (v : Word)
@[simp] theorem State.pushWord_a : (s.pushWord v).a = s.a := by simp [State.pushWord]
@[simp] theorem State.pushWord_x : (s.pushWord v).x = s.x := by simp [State.pushWord]
@[simp] theorem State.pushWord_y : (s.pushWord v).y = s.y := by simp [State.pushWord]
@[simp] theorem State.pushWord_p : (s.pushWord v).p = s.p := by simp [State.pushWord]
@[simp] theorem State.pushWord_pc : (s.pushWord v).pc = s.pc := by simp [State.pushWord]
@[simp] theorem State.pushWord_nmiPending : (s.pushWord v).nmiPending = s.nmiPending := by simp [State.pushWord]
@[simp] theorem State.pushWord_irqPending : (s.pushWord v).irqPending = s.irqPending := by simp [State.pushWord]
@[simp] theorem State.pushWord_cfg : (s.pushWord v).cfg = s.cfg := by simp [State.pushWord]
@[simp] theorem State.pushWord_stepCycles : (s.pushWord v).stepCycles = s.stepCycles := by simp [State.pushWord]
@[simp] theorem State.pushWord_sp : (s.pushWord v).sp = s.sp - 1 - 1 := by simp [State.pushWord]
@[simp] theorem State.pushWord_replies : (s.pushWord v).replies = s.replies.tail.tail := by simp [State.pushWord]
end

@[simp] theorem State.afterPopWord_a : (s.afterPopWord).a = s.a := by simp [State.afterPopWord]
@[simp] theorem State.afterPopWord_x : (s.afterPopWord).x = s.x := by simp [State.afterPopWord]
@[simp] theorem State.afterPopWord_y : (s.afterPopWord).y = s.y := by simp [State.afterPopWord]
@[simp] theorem State.afterPopWord_p : (s.afterPopWord).p = s.p := by simp [State.afterPopWord]
@[simp] theorem State.afterPopWord_pc : (s.afterPopWord).pc = s.pc := by simp [State.afterPopWord]
@[simp] theorem State.afterPopWord_nmiPending : (s.afterPopWord).nmiPending = s.nmiPending := by simp [State.afterPopWord]
@[simp] theorem State.afterPopWord_irqPending : (s.afterPopWord).irqPending = s.irqPending := by simp [State.afterPopWord]
@[simp] theorem State.afterPopWord_mem : (s.afterPopWord).mem = s.mem := by simp [State.afterPopWord]
@[simp] theorem State.afterPopWord_cfg : (s.afterPopWord).cfg = s.cfg := by simp [State.afterPopWord]
@[simp] theorem State.afterPopWord_stepCycles : (s.afterPopWord).stepCycles = s.stepCycles := by simp [State.afterPopWord]
@[simp] theorem State.afterPopWord_sp : s.afterPopWord.sp = s.sp + 1 + 1 := by simp [State.afterPopWord]
@[simp] theorem State.afterPopWord_replies : s.afterPopWord.replies = s.replies.tail.tail := by simp [State.afterPopWord]

/-- What a push leaves in memory depends on memory, the coming answers and `SP` only. -/
theorem State.push_congr {s t : State} (hm : s.mem = t.mem) (hr : s.replies = t.replies) (hs : s.sp = t.sp) (v : Byte) :
    (s.push v).mem = (t.push v).mem ∧ (s.push v).replies = (t.push v).replies ∧ (s.push v).sp = (t.push v).sp := by
  have hw : s.writeLands = t.writeLands := by unfold State.writeLands; rw [hr]
  simp [State.memWrite_mem, hw, hm, hr, hs]

/-- A push leaves every address but its own alone. -/
theorem State.get_push_other {b : Word} (v : Byte) (h : b ≠ stackAddr s.sp) : (s.push v).mem.get b = s.mem.get b :=
  s.get_memWrite_other v h

theorem State.wf_push {s : State} (h : s.mem.wf = true) (v : Byte) : (s.push v).mem.wf = true :=
  State.wf_memWrite h _ _

theorem State.wf_pushWord {s : State} (h : s.mem.wf = true) (v : Word) : (s.pushWord v).mem.wf = true :=
  State.wf_push (State.wf_push h _) _

/-- Distinct stack pointers name distinct addresses, all in page 1 (R41). -/
theorem stackAddr_inj {p q : Byte} (h : stackAddr p = stackAddr q) : p = q := by
  have := congrArg lo h
  have hlo : ∀ r : Byte, lo (stackAddr r) = r := by
    intro r; ext i hi; simp [lo, stackAddr, zext16]
  rwa [hlo, hlo] at this

@[simp] theorem hi_stackAddr (p : Byte) : hi (stackAddr p) = 0x01 := by
  have h : stackAddr p = join 0x01 p := by simp [stackAddr, join, zext16]
  rw [h, hi_join]

/-! ## Exceptions -/

section
variable (vector ret : Word) (copy : Byte)
@[simp] theorem State.takeException_a : (s.takeException vector ret copy).a = s.a := by simp [State.takeException]
@[simp] theorem State.takeException_x : (s.takeException vector ret copy).x = s.x := by simp [State.takeException]
@[simp] theorem State.takeException_y : (s.takeException vector ret copy).y = s.y := by simp [State.takeException]
@[simp] theorem State.takeException_nmiPending : (s.takeException vector ret copy).nmiPending = s.nmiPending := by simp [State.takeException]
@[simp] theorem State.takeException_irqPending : (s.takeException vector ret copy).irqPending = s.irqPending := by simp [State.takeException]
@[simp] theorem State.takeException_cfg : (s.takeException vector ret copy).cfg = s.cfg := by simp [State.takeException]
@[simp] theorem State.takeException_stepCycles : (s.takeException vector ret copy).stepCycles = s.stepCycles := by simp [State.takeException]
@[simp] theorem State.takeException_sp : (s.takeException vector ret copy).sp = s.sp - 1 - 1 - 1 := by simp [State.takeException]
@[simp] theorem State.takeException_p : (s.takeException vector ret copy).p = setFlag .i true s.p := by simp [State.takeException]
@[simp] theorem State.takeException_replies :
    (s.takeException vector ret copy).replies = s.replies.tail.tail.tail.tail.tail := by simp [State.takeException]
@[simp] theorem State.takeException_mem :
    (s.takeException vector ret copy).mem = ((s.pushWord ret).push copy).mem := by simp [State.takeException]
end

/-- The three writes of an exception's entry, and nothing else of it, as far as memory, the answers and the record go. -/
theorem State.push3_eq (ret : Word) (copy : Byte) :
    (s.pushWord ret).push copy = ((((s.memWrite (stackAddr s.sp) (hi ret)).memWrite (stackAddr (s.sp - 1)) (lo ret)).memWrite
      (stackAddr (s.sp - 2)) copy).setSp (s.sp - 3)) := by
  rw [← show s.sp - 1 - 1 = s.sp - 2 by bv_omega, ← show s.sp - 1 - 1 - 1 = s.sp - 3 by bv_omega]
  rfl

/-- An exception's entry reads its vector after the pushes, low byte first, whatever the capability answers. -/
theorem State.takeException_pc (vector ret : Word) (copy : Byte) :
    (s.takeException vector ret copy).pc = ((s.pushWord ret).push copy).memReadPair vector (nextAddr vector) := rfl

/-- The five accesses of an exception's entry. -/
theorem State.takeException_bus (vector ret : Word) (copy : Byte) :
    (s.takeException vector ret copy).bus = s.bus ++
      [.write (stackAddr s.sp) (hi ret), .write (stackAddr (s.sp - 1)) (lo ret), .write (stackAddr (s.sp - 2)) copy,
       .read vector (((s.pushWord ret).push copy).memRead vector),
       .read (nextAddr vector) ((((s.pushWord ret).push copy).afterMemRead vector).memRead (nextAddr vector))] := by
  rw [← show s.sp - 1 - 1 = s.sp - 2 by bv_omega]
  change ((((s.bus ++ [_]) ++ [_]) ++ [_]) ++ [_]) ++ [_] = _
  simp only [List.append_assoc, List.cons_append, List.nil_append]
  rfl

theorem State.wf_takeException {s : State} (h : s.mem.wf = true) (vector ret : Word) (copy : Byte) :
    (s.takeException vector ret copy).mem.wf = true := by
  rw [State.takeException_mem]
  exact State.wf_push (State.wf_pushWord h _) _

@[simp] theorem State.returnFromException_a : (s.returnFromException).a = s.a := by simp [State.returnFromException]
@[simp] theorem State.returnFromException_x : (s.returnFromException).x = s.x := by simp [State.returnFromException]
@[simp] theorem State.returnFromException_y : (s.returnFromException).y = s.y := by simp [State.returnFromException]
@[simp] theorem State.returnFromException_nmiPending : (s.returnFromException).nmiPending = s.nmiPending := by simp [State.returnFromException]
@[simp] theorem State.returnFromException_irqPending : (s.returnFromException).irqPending = s.irqPending := by simp [State.returnFromException]
@[simp] theorem State.returnFromException_mem : (s.returnFromException).mem = s.mem := by simp [State.returnFromException]
@[simp] theorem State.returnFromException_cfg : (s.returnFromException).cfg = s.cfg := by simp [State.returnFromException]
@[simp] theorem State.returnFromException_stepCycles : (s.returnFromException).stepCycles = s.stepCycles := by simp [State.returnFromException]
@[simp] theorem State.returnFromException_sp : s.returnFromException.sp = s.sp + 1 + 1 + 1 := by simp [State.returnFromException]
@[simp] theorem State.returnFromException_p :
    s.returnFromException.p = pullP s.cfg.plpBPolicy s.popByte s.p := by simp [State.returnFromException]

section
variable (i : Instr) (crossed : Bool) (hx : Nat)
@[simp] theorem State.returns_a : (s.returns i crossed hx).a = s.a := rfl
@[simp] theorem State.returns_x : (s.returns i crossed hx).x = s.x := rfl
@[simp] theorem State.returns_y : (s.returns i crossed hx).y = s.y := rfl
@[simp] theorem State.returns_sp : (s.returns i crossed hx).sp = s.sp := rfl
@[simp] theorem State.returns_p : (s.returns i crossed hx).p = s.p := rfl
@[simp] theorem State.returns_pc : (s.returns i crossed hx).pc = s.pc := rfl
@[simp] theorem State.returns_nmiPending : (s.returns i crossed hx).nmiPending = s.nmiPending := rfl
@[simp] theorem State.returns_irqPending : (s.returns i crossed hx).irqPending = s.irqPending := rfl
@[simp] theorem State.returns_mem : (s.returns i crossed hx).mem = s.mem := rfl
@[simp] theorem State.returns_cfg : (s.returns i crossed hx).cfg = s.cfg := rfl
@[simp] theorem State.returns_replies : (s.returns i crossed hx).replies = s.replies := rfl
@[simp] theorem State.returns_bus : (s.returns i crossed hx).bus = s.bus := rfl
@[simp] theorem State.returns_stepCycles :
    (s.returns i crossed hx).stepCycles = some (BitVec.ofNat 8 (cycleCount i crossed hx)) := rfl
end

/-! ## Interrupt entry -/

section
variable (k : InterruptKind)
@[simp] theorem State.interruptEntry_a : (s.interruptEntry k).a = s.a := by
  cases k <;> simp [State.interruptEntry, State.clearLatch]
@[simp] theorem State.interruptEntry_x : (s.interruptEntry k).x = s.x := by
  cases k <;> simp [State.interruptEntry, State.clearLatch]
@[simp] theorem State.interruptEntry_y : (s.interruptEntry k).y = s.y := by
  cases k <;> simp [State.interruptEntry, State.clearLatch]
@[simp] theorem State.interruptEntry_cfg : (s.interruptEntry k).cfg = s.cfg := by
  cases k <;> simp [State.interruptEntry, State.clearLatch]
@[simp] theorem State.interruptEntry_sp : (s.interruptEntry k).sp = s.sp - 1 - 1 - 1 := by
  cases k <;> simp [State.interruptEntry, State.clearLatch]
@[simp] theorem State.interruptEntry_p : (s.interruptEntry k).p = setFlag .i true s.p := by
  cases k <;> simp [State.interruptEntry, State.clearLatch]
@[simp] theorem State.interruptEntry_stepCycles : (s.interruptEntry k).stepCycles = some 7 := by
  cases k <;> simp [State.interruptEntry, State.clearLatch]
@[simp] theorem State.interruptEntry_nmiPending :
    (s.interruptEntry k).nmiPending = if k = .nmi then false else s.nmiPending := by
  cases k <;> simp [State.interruptEntry, State.clearLatch]
@[simp] theorem State.interruptEntry_irqPending :
    (s.interruptEntry k).irqPending = if k = .irq then false else s.irqPending := by
  cases k <;> simp [State.interruptEntry, State.clearLatch]
end

/-- An interrupt entry writes memory by its three pushes only (60_exceptions.md R219). -/
theorem State.interruptEntry_mem (k : InterruptKind) :
    (s.interruptEntry k).mem = ((s.pushWord s.pc).push (pushedByInterrupt s.p)).mem := by
  simp only [State.interruptEntry, State.setCycles_mem, State.takeException_mem, State.pushWord]
  have h0 : (s.clearLatch k).mem = s.mem ∧ (s.clearLatch k).replies = s.replies ∧ (s.clearLatch k).sp = s.sp := by
    cases k <;> simp [State.clearLatch]
  have h1 := State.push_congr h0.1 h0.2.1 h0.2.2 (hi s.pc)
  have h2 := State.push_congr h1.1 h1.2.1 h1.2.2 (lo s.pc)
  exact (State.push_congr h2.1 h2.2.1 h2.2.2 _).1

theorem State.wf_interruptEntry {s : State} (h : s.mem.wf = true) (k : InterruptKind) :
    (s.interruptEntry k).mem.wf = true := by
  rw [State.interruptEntry_mem]
  exact State.wf_push (State.wf_pushWord h _) _

/-! ## The Step around an instruction -/

@[simp] theorem State.afterFetch_a : (s.afterFetch).a = s.a := by
  unfold State.afterFetch; split <;> simp
@[simp] theorem State.afterFetch_x : (s.afterFetch).x = s.x := by
  unfold State.afterFetch; split <;> simp
@[simp] theorem State.afterFetch_y : (s.afterFetch).y = s.y := by
  unfold State.afterFetch; split <;> simp
@[simp] theorem State.afterFetch_sp : (s.afterFetch).sp = s.sp := by
  unfold State.afterFetch; split <;> simp
@[simp] theorem State.afterFetch_p : (s.afterFetch).p = s.p := by
  unfold State.afterFetch; split <;> simp
@[simp] theorem State.afterFetch_pc : (s.afterFetch).pc = s.pc := by
  unfold State.afterFetch; split <;> simp
@[simp] theorem State.afterFetch_nmiPending : (s.afterFetch).nmiPending = s.nmiPending := by
  unfold State.afterFetch; split <;> simp
@[simp] theorem State.afterFetch_irqPending : (s.afterFetch).irqPending = s.irqPending := by
  unfold State.afterFetch; split <;> simp
@[simp] theorem State.afterFetch_mem : (s.afterFetch).mem = s.mem := by
  unfold State.afterFetch; split <;> simp
@[simp] theorem State.afterFetch_cfg : (s.afterFetch).cfg = s.cfg := by
  unfold State.afterFetch; split <;> simp
@[simp] theorem State.afterFetch_stepCycles : (s.afterFetch).stepCycles = s.stepCycles := by
  unfold State.afterFetch; split <;> simp

/-- On plain memory a fetch leaves plain memory. -/
theorem State.afterFetch_plain {s : State} (h : s.replies = []) : s.afterFetch.replies = [] := by
  unfold State.afterFetch; split <;> simp [h]

@[simp] theorem State.beginStep_eq : s.beginStep = s.setBus [] := rfl

end Sys2Proof.Machine
end

