-- ==== Sys2Proof/Laws/Operands.lean ====
section
/-! SUPPORT. What the resolver and the shapes of a handler can do, once, and what each meaning leaves in the control
fields. -/

namespace Sys2Proof.Machine

variable (s : State) (f : OperandForm)

/-! ## The resolver writes no register and no memory (40_step_and_addressing.md R74) -/

@[simp] theorem afterResolve_a : (afterResolve f s).a = s.a := by cases f <;> rfl
@[simp] theorem afterResolve_x : (afterResolve f s).x = s.x := by cases f <;> rfl
@[simp] theorem afterResolve_y : (afterResolve f s).y = s.y := by cases f <;> rfl
@[simp] theorem afterResolve_sp : (afterResolve f s).sp = s.sp := by cases f <;> rfl
@[simp] theorem afterResolve_p : (afterResolve f s).p = s.p := by cases f <;> rfl
@[simp] theorem afterResolve_nmiPending : (afterResolve f s).nmiPending = s.nmiPending := by cases f <;> rfl
@[simp] theorem afterResolve_irqPending : (afterResolve f s).irqPending = s.irqPending := by cases f <;> rfl
@[simp] theorem afterResolve_mem : (afterResolve f s).mem = s.mem := by cases f <;> rfl
@[simp] theorem afterResolve_cfg : (afterResolve f s).cfg = s.cfg := by cases f <;> rfl
@[simp] theorem afterResolve_stepCycles : (afterResolve f s).stepCycles = s.stepCycles := by cases f <;> rfl
@[simp] theorem afterResolve_pc : (afterResolve f s).pc = s.pc := by cases f <;> rfl

@[simp] theorem atHandler_a : (atHandler f s).a = s.a := by simp [atHandler]
@[simp] theorem atHandler_x : (atHandler f s).x = s.x := by simp [atHandler]
@[simp] theorem atHandler_y : (atHandler f s).y = s.y := by simp [atHandler]
@[simp] theorem atHandler_sp : (atHandler f s).sp = s.sp := by simp [atHandler]
@[simp] theorem atHandler_p : (atHandler f s).p = s.p := by simp [atHandler]
@[simp] theorem atHandler_nmiPending : (atHandler f s).nmiPending = s.nmiPending := by simp [atHandler]
@[simp] theorem atHandler_irqPending : (atHandler f s).irqPending = s.irqPending := by simp [atHandler]
@[simp] theorem atHandler_mem : (atHandler f s).mem = s.mem := by simp [atHandler]
@[simp] theorem atHandler_cfg : (atHandler f s).cfg = s.cfg := by simp [atHandler]
@[simp] theorem atHandler_stepCycles : (atHandler f s).stepCycles = s.stepCycles := by simp [atHandler]
@[simp] theorem atHandler_pc : (atHandler f s).pc = s.pc + BitVec.ofNat 16 f.length := by simp [atHandler]
@[simp] theorem atHandler_replies : (atHandler f s).replies = (afterResolve f s).replies := by simp [atHandler]

@[simp] theorem afterOperandByte_a : (afterOperandByte f s).a = s.a := by
  cases f <;> simp [afterOperandByte]
@[simp] theorem afterOperandByte_x : (afterOperandByte f s).x = s.x := by
  cases f <;> simp [afterOperandByte]
@[simp] theorem afterOperandByte_y : (afterOperandByte f s).y = s.y := by
  cases f <;> simp [afterOperandByte]
@[simp] theorem afterOperandByte_sp : (afterOperandByte f s).sp = s.sp := by
  cases f <;> simp [afterOperandByte]
@[simp] theorem afterOperandByte_p : (afterOperandByte f s).p = s.p := by
  cases f <;> simp [afterOperandByte]
@[simp] theorem afterOperandByte_nmiPending : (afterOperandByte f s).nmiPending = s.nmiPending := by
  cases f <;> simp [afterOperandByte]
@[simp] theorem afterOperandByte_irqPending : (afterOperandByte f s).irqPending = s.irqPending := by
  cases f <;> simp [afterOperandByte]
@[simp] theorem afterOperandByte_mem : (afterOperandByte f s).mem = s.mem := by
  cases f <;> simp [afterOperandByte]
@[simp] theorem afterOperandByte_cfg : (afterOperandByte f s).cfg = s.cfg := by
  cases f <;> simp [afterOperandByte]
@[simp] theorem afterOperandByte_stepCycles : (afterOperandByte f s).stepCycles = s.stepCycles := by
  cases f <;> simp [afterOperandByte]
@[simp] theorem afterOperandByte_pc : (afterOperandByte f s).pc = s.pc + BitVec.ofNat 16 f.length := by
  cases f <;> simp [afterOperandByte]

/-- On plain memory the resolver and the handler's read leave plain memory. -/
theorem afterResolve_plain {s : State} (h : s.replies = []) (f : OperandForm) : (afterResolve f s).replies = [] := by
  cases f <;> simp [afterResolve, h]

theorem afterOperandByte_plain {s : State} (h : s.replies = []) (f : OperandForm) :
    (afterOperandByte f s).replies = [] := by
  cases f <;> simp [afterOperandByte, atHandler, afterResolve, h]

/-- On plain memory a form other than ACC and IMM reads the cell at its effective address. -/
theorem operandByte_plain {s : State} (h : s.replies = []) {f : OperandForm} (ha : f.mode ≠ .acc) (hi : f.mode ≠ .imm) :
    operandByte f s = s.mem.get (resolve f s).addr := by
  have hp : (atHandler f s).memRead (resolve f s).addr = s.mem.get (resolve f s).addr := by
    rw [State.memRead_plain (by simp [afterResolve_plain h]), atHandler_mem]
  cases f <;> simp_all [operandByte, OperandForm.mode]

/-! ## The accesses of a handler that reads (20_memory.md R44) -/

/-- The handler's read is the one access after the resolver's, and ACC and IMM make none. -/
theorem afterOperandByte_bus : (afterOperandByte f s).bus =
    if f.mode = .acc ∨ f.mode = .imm then s.bus
    else (afterResolve f s).bus ++ [.read (resolve f s).addr (operandByte f s)] := by
  cases f <;> rfl

/-- A handler that reads its operand and changes registers makes no other access. -/
theorem runRead_bus {i : Instr} {act : Byte → State → State} {t : State} (hact : ∀ m r, (act m r).bus = r.bus)
    (h : runRead i f act s = .next t) : t.bus = (afterOperandByte f s).bus := by
  simp only [runRead, Host.Outcome.next.injEq] at h
  subst h
  exact hact _ _

/-- A handler of mode IMP that changes registers only makes no access. -/
theorem runImplied_bus {i : Instr} {act : State → State} {t : State} (hact : ∀ r, (act r).bus = r.bus)
    (h : runImplied i act s = .next t) : t.bus = s.bus := by
  simp only [runImplied, Host.Outcome.next.injEq] at h
  subst h
  exact hact _

/-! ## Writing a result back -/

section
variable (addr : Word) (r : Byte)
@[simp] theorem writeResult_x : (writeResult f addr r s).x = s.x := by cases f <;> rfl
@[simp] theorem writeResult_y : (writeResult f addr r s).y = s.y := by cases f <;> rfl
@[simp] theorem writeResult_sp : (writeResult f addr r s).sp = s.sp := by cases f <;> rfl
@[simp] theorem writeResult_p : (writeResult f addr r s).p = s.p := by cases f <;> rfl
@[simp] theorem writeResult_nmiPending : (writeResult f addr r s).nmiPending = s.nmiPending := by cases f <;> rfl
@[simp] theorem writeResult_irqPending : (writeResult f addr r s).irqPending = s.irqPending := by cases f <;> rfl
@[simp] theorem writeResult_cfg : (writeResult f addr r s).cfg = s.cfg := by cases f <;> rfl
@[simp] theorem writeResult_stepCycles : (writeResult f addr r s).stepCycles = s.stepCycles := by cases f <;> rfl
@[simp] theorem writeResult_pc : (writeResult f addr r s).pc = s.pc := by cases f <;> rfl
@[simp] theorem writeResult_a : (writeResult f addr r s).a = if f.mode = .acc then r else s.a := by
  cases f <;> simp [writeResult, OperandForm.mode]

theorem wf_writeResult {s : State} (h : s.mem.wf = true) (f : OperandForm) (addr : Word) (r : Byte) :
    (writeResult f addr r s).mem.wf = true := by
  cases f <;> first | exact h | exact State.wf_memWrite h _ _

/-- Writing a result back leaves every address but its own alone. -/
theorem get_writeResult_other {addr b : Word} (r : Byte) (h : b ≠ addr) :
    (writeResult f addr r s).mem.get b = s.mem.get b := by
  cases f <;> first | rfl | exact State.get_memWrite_other s r h
end

/-! ## What a handler of each shape leaves, for an invariant `I` of the state: the register changes of the rule keep it, so
the instruction does -/

/-- The parts of a state no instruction changes, and the two facts of the invariant. -/
structure Kept (s t : State) : Prop where
  nmi : t.nmiPending = s.nmiPending
  irq : t.irqPending = s.irqPending
  cfg : t.cfg = s.cfg
  wf  : s.mem.wf = true → t.mem.wf = true
  u   : flag .u s.p = true → flag .u t.p = true

theorem Kept.refl (s : State) : Kept s s := ⟨rfl, rfl, rfl, id, id⟩

theorem Kept.trans {s t r : State} (h : Kept s t) (g : Kept t r) : Kept s r :=
  ⟨g.nmi.trans h.nmi, g.irq.trans h.irq, g.cfg.trans h.cfg, g.wf ∘ h.wf, g.u ∘ h.u⟩

theorem kept_returns (i : Instr) (c : Bool) (hx : Nat) : Kept s (s.returns i c hx) := by
  constructor <;> simp

theorem kept_atHandler : Kept s (atHandler f s) := by constructor <;> simp

theorem kept_afterOperandByte : Kept s (afterOperandByte f s) := by constructor <;> simp

theorem runRead_kept {i : Instr} {act : Byte → State → State} {t : State} (hact : ∀ m r, Kept r (act m r))
    (h : runRead i f act s = .next t) : Kept s t := by
  simp only [runRead, Host.Outcome.next.injEq] at h
  subst h
  exact ((kept_afterOperandByte s f).trans (hact _ _)).trans (kept_returns _ _ _ _)

theorem runImplied_kept {i : Instr} {act : State → State} {t : State} (hact : ∀ r, Kept r (act r))
    (h : runImplied i act s = .next t) : Kept s t := by
  simp only [runImplied, Host.Outcome.next.injEq] at h
  subst h
  exact ((kept_atHandler s .imp).trans (hact _)).trans (kept_returns _ _ _ _)

theorem runStore_kept {i : Instr} {v : Byte} {t : State} (h : runStore i f v s = .next t) : Kept s t := by
  simp only [runStore, Host.Outcome.next.injEq] at h
  subst h
  refine ((kept_atHandler s f).trans ?_).trans (kept_returns _ _ _ _)
  constructor <;> simp
  exact fun hw => State.wf_memWrite (by simpa using hw) _ _

theorem runModify_kept {i : Instr} {result : Byte → Byte} {flags : Byte → Byte → Byte} {t : State}
    (hflags : ∀ v p, flag .u p = true → flag .u (flags v p) = true)
    (h : runModify i f result flags s = .next t) : Kept s t := by
  simp only [runModify, Host.Outcome.next.injEq] at h
  subst h
  refine ((kept_afterOperandByte s f).trans ?_).trans (kept_returns _ _ _ _)
  constructor <;> simp
  · exact fun hw => wf_writeResult (by simpa using hw) _ _ _
  · exact hflags _ _

theorem runBranch_kept {i : Instr} {cond : Bool} {disp : Byte} {t : State} (h : runBranch i cond disp s = .next t) :
    Kept s t := by
  unfold runBranch at h
  split at h <;> simp only [Host.Outcome.next.injEq] at h <;> subst h <;> constructor <;> simp

end Sys2Proof.Machine
end

