-- ==== Sys2Proof/Laws/Exec.lean ====
section
/-! SUPPORT. One lemma per meaning: an instruction changes no latch and no parameter, keeps the canonical form of memory and
keeps bit 5 of `P` at 1 (`Kept`). -/

namespace Sys2Proof.Machine

variable {s t : State} {f : OperandForm} {d : Byte}

/-! ## Read the operand, change registers -/

theorem execLda_kept (h : execLda f s = .next t) : Kept s t :=
  runRead_kept s f (fun _ _ => by constructor <;> simp) h

theorem execLdx_kept (h : execLdx f s = .next t) : Kept s t :=
  runRead_kept s f (fun _ _ => by constructor <;> simp) h

theorem execLdy_kept (h : execLdy f s = .next t) : Kept s t :=
  runRead_kept s f (fun _ _ => by constructor <;> simp) h

theorem execAnd_kept (h : execAnd f s = .next t) : Kept s t :=
  runRead_kept s f (fun _ _ => by constructor <;> simp) h

theorem execOra_kept (h : execOra f s = .next t) : Kept s t :=
  runRead_kept s f (fun _ _ => by constructor <;> simp) h

theorem execEor_kept (h : execEor f s = .next t) : Kept s t :=
  runRead_kept s f (fun _ _ => by constructor <;> simp) h

theorem execBit_kept (h : execBit f s = .next t) : Kept s t :=
  runRead_kept s f (fun _ _ => by constructor <;> simp) h

theorem execAdc_kept (h : execAdc f s = .next t) : Kept s t :=
  runRead_kept s f (fun _ _ => by constructor <;> simp) h

theorem execSbc_kept (h : execSbc f s = .next t) : Kept s t :=
  runRead_kept s f (fun _ _ => by constructor <;> simp) h

theorem execCmp_kept (h : execCmp f s = .next t) : Kept s t :=
  runRead_kept s f (fun _ _ => by constructor <;> simp) h

theorem execCpx_kept (h : execCpx f s = .next t) : Kept s t :=
  runRead_kept s f (fun _ _ => by constructor <;> simp) h

theorem execCpy_kept (h : execCpy f s = .next t) : Kept s t :=
  runRead_kept s f (fun _ _ => by constructor <;> simp) h

/-! ## Store -/

theorem execSta_kept (h : execSta f s = .next t) : Kept s t :=
  runStore_kept s f h

theorem execStx_kept (h : execStx f s = .next t) : Kept s t :=
  runStore_kept s f h

theorem execSty_kept (h : execSty f s = .next t) : Kept s t :=
  runStore_kept s f h

/-! ## Read, modify, write -/

theorem execInc_kept (h : execInc f s = .next t) : Kept s t :=
  runModify_kept s f (fun _ _ hp => by simp [hp]) h

theorem execDec_kept (h : execDec f s = .next t) : Kept s t :=
  runModify_kept s f (fun _ _ hp => by simp [hp]) h

theorem execAsl_kept (h : execAsl f s = .next t) : Kept s t :=
  runModify_kept s f (fun _ _ hp => by simp [hp]) h

theorem execLsr_kept (h : execLsr f s = .next t) : Kept s t :=
  runModify_kept s f (fun _ _ hp => by simp [hp]) h

theorem execRol_kept (h : execRol f s = .next t) : Kept s t :=
  runModify_kept s f (fun _ _ hp => by simp [hp]) h

theorem execRor_kept (h : execRor f s = .next t) : Kept s t :=
  runModify_kept s f (fun _ _ hp => by simp [hp]) h

/-! ## Branch -/

theorem execBpl_kept (h : execBpl d s = .next t) : Kept s t :=
  runBranch_kept s h

theorem execBmi_kept (h : execBmi d s = .next t) : Kept s t :=
  runBranch_kept s h

theorem execBvc_kept (h : execBvc d s = .next t) : Kept s t :=
  runBranch_kept s h

theorem execBvs_kept (h : execBvs d s = .next t) : Kept s t :=
  runBranch_kept s h

theorem execBcc_kept (h : execBcc d s = .next t) : Kept s t :=
  runBranch_kept s h

theorem execBcs_kept (h : execBcs d s = .next t) : Kept s t :=
  runBranch_kept s h

theorem execBne_kept (h : execBne d s = .next t) : Kept s t :=
  runBranch_kept s h

theorem execBeq_kept (h : execBeq d s = .next t) : Kept s t :=
  runBranch_kept s h

/-! ## No operand -/

theorem execTax_kept (h : execTax s = .next t) : Kept s t :=
  runImplied_kept s (fun _ => by constructor <;> simp) h

theorem execTay_kept (h : execTay s = .next t) : Kept s t :=
  runImplied_kept s (fun _ => by constructor <;> simp) h

theorem execTxa_kept (h : execTxa s = .next t) : Kept s t :=
  runImplied_kept s (fun _ => by constructor <;> simp) h

theorem execTya_kept (h : execTya s = .next t) : Kept s t :=
  runImplied_kept s (fun _ => by constructor <;> simp) h

theorem execTsx_kept (h : execTsx s = .next t) : Kept s t :=
  runImplied_kept s (fun _ => by constructor <;> simp) h

theorem execTxs_kept (h : execTxs s = .next t) : Kept s t :=
  runImplied_kept s (fun _ => by constructor <;> simp) h

theorem execPla_kept (h : execPla s = .next t) : Kept s t :=
  runImplied_kept s (fun _ => by constructor <;> simp) h

theorem execInx_kept (h : execInx s = .next t) : Kept s t :=
  runImplied_kept s (fun _ => by constructor <;> simp) h

theorem execIny_kept (h : execIny s = .next t) : Kept s t :=
  runImplied_kept s (fun _ => by constructor <;> simp) h

theorem execDex_kept (h : execDex s = .next t) : Kept s t :=
  runImplied_kept s (fun _ => by constructor <;> simp) h

theorem execDey_kept (h : execDey s = .next t) : Kept s t :=
  runImplied_kept s (fun _ => by constructor <;> simp) h

theorem execRts_kept (h : execRts s = .next t) : Kept s t :=
  runImplied_kept s (fun _ => by constructor <;> simp) h

theorem execClc_kept (h : execClc s = .next t) : Kept s t :=
  runImplied_kept s (fun _ => by constructor <;> simp) h

theorem execSec_kept (h : execSec s = .next t) : Kept s t :=
  runImplied_kept s (fun _ => by constructor <;> simp) h

theorem execCli_kept (h : execCli s = .next t) : Kept s t :=
  runImplied_kept s (fun _ => by constructor <;> simp) h

theorem execSei_kept (h : execSei s = .next t) : Kept s t :=
  runImplied_kept s (fun _ => by constructor <;> simp) h

theorem execCld_kept (h : execCld s = .next t) : Kept s t :=
  runImplied_kept s (fun _ => by constructor <;> simp) h

theorem execSed_kept (h : execSed s = .next t) : Kept s t :=
  runImplied_kept s (fun _ => by constructor <;> simp) h

theorem execClv_kept (h : execClv s = .next t) : Kept s t :=
  runImplied_kept s (fun _ => by constructor <;> simp) h

theorem execNop_kept (h : execNop s = .next t) : Kept s t :=
  runImplied_kept s (fun _ => by constructor <;> simp) h

theorem push_kept (r : State) (v : Byte) : Kept r (r.push v) := by
  constructor <;> first | (simp; done) | exact fun hw => State.wf_push hw _

theorem execPha_kept (h : execPha s = .next t) : Kept s t := runImplied_kept s (fun r => push_kept r _) h

theorem execPhp_kept (h : execPhp s = .next t) : Kept s t := runImplied_kept s (fun r => push_kept r _) h

theorem flag_u_pullP (policy : PlpBPolicy) (v p : Byte) (h : flag .u p = true) : flag .u (pullP policy v p) = true := by
  cases policy <;> simp [h]

theorem execPlp_kept (h : execPlp s = .next t) : Kept s t :=
  runImplied_kept s (fun r => by constructor <;> first | (simp; done) | exact flag_u_pullP _ _ _) h

theorem execRti_kept (h : execRti s = .next t) : Kept s t := by
  refine runImplied_kept s (fun r => ?_) h
  constructor <;> first | (simp; done) | (rw [State.returnFromException_p]; exact flag_u_pullP _ _ _)

theorem execBrk_kept (h : execBrk s = .next t) : Kept s t := by
  refine runImplied_kept s (fun r => ?_) h
  constructor <;> first | (simp; done) | exact fun hw => State.wf_takeException hw _ _ _

theorem execJmp_kept (h : execJmp f s = .next t) : Kept s t := by
  simp only [execJmp, Host.Outcome.next.injEq] at h
  subst h
  constructor <;> simp

theorem execJsr_kept {target : Word} (h : execJsr target s = .next t) : Kept s t := by
  simp only [execJsr, Host.Outcome.next.injEq] at h
  subst h
  constructor <;> simp
  exact fun hw => State.wf_pushWord (by simpa using hw) _

theorem execIll_kept {opcode : Byte} (h : execIll opcode s = .next t) : Kept s t := by
  unfold execIll at h
  split at h
  · exact runImplied_kept s (fun r => .refl r) h
  · cases h

/-- Every instruction, at once. -/
theorem exec_kept {i : Instr} (h : exec i s = .next t) : Kept s t := by
  cases i with
  | lda _ => exact execLda_kept h
  | ldx _ => exact execLdx_kept h
  | ldy _ => exact execLdy_kept h
  | sta _ => exact execSta_kept h
  | stx _ => exact execStx_kept h
  | sty _ => exact execSty_kept h
  | tax => exact execTax_kept h
  | tay => exact execTay_kept h
  | txa => exact execTxa_kept h
  | tya => exact execTya_kept h
  | tsx => exact execTsx_kept h
  | txs => exact execTxs_kept h
  | pha => exact execPha_kept h
  | php => exact execPhp_kept h
  | pla => exact execPla_kept h
  | plp => exact execPlp_kept h
  | and _ => exact execAnd_kept h
  | ora _ => exact execOra_kept h
  | eor _ => exact execEor_kept h
  | bit _ => exact execBit_kept h
  | adc _ => exact execAdc_kept h
  | sbc _ => exact execSbc_kept h
  | cmp _ => exact execCmp_kept h
  | cpx _ => exact execCpx_kept h
  | cpy _ => exact execCpy_kept h
  | inc _ => exact execInc_kept h
  | dec _ => exact execDec_kept h
  | inx => exact execInx_kept h
  | iny => exact execIny_kept h
  | dex => exact execDex_kept h
  | dey => exact execDey_kept h
  | asl _ => exact execAsl_kept h
  | lsr _ => exact execLsr_kept h
  | rol _ => exact execRol_kept h
  | ror _ => exact execRor_kept h
  | jmp _ => exact execJmp_kept h
  | jsr _ => exact execJsr_kept h
  | rts => exact execRts_kept h
  | bpl _ => exact execBpl_kept h
  | bmi _ => exact execBmi_kept h
  | bvc _ => exact execBvc_kept h
  | bvs _ => exact execBvs_kept h
  | bcc _ => exact execBcc_kept h
  | bcs _ => exact execBcs_kept h
  | bne _ => exact execBne_kept h
  | beq _ => exact execBeq_kept h
  | clc => exact execClc_kept h
  | sec => exact execSec_kept h
  | cli => exact execCli_kept h
  | sei => exact execSei_kept h
  | cld => exact execCld_kept h
  | sed => exact execSed_kept h
  | clv => exact execClv_kept h
  | nop => exact execNop_kept h
  | brk => exact execBrk_kept h
  | rti => exact execRti_kept h
  | ill _ => exact execIll_kept h

end Sys2Proof.Machine
end

