-- ==== Sys2Proof/Laws/Accesses.lean ====
section
/-! SUPPORT. An operation, a shape and a meaning reach memory and use up answers by the accesses they record, and by nothing
else (20_memory.md R43, R44). -/

namespace Sys2Proof.Machine

/-- `t` is reached from `s` by making the accesses of some list, as far as memory, the answers and the record go. -/
def Performs (s t : State) : Prop :=
  ∃ l, t.mem = (s.accesses l).mem ∧ t.replies = (s.accesses l).replies ∧ t.bus = (s.accesses l).bus ∧ t.bus = s.bus ++ l

variable {s t r : State} {f : OperandForm}

theorem accesses_append (s : State) (l m : List BusAccess) : s.accesses (l ++ m) = (s.accesses l).accesses m :=
  List.foldl_append

/-- What accesses do depends on memory, the answers and the record only. -/
theorem accesses_congr (l : List BusAccess) : ∀ {s t : State}, s.mem = t.mem → s.replies = t.replies → s.bus = t.bus →
    (s.accesses l).mem = (t.accesses l).mem ∧ (s.accesses l).replies = (t.accesses l).replies ∧
      (s.accesses l).bus = (t.accesses l).bus := by
  induction l with
  | nil => exact fun hm hr hb => ⟨hm, hr, hb⟩
  | cons a l ih =>
    intro s t hm hr hb
    have hw : s.writeLands = t.writeLands := by unfold State.writeLands; rw [hr]
    refine ih ?_ ?_ ?_ <;> cases a <;>
      simp [State.access, State.memWrite_mem, hw, State.memRead_congr hm hr, hm, hr, hb]

/-- Each access uses up one answer. -/
theorem accesses_replies (l : List BusAccess) : ∀ s : State, (s.accesses l).replies = s.replies.drop l.length := by
  induction l with
  | nil => intro s; rfl
  | cons a l ih =>
    intro s
    rw [State.accesses, List.foldl_cons, ← State.accesses, ih]
    cases a <;> simp [State.access]

/-- A state with the memory, answers and record of `s` is reached without an access. -/
theorem Performs.of_same (hm : t.mem = s.mem) (hr : t.replies = s.replies) (hb : t.bus = s.bus) : Performs s t :=
  ⟨[], hm, hr, hb, by simp [hb]⟩

theorem Performs.trans (h : Performs s t) (g : Performs t r) : Performs s r := by
  obtain ⟨l, hm, hr, hb, hl⟩ := h
  obtain ⟨m, gm, gr, gb, gl⟩ := g
  have hc := accesses_congr m hm hr hb
  exact ⟨l ++ m, by rw [accesses_append, gm, hc.1], by rw [accesses_append, gr, hc.2.1],
    by rw [accesses_append, gb, hc.2.2], by rw [gl, hl, List.append_assoc]⟩

/-- One answer for each recorded access. -/
theorem Performs.replies (h : Performs s t) (hb : s.bus = []) : t.replies = s.replies.drop t.bus.length := by
  obtain ⟨l, -, hr, -, hl⟩ := h
  rw [hl, hb, List.nil_append, hr, accesses_replies]

/-! ## The operations -/

theorem performs_memRead (s : State) (a : Word) : Performs s (s.afterMemRead a) :=
  ⟨[.read a (s.memRead a)], rfl, rfl, rfl, rfl⟩

theorem performs_memWrite (s : State) (a : Word) (v : Byte) : Performs s (s.memWrite a v) :=
  ⟨[.write a v], rfl, rfl, rfl, rfl⟩

theorem performs_memReadPair (s : State) (a b : Word) : Performs s (s.afterMemReadPair a b) :=
  (performs_memRead s a).trans (performs_memRead _ b)

theorem performs_push (s : State) (v : Byte) : Performs s (s.push v) :=
  (performs_memWrite s _ v).trans (.of_same rfl rfl rfl)

theorem performs_pushWord (s : State) (v : Word) : Performs s (s.pushWord v) :=
  (performs_push s _).trans (performs_push _ _)

theorem performs_afterPop (s : State) : Performs s s.afterPop :=
  Performs.trans (t := s.setSp (s.sp + 1)) (.of_same rfl rfl rfl) (performs_memRead _ _)

theorem performs_afterPopWord (s : State) : Performs s s.afterPopWord :=
  (performs_afterPop s).trans (performs_afterPop _)

theorem performs_takeException (s : State) (vector ret : Word) (copy : Byte) :
    Performs s (s.takeException vector ret copy) :=
  let pushed := (s.pushWord ret).push copy
  let masked := pushed.setP (setFlag .i true pushed.p)
  ((performs_pushWord s ret).trans (performs_push _ copy)).trans
    (Performs.trans (t := masked) (.of_same rfl rfl rfl)
      ((performs_memReadPair masked vector (nextAddr vector)).trans (.of_same rfl rfl rfl)))

theorem performs_returnFromException (s : State) : Performs s s.returnFromException :=
  let restored := s.afterPop.setP (pullP s.cfg.plpBPolicy s.popByte s.p)
  (performs_afterPop s).trans
    (Performs.trans (t := restored) (.of_same rfl rfl rfl)
      ((performs_afterPopWord restored).trans (.of_same rfl rfl rfl)))

theorem performs_interruptEntry (s : State) (k : InterruptKind) : Performs s (s.interruptEntry k) := by
  have h : Performs s (s.clearLatch k) := by cases k <;> exact .of_same rfl rfl rfl
  exact h.trans ((performs_takeException _ k.vector s.pc (pushedByInterrupt s.p)).trans (.of_same rfl rfl rfl))

theorem performs_afterFetch (s : State) : Performs s s.afterFetch := by
  unfold State.afterFetch
  dsimp only
  split
  · exact performs_memRead s _
  · exact (performs_memRead s _).trans (performs_memRead _ _)
  · exact ((performs_memRead s _).trans (performs_memRead _ _)).trans (performs_memRead _ _)

/-! ## The shapes of a handler -/

theorem performs_atHandler (s : State) (f : OperandForm) : Performs s (atHandler f s) := by
  refine Performs.trans (t := afterResolve f s) ?_ (.of_same rfl rfl rfl)
  cases f <;> first | exact .of_same rfl rfl rfl | exact performs_memReadPair s _ _

theorem performs_afterOperandByte (s : State) (f : OperandForm) : Performs s (afterOperandByte f s) := by
  refine (performs_atHandler s f).trans ?_
  cases f <;> first | exact .of_same rfl rfl rfl | exact performs_memRead _ _

theorem runRead_performs {i : Instr} {act : Byte → State → State} (h : runRead i f act s = .next t)
    (hact : ∀ m r, Performs r (act m r)) : Performs s t := by
  simp only [runRead, Host.Outcome.next.injEq] at h
  subst h
  exact (performs_afterOperandByte s f).trans ((hact _ _).trans (.of_same rfl rfl rfl))

theorem runImplied_performs {i : Instr} {act : State → State} (h : runImplied i act s = .next t)
    (hact : ∀ r, Performs r (act r)) : Performs s t := by
  simp only [runImplied, Host.Outcome.next.injEq] at h
  subst h
  exact (performs_atHandler s .imp).trans ((hact _).trans (.of_same rfl rfl rfl))

theorem runStore_performs {i : Instr} {v : Byte} (h : runStore i f v s = .next t) : Performs s t := by
  simp only [runStore, Host.Outcome.next.injEq] at h
  subst h
  exact (performs_atHandler s f).trans ((performs_memWrite _ _ v).trans (.of_same rfl rfl rfl))

theorem runModify_performs {i : Instr} {result : Byte → Byte} {flags : Byte → Byte → Byte}
    (h : runModify i f result flags s = .next t) : Performs s t := by
  simp only [runModify, Host.Outcome.next.injEq] at h
  subst h
  refine (performs_afterOperandByte s f).trans (Performs.trans (t := writeResult f _ _ _) ?_ (.of_same rfl rfl rfl))
  cases f <;> first | exact .of_same rfl rfl rfl | exact performs_memWrite _ _ _

theorem runBranch_performs {i : Instr} {cond : Bool} {disp : Byte} (h : runBranch i cond disp s = .next t) :
    Performs s t := by
  unfold runBranch at h
  dsimp only at h
  split at h <;> simp only [Host.Outcome.next.injEq] at h <;> subst h <;>
    exact (performs_atHandler s _).trans (.of_same rfl rfl rfl)

/-- Every meaning. -/
theorem exec_performs {i : Instr} (h : exec i s = .next t) : Performs s t := by
  cases i
  case ill op =>
    change execIll op s = .next t at h
    unfold execIll at h
    split at h
    · exact runImplied_performs h fun _ => .of_same rfl rfl rfl
    · cases h
  case pha => exact runImplied_performs (show execPha s = _ from h) fun r => performs_push r _
  case php => exact runImplied_performs (show execPhp s = _ from h) fun r => performs_push r _
  case pla => exact runImplied_performs (show execPla s = _ from h) fun r => (performs_afterPop r).trans (.of_same rfl rfl rfl)
  case plp => exact runImplied_performs (show execPlp s = _ from h) fun r => (performs_afterPop r).trans (.of_same rfl rfl rfl)
  case brk => exact runImplied_performs (show execBrk s = _ from h) fun r => performs_takeException r _ _ _
  case rti => exact runImplied_performs (show execRti s = _ from h) performs_returnFromException
  case rts => exact runImplied_performs (show execRts s = _ from h) fun r => (performs_afterPopWord r).trans (.of_same rfl rfl rfl)
  case jmp f =>
    simp only [exec, execJmp, Host.Outcome.next.injEq] at h
    subst h
    exact (performs_atHandler s f).trans (.of_same rfl rfl rfl)
  case jsr target =>
    simp only [exec, execJsr, Host.Outcome.next.injEq] at h
    subst h
    exact (performs_atHandler s _).trans ((performs_pushWord _ _).trans (.of_same rfl rfl rfl))
  case lda f => exact runRead_performs (show execLda f s = _ from h) fun _ _ => .of_same rfl rfl rfl
  case ldx f => exact runRead_performs (show execLdx f s = _ from h) fun _ _ => .of_same rfl rfl rfl
  case ldy f => exact runRead_performs (show execLdy f s = _ from h) fun _ _ => .of_same rfl rfl rfl
  case and f => exact runRead_performs (show execAnd f s = _ from h) fun _ _ => .of_same rfl rfl rfl
  case ora f => exact runRead_performs (show execOra f s = _ from h) fun _ _ => .of_same rfl rfl rfl
  case eor f => exact runRead_performs (show execEor f s = _ from h) fun _ _ => .of_same rfl rfl rfl
  case bit f => exact runRead_performs (show execBit f s = _ from h) fun _ _ => .of_same rfl rfl rfl
  case adc f => exact runRead_performs (show execAdc f s = _ from h) fun _ _ => .of_same rfl rfl rfl
  case sbc f => exact runRead_performs (show execSbc f s = _ from h) fun _ _ => .of_same rfl rfl rfl
  case cmp f => exact runRead_performs (show execCmp f s = _ from h) fun _ _ => .of_same rfl rfl rfl
  case cpx f => exact runRead_performs (show execCpx f s = _ from h) fun _ _ => .of_same rfl rfl rfl
  case cpy f => exact runRead_performs (show execCpy f s = _ from h) fun _ _ => .of_same rfl rfl rfl
  case sta f => exact runStore_performs (show execSta f s = _ from h)
  case stx f => exact runStore_performs (show execStx f s = _ from h)
  case sty f => exact runStore_performs (show execSty f s = _ from h)
  case inc f => exact runModify_performs (show execInc f s = _ from h)
  case dec f => exact runModify_performs (show execDec f s = _ from h)
  case asl f => exact runModify_performs (show execAsl f s = _ from h)
  case lsr f => exact runModify_performs (show execLsr f s = _ from h)
  case rol f => exact runModify_performs (show execRol f s = _ from h)
  case ror f => exact runModify_performs (show execRor f s = _ from h)
  case bpl d => exact runBranch_performs (show execBpl d s = _ from h)
  case bmi d => exact runBranch_performs (show execBmi d s = _ from h)
  case bvc d => exact runBranch_performs (show execBvc d s = _ from h)
  case bvs d => exact runBranch_performs (show execBvs d s = _ from h)
  case bcc d => exact runBranch_performs (show execBcc d s = _ from h)
  case bcs d => exact runBranch_performs (show execBcs d s = _ from h)
  case bne d => exact runBranch_performs (show execBne d s = _ from h)
  case beq d => exact runBranch_performs (show execBeq d s = _ from h)
  case tax => exact runImplied_performs (show execTax s = _ from h) fun _ => .of_same rfl rfl rfl
  case tay => exact runImplied_performs (show execTay s = _ from h) fun _ => .of_same rfl rfl rfl
  case txa => exact runImplied_performs (show execTxa s = _ from h) fun _ => .of_same rfl rfl rfl
  case tya => exact runImplied_performs (show execTya s = _ from h) fun _ => .of_same rfl rfl rfl
  case tsx => exact runImplied_performs (show execTsx s = _ from h) fun _ => .of_same rfl rfl rfl
  case txs => exact runImplied_performs (show execTxs s = _ from h) fun _ => .of_same rfl rfl rfl
  case inx => exact runImplied_performs (show execInx s = _ from h) fun _ => .of_same rfl rfl rfl
  case iny => exact runImplied_performs (show execIny s = _ from h) fun _ => .of_same rfl rfl rfl
  case dex => exact runImplied_performs (show execDex s = _ from h) fun _ => .of_same rfl rfl rfl
  case dey => exact runImplied_performs (show execDey s = _ from h) fun _ => .of_same rfl rfl rfl
  case clc => exact runImplied_performs (show execClc s = _ from h) fun _ => .of_same rfl rfl rfl
  case sec => exact runImplied_performs (show execSec s = _ from h) fun _ => .of_same rfl rfl rfl
  case cli => exact runImplied_performs (show execCli s = _ from h) fun _ => .of_same rfl rfl rfl
  case sei => exact runImplied_performs (show execSei s = _ from h) fun _ => .of_same rfl rfl rfl
  case cld => exact runImplied_performs (show execCld s = _ from h) fun _ => .of_same rfl rfl rfl
  case sed => exact runImplied_performs (show execSed s = _ from h) fun _ => .of_same rfl rfl rfl
  case clv => exact runImplied_performs (show execClv s = _ from h) fun _ => .of_same rfl rfl rfl
  case nop => exact runImplied_performs (show execNop s = _ from h) fun _ => .of_same rfl rfl rfl

end Sys2Proof.Machine
end

