-- ==== Sys2Proof/Laws/PerInstr.lean ====
section
/-! SUPPORT. Facts about every instruction as syntax, one lemma per constructor. -/

namespace Sys2Proof.Laws

/-- Every illegal byte has the entry `ILL` (spec/30_encoding.md R58), by evaluation of the table. -/
theorem opcodeInfo_illegal : ∀ op : Byte, illegalOpcodes.contains op = true → opcodeInfo op = illegalInfo := by
  set_option maxRecDepth 20000 in decide

/-- A well-formed instruction is encoded in as many bytes as the table gives its opcode, and the table's length is that of
the mode (R52, R62). -/
def EncodedLength.Statement (i : Instr) : Prop :=
  i.wellFormed = true →
    (encode i).length = (Machine.tableEntry i).length ∧ (Machine.tableEntry i).length = i.form.length

theorem EncodedLength.lda (f : OperandForm) : EncodedLength.Statement (.lda f) := by
  intro h
  cases f <;> first | exact ⟨rfl, rfl⟩ | exact absurd h Bool.false_ne_true

theorem EncodedLength.ldx (f : OperandForm) : EncodedLength.Statement (.ldx f) := by
  intro h
  cases f <;> first | exact ⟨rfl, rfl⟩ | exact absurd h Bool.false_ne_true

theorem EncodedLength.ldy (f : OperandForm) : EncodedLength.Statement (.ldy f) := by
  intro h
  cases f <;> first | exact ⟨rfl, rfl⟩ | exact absurd h Bool.false_ne_true

theorem EncodedLength.sta (f : OperandForm) : EncodedLength.Statement (.sta f) := by
  intro h
  cases f <;> first | exact ⟨rfl, rfl⟩ | exact absurd h Bool.false_ne_true

theorem EncodedLength.stx (f : OperandForm) : EncodedLength.Statement (.stx f) := by
  intro h
  cases f <;> first | exact ⟨rfl, rfl⟩ | exact absurd h Bool.false_ne_true

theorem EncodedLength.sty (f : OperandForm) : EncodedLength.Statement (.sty f) := by
  intro h
  cases f <;> first | exact ⟨rfl, rfl⟩ | exact absurd h Bool.false_ne_true

theorem EncodedLength.tax : EncodedLength.Statement .tax := fun _ => ⟨rfl, rfl⟩

theorem EncodedLength.tay : EncodedLength.Statement .tay := fun _ => ⟨rfl, rfl⟩

theorem EncodedLength.txa : EncodedLength.Statement .txa := fun _ => ⟨rfl, rfl⟩

theorem EncodedLength.tya : EncodedLength.Statement .tya := fun _ => ⟨rfl, rfl⟩

theorem EncodedLength.tsx : EncodedLength.Statement .tsx := fun _ => ⟨rfl, rfl⟩

theorem EncodedLength.txs : EncodedLength.Statement .txs := fun _ => ⟨rfl, rfl⟩

theorem EncodedLength.pha : EncodedLength.Statement .pha := fun _ => ⟨rfl, rfl⟩

theorem EncodedLength.php : EncodedLength.Statement .php := fun _ => ⟨rfl, rfl⟩

theorem EncodedLength.pla : EncodedLength.Statement .pla := fun _ => ⟨rfl, rfl⟩

theorem EncodedLength.plp : EncodedLength.Statement .plp := fun _ => ⟨rfl, rfl⟩

theorem EncodedLength.and (f : OperandForm) : EncodedLength.Statement (.and f) := by
  intro h
  cases f <;> first | exact ⟨rfl, rfl⟩ | exact absurd h Bool.false_ne_true

theorem EncodedLength.ora (f : OperandForm) : EncodedLength.Statement (.ora f) := by
  intro h
  cases f <;> first | exact ⟨rfl, rfl⟩ | exact absurd h Bool.false_ne_true

theorem EncodedLength.eor (f : OperandForm) : EncodedLength.Statement (.eor f) := by
  intro h
  cases f <;> first | exact ⟨rfl, rfl⟩ | exact absurd h Bool.false_ne_true

theorem EncodedLength.bit (f : OperandForm) : EncodedLength.Statement (.bit f) := by
  intro h
  cases f <;> first | exact ⟨rfl, rfl⟩ | exact absurd h Bool.false_ne_true

theorem EncodedLength.adc (f : OperandForm) : EncodedLength.Statement (.adc f) := by
  intro h
  cases f <;> first | exact ⟨rfl, rfl⟩ | exact absurd h Bool.false_ne_true

theorem EncodedLength.sbc (f : OperandForm) : EncodedLength.Statement (.sbc f) := by
  intro h
  cases f <;> first | exact ⟨rfl, rfl⟩ | exact absurd h Bool.false_ne_true

theorem EncodedLength.cmp (f : OperandForm) : EncodedLength.Statement (.cmp f) := by
  intro h
  cases f <;> first | exact ⟨rfl, rfl⟩ | exact absurd h Bool.false_ne_true

theorem EncodedLength.cpx (f : OperandForm) : EncodedLength.Statement (.cpx f) := by
  intro h
  cases f <;> first | exact ⟨rfl, rfl⟩ | exact absurd h Bool.false_ne_true

theorem EncodedLength.cpy (f : OperandForm) : EncodedLength.Statement (.cpy f) := by
  intro h
  cases f <;> first | exact ⟨rfl, rfl⟩ | exact absurd h Bool.false_ne_true

theorem EncodedLength.inc (f : OperandForm) : EncodedLength.Statement (.inc f) := by
  intro h
  cases f <;> first | exact ⟨rfl, rfl⟩ | exact absurd h Bool.false_ne_true

theorem EncodedLength.dec (f : OperandForm) : EncodedLength.Statement (.dec f) := by
  intro h
  cases f <;> first | exact ⟨rfl, rfl⟩ | exact absurd h Bool.false_ne_true

theorem EncodedLength.inx : EncodedLength.Statement .inx := fun _ => ⟨rfl, rfl⟩

theorem EncodedLength.iny : EncodedLength.Statement .iny := fun _ => ⟨rfl, rfl⟩

theorem EncodedLength.dex : EncodedLength.Statement .dex := fun _ => ⟨rfl, rfl⟩

theorem EncodedLength.dey : EncodedLength.Statement .dey := fun _ => ⟨rfl, rfl⟩

theorem EncodedLength.asl (f : OperandForm) : EncodedLength.Statement (.asl f) := by
  intro h
  cases f <;> first | exact ⟨rfl, rfl⟩ | exact absurd h Bool.false_ne_true

theorem EncodedLength.lsr (f : OperandForm) : EncodedLength.Statement (.lsr f) := by
  intro h
  cases f <;> first | exact ⟨rfl, rfl⟩ | exact absurd h Bool.false_ne_true

theorem EncodedLength.rol (f : OperandForm) : EncodedLength.Statement (.rol f) := by
  intro h
  cases f <;> first | exact ⟨rfl, rfl⟩ | exact absurd h Bool.false_ne_true

theorem EncodedLength.ror (f : OperandForm) : EncodedLength.Statement (.ror f) := by
  intro h
  cases f <;> first | exact ⟨rfl, rfl⟩ | exact absurd h Bool.false_ne_true

theorem EncodedLength.jmp (f : OperandForm) : EncodedLength.Statement (.jmp f) := by
  intro h
  cases f <;> first | exact ⟨rfl, rfl⟩ | exact absurd h Bool.false_ne_true

theorem EncodedLength.jsr (target : Word) : EncodedLength.Statement (.jsr target) := fun _ => ⟨rfl, rfl⟩

theorem EncodedLength.rts : EncodedLength.Statement .rts := fun _ => ⟨rfl, rfl⟩

theorem EncodedLength.bpl (disp : Byte) : EncodedLength.Statement (.bpl disp) := fun _ => ⟨rfl, rfl⟩

theorem EncodedLength.bmi (disp : Byte) : EncodedLength.Statement (.bmi disp) := fun _ => ⟨rfl, rfl⟩

theorem EncodedLength.bvc (disp : Byte) : EncodedLength.Statement (.bvc disp) := fun _ => ⟨rfl, rfl⟩

theorem EncodedLength.bvs (disp : Byte) : EncodedLength.Statement (.bvs disp) := fun _ => ⟨rfl, rfl⟩

theorem EncodedLength.bcc (disp : Byte) : EncodedLength.Statement (.bcc disp) := fun _ => ⟨rfl, rfl⟩

theorem EncodedLength.bcs (disp : Byte) : EncodedLength.Statement (.bcs disp) := fun _ => ⟨rfl, rfl⟩

theorem EncodedLength.bne (disp : Byte) : EncodedLength.Statement (.bne disp) := fun _ => ⟨rfl, rfl⟩

theorem EncodedLength.beq (disp : Byte) : EncodedLength.Statement (.beq disp) := fun _ => ⟨rfl, rfl⟩

theorem EncodedLength.clc : EncodedLength.Statement .clc := fun _ => ⟨rfl, rfl⟩

theorem EncodedLength.sec : EncodedLength.Statement .sec := fun _ => ⟨rfl, rfl⟩

theorem EncodedLength.cli : EncodedLength.Statement .cli := fun _ => ⟨rfl, rfl⟩

theorem EncodedLength.sei : EncodedLength.Statement .sei := fun _ => ⟨rfl, rfl⟩

theorem EncodedLength.cld : EncodedLength.Statement .cld := fun _ => ⟨rfl, rfl⟩

theorem EncodedLength.sed : EncodedLength.Statement .sed := fun _ => ⟨rfl, rfl⟩

theorem EncodedLength.clv : EncodedLength.Statement .clv := fun _ => ⟨rfl, rfl⟩

theorem EncodedLength.nop : EncodedLength.Statement .nop := fun _ => ⟨rfl, rfl⟩

theorem EncodedLength.brk : EncodedLength.Statement .brk := fun _ => ⟨rfl, rfl⟩

theorem EncodedLength.rti : EncodedLength.Statement .rti := fun _ => ⟨rfl, rfl⟩

theorem EncodedLength.ill (opcode : Byte) : EncodedLength.Statement (.ill opcode) := by
  intro h
  have he : Machine.tableEntry (.ill opcode) = illegalInfo := opcodeInfo_illegal opcode h
  rw [he]
  exact ⟨rfl, rfl⟩

end Sys2Proof.Laws
end

