-- ==== Sys2Proof/Laws/Decode.lean ====
section
/-! SUPPORT. What the decoder assembles: the instruction it makes of an opcode byte is a well-formed one with that opcode,
whose operand is the mode's form of the bytes that follow. -/

namespace Sys2Proof.Laws

/-- The table's length is that of the mode (R52, R62). -/
theorem opcodeInfo_length : ∀ op : Byte, (opcodeInfo op).length = (opcodeInfo op).mode.length := by
  set_option maxRecDepth 20000 in decide

/-- A length is 1, 2 or 3 (R50). -/
theorem opcodeInfo_length_cases (op : Byte) :
    (opcodeInfo op).length = 1 ∨ (opcodeInfo op).length = 2 ∨ (opcodeInfo op).length = 3 := by
  rw [opcodeInfo_length]
  cases (opcodeInfo op).mode <;> simp [Mode.length]

/-- The form of a mode has the mode, so its length too (R53). -/
theorem operandForm_mode (m : Mode) (b1 b2 : Byte) : (operandForm m b1 b2).mode = m := by
  cases m <;> rfl

/-- The bytes of the form of a mode are the bytes it was made of (R53). -/
theorem operandForm_bytes (m : Mode) (b1 b2 : Byte) : (operandForm m b1 b2).bytes = [b1, b2].take (m.length - 1) := by
  cases m <;> simp [operandForm, OperandForm.bytes, Mode.length]

/-! ## A row of the encoder's tables depends on the mode of the operand only (R51) -/

section
variable (m : Mode) (b1 b2 c0 c1 c2 c3 c4 c5 c6 c7 : Byte)
theorem eightModeOpcode_bytes : eightModeOpcode c0 c1 c2 c3 c4 c5 c6 c7 (operandForm m b1 b2) = eightModeOpcode c0 c1 c2 c3 c4 c5 c6 c7 (operandForm m 0 0) := by
  cases m <;> rfl
theorem shiftOpcode_bytes : shiftOpcode c0 c1 c2 c3 c4 (operandForm m b1 b2) = shiftOpcode c0 c1 c2 c3 c4 (operandForm m 0 0) := by
  cases m <;> rfl
theorem compareOpcode_bytes : compareOpcode c0 c1 c2 (operandForm m b1 b2) = compareOpcode c0 c1 c2 (operandForm m 0 0) := by
  cases m <;> rfl
theorem incDecOpcode_bytes : incDecOpcode c0 c1 c2 c3 (operandForm m b1 b2) = incDecOpcode c0 c1 c2 c3 (operandForm m 0 0) := by
  cases m <;> rfl
theorem ldxOpcode_bytes : ldxOpcode (operandForm m b1 b2) = ldxOpcode (operandForm m 0 0) := by
  cases m <;> rfl
theorem ldyOpcode_bytes : ldyOpcode (operandForm m b1 b2) = ldyOpcode (operandForm m 0 0) := by
  cases m <;> rfl
theorem staOpcode_bytes : staOpcode (operandForm m b1 b2) = staOpcode (operandForm m 0 0) := by
  cases m <;> rfl
theorem stxOpcode_bytes : stxOpcode (operandForm m b1 b2) = stxOpcode (operandForm m 0 0) := by
  cases m <;> rfl
theorem styOpcode_bytes : styOpcode (operandForm m b1 b2) = styOpcode (operandForm m 0 0) := by
  cases m <;> rfl
theorem bitOpcode_bytes : bitOpcode (operandForm m b1 b2) = bitOpcode (operandForm m 0 0) := by
  cases m <;> rfl
theorem jmpOpcode_bytes : jmpOpcode (operandForm m b1 b2) = jmpOpcode (operandForm m 0 0) := by
  cases m <;> rfl
end

/-- The opcode of an assembled instruction does not depend on its operand bytes, nor does its mode (R51). -/
theorem assemble_bytes_opcode (op b1 b2 : Byte) : opcodeOf (assemble op b1 b2) = opcodeOf (assemble op 0 0) := by
  simp only [assemble]
  generalize opcodeInfo op = e
  obtain ⟨m, mode, _, _, _⟩ := e
  cases m <;>
    simp only [opcodeOf, eightModeOpcode_bytes mode b1 b2, shiftOpcode_bytes mode b1 b2, compareOpcode_bytes mode b1 b2, incDecOpcode_bytes mode b1 b2, ldxOpcode_bytes mode b1 b2, ldyOpcode_bytes mode b1 b2, staOpcode_bytes mode b1 b2, stxOpcode_bytes mode b1 b2, styOpcode_bytes mode b1 b2, bitOpcode_bytes mode b1 b2, jmpOpcode_bytes mode b1 b2]

theorem assemble_bytes_wellFormed (op b1 b2 : Byte) :
    (assemble op b1 b2).wellFormed = (assemble op 0 0).wellFormed := by
  simp only [assemble]
  generalize opcodeInfo op = e
  obtain ⟨m, mode, _, _, _⟩ := e
  cases m <;> simp only [Instr.wellFormed, operandForm_mode]

theorem assemble_bytes_mode (op b1 b2 : Byte) : (assemble op b1 b2).form.mode = (assemble op 0 0).form.mode := by
  simp only [assemble]
  generalize opcodeInfo op = e
  obtain ⟨m, mode, _, _, _⟩ := e
  cases m <;> first | (simp only [Instr.form, operandForm_mode]; done) | rfl

theorem assemble_zero : ∀ op : Byte, opcodeOf (assemble op 0 0) = some op ∧ (assemble op 0 0).wellFormed = true ∧
    (assemble op 0 0).form.mode = (opcodeInfo op).mode := by
  set_option maxRecDepth 20000 in decide

/-- The decoder's instruction has the opcode it was read from, and is well formed. -/
theorem assemble_opcode (op b1 b2 : Byte) :
    opcodeOf (assemble op b1 b2) = some op ∧ (assemble op b1 b2).wellFormed = true := by
  exact ⟨(assemble_bytes_opcode op b1 b2).trans (assemble_zero op).1,
    (assemble_bytes_wellFormed op b1 b2).trans (assemble_zero op).2.1⟩

/-- Its operand is the mode's form of the operand bytes (R53). -/
theorem assemble_form (op b1 b2 : Byte) : (assemble op b1 b2).form = operandForm (opcodeInfo op).mode b1 b2 := by
  have hm := (assemble_bytes_mode op b1 b2).trans (assemble_zero op).2.2
  revert hm
  simp only [assemble]
  generalize opcodeInfo op = e
  obtain ⟨m, mode, _, _, _⟩ := e
  cases m <;> first | exact fun _ => rfl | (cases mode <;> intro hm <;> first | rfl | cases hm)

/-- An illegal byte is assembled as `ILL` with that byte, and no other byte is (R58). -/
theorem assemble_illegal {op : Byte} (b1 b2 : Byte) (h : op ∈ illegalOpcodes) : assemble op b1 b2 = .ill op := by
  rw [assemble, opcodeInfo_illegal op (by simpa using h)]
  rfl

theorem illegal_of_assemble {op b1 b2 r : Byte} (h : assemble op b1 b2 = .ill r) : r = op ∧ op ∈ illegalOpcodes := by
  obtain ⟨ho, hw⟩ := assemble_opcode op b1 b2
  rw [h] at ho hw
  simp only [opcodeOf, Option.some.injEq] at ho
  subst ho
  exact ⟨rfl, by simpa [Instr.wellFormed] using hw⟩

end Sys2Proof.Laws
end

