-- ==== Sys2Proof/Laws/Step.lean ====
section
/-! SUPPORT. What a Step can do, once, and what it fetches. -/

namespace Sys2Proof.Machine

/-- The latches and `P.I` at the start of the Step decide whether it enters an interrupt (60_exceptions.md R218). -/
@[simp] theorem State.pendingInterrupt_setBus (s : State) (l : List BusAccess) :
    (s.setBus l).pendingInterrupt = s.pendingInterrupt := rfl

/-- A Step that enters an interrupt. -/
theorem step_interrupt {s : State} {k : InterruptKind} (hl : s.launchable = true) (hk : s.pendingInterrupt = some k) :
    step s = .next ((s.setBus []).interruptEntry k) := by
  simp [step, hl, hk]

/-- A Step that runs an instruction. -/
theorem step_instruction {s : State} (hl : s.launchable = true) (hk : s.pendingInterrupt = none) :
    step s = exec (s.setBus []).fetch (s.setBus []).afterFetch := by
  simp [step, hl, hk]

/-- A launch state with bit 5 of `P` at 0 is refused (10_state.md R27, decision D20). -/
theorem step_refused {s : State} (hl : s.launchable = false) : step s = .refused .unusedBitClear := by
  simp [step, hl]

/-- If a Step answers a next state, it entered an interrupt or ran an instruction. -/
theorem step_next_cases {s t : State} (h : step s = .next t) :
    s.launchable = true ∧
      ((∃ k, s.pendingInterrupt = some k ∧ t = (s.setBus []).interruptEntry k) ∨
        (s.pendingInterrupt = none ∧ exec (s.setBus []).fetch (s.setBus []).afterFetch = .next t)) := by
  cases hl : s.launchable with
  | false => rw [step_refused hl] at h; cases h
  | true =>
    refine ⟨rfl, ?_⟩
    cases hk : s.pendingInterrupt with
    | some k =>
      rw [step_interrupt hl hk] at h
      cases h
      exact .inl ⟨k, rfl, rfl⟩
    | none =>
      rw [step_instruction hl hk] at h
      exact .inr ⟨rfl, h⟩

/-- The fetched instruction has the opcode byte at `PC`, and is well formed (R71, R72). -/
theorem fetch_opcode (s : State) : opcodeOf s.fetch = some (s.memRead s.pc) ∧ s.fetch.wellFormed = true := by
  unfold State.fetch
  dsimp only
  split <;> exact Laws.assemble_opcode _ _ _

/-- Only an illegal byte at `PC` is fetched as `ILL`, with that byte (30_encoding.md R58). -/
theorem fetch_illegal {s : State} : s.memRead s.pc ∈ illegalOpcodes ↔ ∃ op, s.fetch = .ill op := by
  constructor
  · intro h
    refine ⟨s.memRead s.pc, ?_⟩
    unfold State.fetch
    dsimp only
    split <;> exact Laws.assemble_illegal _ _ h
  · rintro ⟨op, h⟩
    unfold State.fetch at h
    dsimp only at h
    split at h <;> exact (Laws.illegal_of_assemble h).2

/-- What the fetch leaves: `PC` has not moved, and only reads were made. -/
theorem kept_afterFetch (s : State) : Kept s s.afterFetch := by
  constructor <;> simp

/-- The fetch takes the capability's answers (20_memory.md R31): an opcode byte and two operand bytes from a device are the
instruction, whatever memory holds, and the instruction runs on the answers after them. -/
theorem step_fetches_answers {s : State} {op b1 b2 : Byte} {rs : List BusReply} (hl : s.launchable = true)
    (hk : s.pendingInterrupt = none) (hr : s.replies = .device op :: .device b1 :: .device b2 :: rs)
    (hm : (opcodeInfo op).mode.length = 3) :
    step s = exec (assemble op b1 b2)
      ((s.setReplies rs).setBus [.read s.pc op, .read (s.pc + 1) b1, .read (s.pc + 2) b2]) := by
  have h0 : (s.setBus []).memRead s.pc = op := by simp [State.memRead, hr]
  have hq : (opcodeInfo op).length = 3 := (Laws.opcodeInfo_length op).trans hm
  rw [step_instruction hl hk]
  simp only [State.fetch, State.afterFetch, State.setBus_pc, h0, hq]
  congr 1
  · simp [State.memRead, hr]
  · simp [State.afterMemRead, State.setBus, State.setReplies, State.memRead, hr]

end Sys2Proof.Machine
end

