-- ==== Sys2Proof/Tests/Slice0.lean ====
section
/-! SUPPORT. Tests. Expected values come from the spec: the encodings from spec/30_encoding.md R56, the steps from the vectors of
spec/95_test_vectors.md (each test names its vector) or from the example of the rule named. Then, for every statement of
Certificates/Slice0/Obligations.lean that has hypotheses, a state and operands that meet them. -/

namespace Sys2Proof.Tests

open Sys2Proof Sys2Proof.Machine

/-! ## WellFormed: each check refuses a pair the table does not have (40_step_and_addressing.md R94) -/

theorem test_wellFormed_refuses_eight_mode : ∀ i ∈ [Instr.lda .acc, .and .imp, .ora (.zpy 1), .eor (.rel 1), .adc (.ind 1), .sbc .acc, .cmp .imp], i.wellFormed = false := by
  decide

theorem test_wellFormed_refuses_ldx : ∀ i ∈ [Instr.ldx (.zpx 1), .ldx (.abx 1)], i.wellFormed = false := by
  decide

theorem test_wellFormed_refuses_ldy : ∀ i ∈ [Instr.ldy (.zpy 1), .ldy (.aby 1)], i.wellFormed = false := by
  decide

theorem test_wellFormed_refuses_sta : ∀ i ∈ [Instr.sta (.imm 1), .sta .acc], i.wellFormed = false := by
  decide

theorem test_wellFormed_refuses_stx : ∀ i ∈ [Instr.stx (.imm 1), .stx (.zpx 1), .stx (.aby 1)], i.wellFormed = false := by
  decide

theorem test_wellFormed_refuses_sty : ∀ i ∈ [Instr.sty (.imm 1), .sty (.zpy 1), .sty (.abx 1)], i.wellFormed = false := by
  decide

theorem test_wellFormed_refuses_cpx_cpy : ∀ i ∈ [Instr.cpx (.zpx 1), .cpy (.abx 1)], i.wellFormed = false := by
  decide

theorem test_wellFormed_refuses_bit : ∀ i ∈ [Instr.bit (.imm 1), .bit (.abx 1)], i.wellFormed = false := by
  decide

theorem test_wellFormed_refuses_inc_dec : ∀ i ∈ [Instr.inc .acc, .dec (.aby 1)], i.wellFormed = false := by
  decide

theorem test_wellFormed_refuses_shifts : ∀ i ∈ [Instr.asl .imp, .lsr (.imm 1), .rol (.zpy 1), .ror (.aby 1)], i.wellFormed = false := by
  decide

theorem test_wellFormed_refuses_jmp : ∀ i ∈ [Instr.jmp (.abx 1), .jmp (.zp 1)], i.wellFormed = false := by
  decide

theorem test_wellFormed_refuses_ill : ∀ i ∈ [Instr.ill 0xEA, .ill 0x00], i.wellFormed = false := by
  decide

theorem test_wellFormed_accepts : ∀ i ∈ [Instr.lda (.izy 1), .ldx (.aby 1), .stx (.zpy 1), .jmp (.ind 1), .ror .acc, .brk, .ill 0x02],
    i.wellFormed = true := by
  decide

/-! ## Decoding: each constructor's bits, as the encoding tables have them; a form's operand bytes are 0x34 and 0x12 -/

theorem test_decode_load_store : ∀ q ∈ ([
    ([0b10100001, 0x34], .lda (.izx 0x34)), ([0b10100101, 0x34], .lda (.zp 0x34)),
    ([0b10101001, 0x34], .lda (.imm 0x34)), ([0b10101101, 0x34, 0x12], .lda (.abs 0x1234)),
    ([0b10110001, 0x34], .lda (.izy 0x34)), ([0b10110101, 0x34], .lda (.zpx 0x34)),
    ([0b10111001, 0x34, 0x12], .lda (.aby 0x1234)), ([0b10111101, 0x34, 0x12], .lda (.abx 0x1234)),
    ([0b10100010, 0x34], .ldx (.imm 0x34)), ([0b10100110, 0x34], .ldx (.zp 0x34)),
    ([0b10101110, 0x34, 0x12], .ldx (.abs 0x1234)), ([0b10110110, 0x34], .ldx (.zpy 0x34)),
    ([0b10111110, 0x34, 0x12], .ldx (.aby 0x1234)), ([0b10100000, 0x34], .ldy (.imm 0x34)),
    ([0b10100100, 0x34], .ldy (.zp 0x34)), ([0b10101100, 0x34, 0x12], .ldy (.abs 0x1234)),
    ([0b10110100, 0x34], .ldy (.zpx 0x34)), ([0b10111100, 0x34, 0x12], .ldy (.abx 0x1234)),
    ([0b10000001, 0x34], .sta (.izx 0x34)), ([0b10000101, 0x34], .sta (.zp 0x34)),
    ([0b10001101, 0x34, 0x12], .sta (.abs 0x1234)), ([0b10010001, 0x34], .sta (.izy 0x34)),
    ([0b10010101, 0x34], .sta (.zpx 0x34)), ([0b10011001, 0x34, 0x12], .sta (.aby 0x1234)),
    ([0b10011101, 0x34, 0x12], .sta (.abx 0x1234)), ([0b10000110, 0x34], .stx (.zp 0x34)),
    ([0b10001110, 0x34, 0x12], .stx (.abs 0x1234)), ([0b10010110, 0x34], .stx (.zpy 0x34)),
    ([0b10000100, 0x34], .sty (.zp 0x34)), ([0b10001100, 0x34, 0x12], .sty (.abs 0x1234)),
    ([0b10010100, 0x34], .sty (.zpx 0x34))] : List (List Byte × Instr)),
    decode q.1 = .ok (q.2, []) ∧ encode q.2 = q.1 := by
  decide

theorem test_decode_transfer_stack : ∀ q ∈ ([
    ([0b10101010], .tax), ([0b10101000], .tay), ([0b10001010], .txa), ([0b10011000], .tya), ([0b10111010], .tsx),
    ([0b10011010], .txs), ([0b01001000], .pha), ([0b00001000], .php), ([0b01101000], .pla), ([0b00101000], .plp)] : List (List Byte × Instr)),
    decode q.1 = .ok (q.2, []) ∧ encode q.2 = q.1 := by
  decide

theorem test_decode_logical : ∀ q ∈ ([
    ([0b00100001, 0x34], .and (.izx 0x34)), ([0b00100101, 0x34], .and (.zp 0x34)),
    ([0b00101001, 0x34], .and (.imm 0x34)), ([0b00101101, 0x34, 0x12], .and (.abs 0x1234)),
    ([0b00110001, 0x34], .and (.izy 0x34)), ([0b00110101, 0x34], .and (.zpx 0x34)),
    ([0b00111001, 0x34, 0x12], .and (.aby 0x1234)), ([0b00111101, 0x34, 0x12], .and (.abx 0x1234)),
    ([0b00000001, 0x34], .ora (.izx 0x34)), ([0b00000101, 0x34], .ora (.zp 0x34)),
    ([0b00001001, 0x34], .ora (.imm 0x34)), ([0b00001101, 0x34, 0x12], .ora (.abs 0x1234)),
    ([0b00010001, 0x34], .ora (.izy 0x34)), ([0b00010101, 0x34], .ora (.zpx 0x34)),
    ([0b00011001, 0x34, 0x12], .ora (.aby 0x1234)), ([0b00011101, 0x34, 0x12], .ora (.abx 0x1234)),
    ([0b01000001, 0x34], .eor (.izx 0x34)), ([0b01000101, 0x34], .eor (.zp 0x34)),
    ([0b01001001, 0x34], .eor (.imm 0x34)), ([0b01001101, 0x34, 0x12], .eor (.abs 0x1234)),
    ([0b01010001, 0x34], .eor (.izy 0x34)), ([0b01010101, 0x34], .eor (.zpx 0x34)),
    ([0b01011001, 0x34, 0x12], .eor (.aby 0x1234)), ([0b01011101, 0x34, 0x12], .eor (.abx 0x1234)),
    ([0b00100100, 0x34], .bit (.zp 0x34)), ([0b00101100, 0x34, 0x12], .bit (.abs 0x1234))] : List (List Byte × Instr)),
    decode q.1 = .ok (q.2, []) ∧ encode q.2 = q.1 := by
  decide

theorem test_decode_arithmetic : ∀ q ∈ ([
    ([0b01100001, 0x34], .adc (.izx 0x34)), ([0b01100101, 0x34], .adc (.zp 0x34)),
    ([0b01101001, 0x34], .adc (.imm 0x34)), ([0b01101101, 0x34, 0x12], .adc (.abs 0x1234)),
    ([0b01110001, 0x34], .adc (.izy 0x34)), ([0b01110101, 0x34], .adc (.zpx 0x34)),
    ([0b01111001, 0x34, 0x12], .adc (.aby 0x1234)), ([0b01111101, 0x34, 0x12], .adc (.abx 0x1234)),
    ([0b11100001, 0x34], .sbc (.izx 0x34)), ([0b11100101, 0x34], .sbc (.zp 0x34)),
    ([0b11101001, 0x34], .sbc (.imm 0x34)), ([0b11101101, 0x34, 0x12], .sbc (.abs 0x1234)),
    ([0b11110001, 0x34], .sbc (.izy 0x34)), ([0b11110101, 0x34], .sbc (.zpx 0x34)),
    ([0b11111001, 0x34, 0x12], .sbc (.aby 0x1234)), ([0b11111101, 0x34, 0x12], .sbc (.abx 0x1234)),
    ([0b11000001, 0x34], .cmp (.izx 0x34)), ([0b11000101, 0x34], .cmp (.zp 0x34)),
    ([0b11001001, 0x34], .cmp (.imm 0x34)), ([0b11001101, 0x34, 0x12], .cmp (.abs 0x1234)),
    ([0b11010001, 0x34], .cmp (.izy 0x34)), ([0b11010101, 0x34], .cmp (.zpx 0x34)),
    ([0b11011001, 0x34, 0x12], .cmp (.aby 0x1234)), ([0b11011101, 0x34, 0x12], .cmp (.abx 0x1234)),
    ([0b11100000, 0x34], .cpx (.imm 0x34)), ([0b11100100, 0x34], .cpx (.zp 0x34)),
    ([0b11101100, 0x34, 0x12], .cpx (.abs 0x1234)), ([0b11000000, 0x34], .cpy (.imm 0x34)),
    ([0b11000100, 0x34], .cpy (.zp 0x34)), ([0b11001100, 0x34, 0x12], .cpy (.abs 0x1234))] : List (List Byte × Instr)),
    decode q.1 = .ok (q.2, []) ∧ encode q.2 = q.1 := by
  decide

theorem test_decode_incdec : ∀ q ∈ ([
    ([0b11100110, 0x34], .inc (.zp 0x34)), ([0b11101110, 0x34, 0x12], .inc (.abs 0x1234)),
    ([0b11110110, 0x34], .inc (.zpx 0x34)), ([0b11111110, 0x34, 0x12], .inc (.abx 0x1234)),
    ([0b11000110, 0x34], .dec (.zp 0x34)), ([0b11001110, 0x34, 0x12], .dec (.abs 0x1234)),
    ([0b11010110, 0x34], .dec (.zpx 0x34)), ([0b11011110, 0x34, 0x12], .dec (.abx 0x1234)), ([0b11101000], .inx),
    ([0b11001000], .iny), ([0b11001010], .dex), ([0b10001000], .dey)] : List (List Byte × Instr)),
    decode q.1 = .ok (q.2, []) ∧ encode q.2 = q.1 := by
  decide

theorem test_decode_shift_rotate : ∀ q ∈ ([
    ([0b00000110, 0x34], .asl (.zp 0x34)), ([0b00001010], .asl .acc), ([0b00001110, 0x34, 0x12], .asl (.abs 0x1234)),
    ([0b00010110, 0x34], .asl (.zpx 0x34)), ([0b00011110, 0x34, 0x12], .asl (.abx 0x1234)),
    ([0b01000110, 0x34], .lsr (.zp 0x34)), ([0b01001010], .lsr .acc), ([0b01001110, 0x34, 0x12], .lsr (.abs 0x1234)),
    ([0b01010110, 0x34], .lsr (.zpx 0x34)), ([0b01011110, 0x34, 0x12], .lsr (.abx 0x1234)),
    ([0b00100110, 0x34], .rol (.zp 0x34)), ([0b00101010], .rol .acc), ([0b00101110, 0x34, 0x12], .rol (.abs 0x1234)),
    ([0b00110110, 0x34], .rol (.zpx 0x34)), ([0b00111110, 0x34, 0x12], .rol (.abx 0x1234)),
    ([0b01100110, 0x34], .ror (.zp 0x34)), ([0b01101010], .ror .acc), ([0b01101110, 0x34, 0x12], .ror (.abs 0x1234)),
    ([0b01110110, 0x34], .ror (.zpx 0x34)), ([0b01111110, 0x34, 0x12], .ror (.abx 0x1234))] : List (List Byte × Instr)),
    decode q.1 = .ok (q.2, []) ∧ encode q.2 = q.1 := by
  decide

theorem test_decode_jump_call : ∀ q ∈ ([
    ([0b01001100, 0x34, 0x12], .jmp (.abs 0x1234)), ([0b01101100, 0x34, 0x12], .jmp (.ind 0x1234)),
    ([0b00100000, 0x34, 0x12], .jsr 0x1234), ([0b01100000], .rts)] : List (List Byte × Instr)),
    decode q.1 = .ok (q.2, []) ∧ encode q.2 = q.1 := by
  decide

theorem test_decode_branch : ∀ q ∈ ([
    ([0b00010000, 0x34], .bpl 0x34), ([0b00110000, 0x34], .bmi 0x34), ([0b01010000, 0x34], .bvc 0x34),
    ([0b01110000, 0x34], .bvs 0x34), ([0b10010000, 0x34], .bcc 0x34), ([0b10110000, 0x34], .bcs 0x34),
    ([0b11010000, 0x34], .bne 0x34), ([0b11110000, 0x34], .beq 0x34)] : List (List Byte × Instr)),
    decode q.1 = .ok (q.2, []) ∧ encode q.2 = q.1 := by
  decide

theorem test_decode_flag_system : ∀ q ∈ ([
    ([0b00011000], .clc), ([0b00111000], .sec), ([0b01011000], .cli), ([0b01111000], .sei), ([0b11011000], .cld),
    ([0b11111000], .sed), ([0b10111000], .clv), ([0b11101010], .nop), ([0b00000000], .brk), ([0b01000000], .rti)] : List (List Byte × Instr)),
    decode q.1 = .ok (q.2, []) ∧ encode q.2 = q.1 := by
  decide

theorem test_decode_illegal : ∀ q ∈ ([
    ([0b00000010], .ill 0x02), ([0b11111111], .ill 0xFF)] : List (List Byte × Instr)),
    decode q.1 = .ok (q.2, []) ∧ encode q.2 = q.1 := by
  decide

theorem test_decode_truncated : decode [0xBD, 0xFF] = .error (.truncated 0xBD) ∧ decode [] = .error .noOpcode := by
  decide

/-- The word of `LDA $1234,X`: bits 7..0 the opcode, 15..8 the low operand byte, 23..16 the high one. -/
theorem test_decodeTableWord : decodeTableWord 24 0x1234BD = some (.lda (.abx 0x1234)) ∧
    decodeTableWord 8 0xBD = some (.lda (.abx 0x0000)) ∧ decodeTableWord 8 0x02 = some (.ill 0x02) := by
  decide

/-! ## Steps. The start state of 95_test_vectors.md: reset registers, `PC = 8000` -/

/-- Bytes stored at consecutive addresses. -/
def store (m : Memory) (a : Word) : List Byte → Memory
  | [] => m
  | b :: bs => store (m.set a b) (a + 1) bs

/-- The start state of the vectors, with bytes stored. -/
def start (chunks : List (Word × List Byte)) : State :=
  (State.reset.setMem (chunks.foldl (fun m c => store m c.1 c.2) [])).setPc 0x8000

/-- What a step's next state shows; nothing where it stops. -/
def seen (o : Host.Outcome State Fault Refusal) (f : State → α) : Option α :=
  match o with
  | .next t => some (f t)
  | .fault _ | .refused _ => none

/-- Whether a step answers a next state. -/
def goesOn (o : Host.Outcome State Fault Refusal) : Bool := (seen o fun _ => ()).isSome

theorem next_of_goesOn {o : Host.Outcome State Fault Refusal} (h : goesOn o = true) : ∃ t, o = .next t := by
  cases o with
  | next t => exact ⟨t, rfl⟩
  | fault _ => cases h
  | refused _ => cases h

/-- AM5: the pointer's high byte comes from 0000. -/
theorem test_lda_indexed_indirect :
    seen (step ({ start [(0x8000, [0xA1, 0xFE]), (0x00FF, [0x34]), (0x0000, [0x12]), (0x1234, [0x5A])] with x := 0x01 }))
      (fun t => (t.a, t.p, t.stepCycles, t.bus)) =
    some (0x5A, 0x20, some 6, [.read 0x8000 0xA1, .read 0x8001 0xFE, .read 0x00FF 0x34, .read 0x0000 0x12, .read 0x1234 0x5A]) := by
  decide

/-- AM4 -/
theorem test_ldx_zero_page_y :
    seen (step ({ start [(0x8000, [0xB6, 0xFF]), (0x0000, [0x99])] with y := 0x01 }))
      (fun t => (t.x, t.p, t.stepCycles)) =
    some (0x99, 0xA0, some 4) := by
  decide

/-- AM10 -/
theorem test_ldx_absolute_y_not_crossed :
    seen (step ({ start [(0x8000, [0xBE, 0x80, 0x20]), (0x20FF, [0x7F])] with y := 0x7F }))
      (fun t => (t.x, t.p, t.stepCycles)) =
    some (0x7F, 0x20, some 4) := by
  decide

/-- AM9 -/
theorem test_ldy_absolute_x_crossed :
    seen (step ({ start [(0x8000, [0xBC, 0x80, 0x20]), (0x2100, [0x00])] with x := 0x80 }))
      (fun t => (t.y, t.p, t.stepCycles)) =
    some (0x00, 0x22, some 5) := by
  decide

/-- AM7 -/
theorem test_lda_indirect_indexed_top_pointer :
    seen (step ({ start [(0x8000, [0xB1, 0xFF]), (0x00FF, [0x00]), (0x0000, [0x40]), (0x0100, [0xEE]), (0x4001, [0xAB])] with y := 0x01 }))
      (fun t => (t.a, t.p, t.stepCycles)) =
    some (0xAB, 0xA0, some 5) := by
  decide

/-- AM12 -/
theorem test_sta_absolute_x :
    seen (step ({ start [(0x8000, [0x9D, 0xF8, 0x20])] with a := 0x42, x := 0x10 }))
      (fun t => (t.mem.get 0x2108, t.p, t.stepCycles, t.bus)) =
    some (0x42, 0x20, some 5, [.read 0x8000 0x9D, .read 0x8001 0xF8, .read 0x8002 0x20, .write 0x2108 0x42]) := by
  decide

/-- AM14 -/
theorem test_sta_indirect_indexed :
    seen (step ({ start [(0x8000, [0x91, 0x20]), (0x0020, [0xFF, 0x20])] with a := 0x42, y := 0x01 }))
      (fun t => (t.mem.get 0x2100, t.stepCycles)) =
    some (0x42, some 6) := by
  decide

/-- LS8 -/
theorem test_stx_zero_page_y :
    seen (step ({ start [(0x8000, [0x96, 0xF0])] with x := 0xAA, y := 0x20 }))
      (fun t => (t.mem.get 0x0010, t.p, t.stepCycles)) =
    some (0xAA, 0x20, some 4) := by
  decide

/-- LS6 -/
theorem test_sty_zero_page_x :
    seen (step ({ start [(0x8000, [0x94, 0x10])] with x := 0xF5, y := 0x03 }))
      (fun t => (t.mem.get 0x0005, t.stepCycles)) =
    some (0x03, some 4) := by
  decide

/-- TS1 -/
theorem test_tax :
    seen (step ({ start [(0x8000, [0xAA])] with p := 0xA0 }))
      (fun t => (t.x, t.p, t.pc, t.stepCycles)) =
    some (0x00, 0x22, 0x8001, some 2) := by
  decide

/-- TS2 -/
theorem test_tay :
    seen (step ({ start [(0x8000, [0xA8])] with a := 0x7F, p := 0xA2 }))
      (fun t => (t.y, t.p)) =
    some (0x7F, 0x20) := by
  decide

/-- TS3 -/
theorem test_txa :
    seen (step ({ start [(0x8000, [0x8A])] with x := 0x80, a := 0x01 }))
      (fun t => (t.a, t.p)) =
    some (0x80, 0xA0) := by
  decide

/-- TS4 -/
theorem test_tya :
    seen (step ({ start [(0x8000, [0x98])] with a := 0x01 }))
      (fun t => (t.a, t.p)) =
    some (0x00, 0x22) := by
  decide

/-- TS5 -/
theorem test_tsx :
    seen (step (start [(0x8000, [0xBA])]))
      (fun t => (t.x, t.p)) =
    some (0xFD, 0xA0) := by
  decide

/-- TS7 -/
theorem test_txs_writes_no_flag :
    seen (step ({ start [(0x8000, [0x9A])] with x := 0xFF }))
      (fun t => (t.sp, t.p)) =
    some (0xFF, 0x20) := by
  decide

/-- TS9 -/
theorem test_pha_wraps :
    seen (step ({ start [(0x8000, [0x48])] with a := 0x42, sp := 0x00 }))
      (fun t => (t.mem.get 0x0100, t.sp, t.stepCycles)) =
    some (0x42, 0xFF, some 3) := by
  decide

/-- TS10 -/
theorem test_php_pushes_b_and_u :
    seen (step ({ start [(0x8000, [0x08])] with p := 0x23 }))
      (fun t => (t.mem.get 0x01FD, t.sp, t.p)) =
    some (0x33, 0xFC, 0x23) := by
  decide

/-- TS13 -/
theorem test_pla_wraps :
    seen (step ({ start [(0x8000, [0x68]), (0x0100, [0x80])] with sp := 0xFF }))
      (fun t => (t.a, t.sp, t.p, t.stepCycles)) =
    some (0x80, 0x00, 0xA0, some 4) := by
  decide

/-- TS14, `ignore` -/
theorem test_plp_ignore :
    seen (step ({ start [(0x8000, [0x28]), (0x01FD, [0xFF])] with sp := 0xFC }))
      (fun t => (t.p, t.sp)) =
    some (0xEF, 0xFD) := by
  decide

/-- TS14, `verbatim` -/
theorem test_plp_verbatim :
    seen (step ({ start [(0x8000, [0x28]), (0x01FD, [0xFF])] with sp := 0xFC, cfg := ⟨.nop1, .verbatim⟩ }))
      (fun t => (t.p, t.sp)) =
    some (0xFF, 0xFD) := by
  decide

/-- LG1 -/
theorem test_and :
    seen (step ({ start [(0x8000, [0x29, 0x0F])] with a := 0xF0 }))
      (fun t => (t.a, t.p)) =
    some (0x00, 0x22) := by
  decide

/-- LG2 -/
theorem test_ora :
    seen (step ({ start [(0x8000, [0x09, 0x80])] with a := 0x01 }))
      (fun t => (t.a, t.p)) =
    some (0x81, 0xA0) := by
  decide

/-- LG4 -/
theorem test_eor :
    seen (step ({ start [(0x8000, [0x49, 0xFF])] with a := 0xFF, p := 0xE1 }))
      (fun t => (t.a, t.p)) =
    some (0x00, 0x63) := by
  decide

/-- LG5 -/
theorem test_bit_flags_from_memory :
    seen (step ({ start [(0x8000, [0x24, 0x10]), (0x0010, [0xC0])] with a := 0x01 }))
      (fun t => (t.a, t.p, t.stepCycles)) =
    some (0x01, 0xE2, some 3) := by
  decide

/-- LG6 -/
theorem test_bit_clears :
    seen (step ({ start [(0x8000, [0x2C, 0x00, 0x30]), (0x3000, [0x3F])] with a := 0xFF, p := 0xE0 }))
      (fun t => (t.p, t.stepCycles)) =
    some (0x20, some 4) := by
  decide

/-- AR11 -/
theorem test_adc_overflow_from_carry :
    seen (step ({ start [(0x8000, [0x69, 0x00])] with a := 0x7F, p := 0x21 }))
      (fun t => (t.a, t.p)) =
    some (0x80, 0xE0) := by
  decide

/-- AR14 -/
theorem test_adc_decimal_is_inert :
    seen (step ({ start [(0x8000, [0x69, 0x01])] with a := 0x09, p := 0x28 }))
      (fun t => (t.a, t.p)) =
    some (0x0A, 0x28) := by
  decide

/-- AR26 -/
theorem test_sbc_overflow :
    seen (step ({ start [(0x8000, [0xE9, 0x70])] with a := 0xD0, p := 0x21 }))
      (fun t => (t.a, t.p)) =
    some (0x60, 0x61) := by
  decide

/-- AR32 -/
theorem test_sbc_borrow_in :
    seen (step ({ start [(0x8000, [0xE9, 0x40])] with a := 0x40, p := 0x20 }))
      (fun t => (t.a, t.p)) =
    some (0xFF, 0xA0) := by
  decide

/-- CP4 -/
theorem test_cmp_negative_is_not_less :
    seen (step (start [(0x8000, [0xC9, 0x81])]))
      (fun t => (t.a, t.p)) =
    some (0x00, 0x20) := by
  decide

/-- CP5 -/
theorem test_cmp_keeps_overflow :
    seen (step ({ start [(0x8000, [0xC9, 0x00])] with a := 0x80, p := 0x60 }))
      (fun t => (t.a, t.p)) =
    some (0x80, 0xE1) := by
  decide

/-- CP7 -/
theorem test_cpx_equal :
    seen (step ({ start [(0x8000, [0xE0, 0x10])] with x := 0x10 }))
      (fun t => (t.p)) =
    some (0x23) := by
  decide

/-- CP8 -/
theorem test_cpy_greater :
    seen (step ({ start [(0x8000, [0xC0, 0x00])] with y := 0xFF }))
      (fun t => (t.p)) =
    some (0xA1) := by
  decide

/-- ID1: one read, one write. -/
theorem test_inc_keeps_carry :
    seen (step ({ start [(0x8000, [0xE6, 0x10]), (0x0010, [0xFF])] with p := 0x21 }))
      (fun t => (t.mem.get 0x0010, t.p, t.stepCycles, t.bus)) =
    some (0x00, 0x23, some 5, [.read 0x8000 0xE6, .read 0x8001 0x10, .read 0x0010 0xFF, .write 0x0010 0x00]) := by
  decide

/-- ID4 -/
theorem test_inc_absolute_x_always_seven :
    seen (step ({ start [(0x8000, [0xFE, 0xFE, 0x02]), (0x0303, [0x7F])] with x := 0x05 }))
      (fun t => (t.mem.get 0x0303, t.p, t.stepCycles)) =
    some (0x80, 0xA0, some 7) := by
  decide

/-- ID3 -/
theorem test_dec :
    seen (step (start [(0x8000, [0xC6, 0x10])]))
      (fun t => (t.mem.get 0x0010, t.p)) =
    some (0xFF, 0xA0) := by
  decide

/-- ID5 -/
theorem test_inx_wraps :
    seen (step ({ start [(0x8000, [0xE8])] with x := 0xFF }))
      (fun t => (t.x, t.p)) =
    some (0x00, 0x22) := by
  decide

/-- ID6 -/
theorem test_iny :
    seen (step ({ start [(0x8000, [0xC8])] with y := 0x7F }))
      (fun t => (t.y, t.p)) =
    some (0x80, 0xA0) := by
  decide

/-- ID7 -/
theorem test_dex :
    seen (step ({ start [(0x8000, [0xCA])] with x := 0x01 }))
      (fun t => (t.x, t.p)) =
    some (0x00, 0x22) := by
  decide

/-- ID8 -/
theorem test_dey_wraps :
    seen (step (start [(0x8000, [0x88])]))
      (fun t => (t.y, t.p)) =
    some (0xFF, 0xA0) := by
  decide

/-- SH1 -/
theorem test_asl_accumulator :
    seen (step ({ start [(0x8000, [0x0A])] with a := 0x81 }))
      (fun t => (t.a, t.p, t.stepCycles)) =
    some (0x02, 0x21, some 2) := by
  decide

/-- SH5 -/
theorem test_asl_memory :
    seen (step (start [(0x8000, [0x06, 0x10]), (0x0010, [0x80])]))
      (fun t => (t.a, t.mem.get 0x0010, t.p, t.stepCycles)) =
    some (0x00, 0x00, 0x23, some 5) := by
  decide

/-- SH9 -/
theorem test_lsr_accumulator :
    seen (step ({ start [(0x8000, [0x4A])] with a := 0xFF, p := 0xA0 }))
      (fun t => (t.a, t.p)) =
    some (0x7F, 0x21) := by
  decide

/-- SH2 -/
theorem test_lsr_memory :
    seen (step (start [(0x8000, [0x46, 0x10]), (0x0010, [0x03])]))
      (fun t => (t.mem.get 0x0010, t.p)) =
    some (0x01, 0x21) := by
  decide

/-- SH3 -/
theorem test_rol_accumulator :
    seen (step ({ start [(0x8000, [0x2A])] with a := 0x40, p := 0x21 }))
      (fun t => (t.a, t.p)) =
    some (0x81, 0xA0) := by
  decide

/-- SH7 -/
theorem test_rol_memory :
    seen (step ({ start [(0x8000, [0x3E, 0xFF, 0x02]), (0x0300, [0x80])] with x := 0x01, p := 0x21 }))
      (fun t => (t.mem.get 0x0300, t.p, t.stepCycles)) =
    some (0x01, 0x21, some 7) := by
  decide

/-- SH4 -/
theorem test_ror_accumulator :
    seen (step ({ start [(0x8000, [0x6A])] with a := 0x01, p := 0x21 }))
      (fun t => (t.a, t.p)) =
    some (0x80, 0xA1) := by
  decide

/-- SH6 -/
theorem test_ror_memory :
    seen (step ({ start [(0x8000, [0x66, 0x10])] with p := 0x21 }))
      (fun t => (t.mem.get 0x0010, t.p, t.stepCycles)) =
    some (0x80, 0xA0, some 5) := by
  decide

/-- JC1 -/
theorem test_jmp_absolute :
    seen (step (start [(0x8000, [0x4C, 0x00, 0xC0])]))
      (fun t => (t.pc, t.p, t.stepCycles)) =
    some (0xC000, 0x20, some 3) := by
  decide

/-- S4: the byte at 0200 is not read. -/
theorem test_jmp_indirect_page_wrap :
    seen (step (start [(0x8000, [0x6C, 0xFF, 0x01]), (0x01FF, [0x00]), (0x0100, [0x20]), (0x0200, [0x99])]))
      (fun t => (t.pc, t.stepCycles, t.bus)) =
    some (0x2000, some 5, [.read 0x8000 0x6C, .read 0x8001 0xFF, .read 0x8002 0x01, .read 0x01FF 0x00, .read 0x0100 0x20]) := by
  decide

/-- JC3 -/
theorem test_jsr :
    seen (step (start [(0x8000, [0x20, 0x00, 0x90])]))
      (fun t => (t.mem.get 0x01FD, t.mem.get 0x01FC, t.sp, t.pc, t.stepCycles)) =
    some (0x80, 0x02, 0xFB, 0x9000, some 6) := by
  decide

/-- JC6: the high operand byte comes from 0000. -/
theorem test_jsr_at_the_top :
    seen (step ({ start [(0xFFFE, [0x20, 0x34, 0x12])] with pc := 0xFFFE }))
      (fun t => (t.mem.get 0x01FD, t.mem.get 0x01FC, t.pc)) =
    some (0x00, 0x00, 0x1234) := by
  decide

/-- JC7 -/
theorem test_rts_wraps :
    seen (step ({ start [(0x8000, [0x60]), (0x01FC, [0xFF, 0xFF])] with sp := 0xFB }))
      (fun t => (t.pc, t.sp, t.stepCycles)) =
    some (0x0000, 0xFD, some 6) := by
  decide

/-- BR1 -/
theorem test_bpl_taken :
    seen (step (start [(0x8000, [0x10, 0x05])]))
      (fun t => (t.pc, t.stepCycles)) =
    some (0x8007, some 3) := by
  decide

/-- BR2: the displacement is read all the same. -/
theorem test_bpl_not_taken :
    seen (step ({ start [(0x8000, [0x10, 0x05])] with p := 0xA0 }))
      (fun t => (t.pc, t.stepCycles, t.bus)) =
    some (0x8002, some 2, [.read 0x8000 0x10, .read 0x8001 0x05]) := by
  decide

/-- BR3 -/
theorem test_bmi_to_itself :
    seen (step ({ start [(0x8000, [0x30, 0xFE])] with p := 0xA0 }))
      (fun t => (t.pc, t.stepCycles)) =
    some (0x8000, some 3) := by
  decide

/-- BR10 -/
theorem test_bvc_page_of_following :
    seen (step ({ start [(0x80FE, [0x50, 0x02])] with pc := 0x80FE }))
      (fun t => (t.pc, t.stepCycles)) =
    some (0x8102, some 3) := by
  decide

/-- BR11 -/
theorem test_bvc_other_page :
    seen (step ({ start [(0x80FE, [0x50, 0xFC])] with pc := 0x80FE }))
      (fun t => (t.pc, t.stepCycles)) =
    some (0x80FC, some 4) := by
  decide

/-- BR13 -/
theorem test_bvs_taken :
    seen (step ({ start [(0x8000, [0x70, 0x10])] with p := 0x60 }))
      (fun t => (t.pc, t.stepCycles)) =
    some (0x8012, some 3) := by
  decide

/-- BR4 -/
theorem test_bcc_other_page :
    seen (step ({ start [(0x80F0, [0x90, 0x20])] with pc := 0x80F0 }))
      (fun t => (t.pc, t.stepCycles)) =
    some (0x8112, some 4) := by
  decide

/-- BR5 -/
theorem test_bcs_farthest_forward :
    seen (step ({ start [(0x8000, [0xB0, 0x7F])] with p := 0x21 }))
      (fun t => (t.pc, t.stepCycles)) =
    some (0x8081, some 3) := by
  decide

/-- BR14 -/
theorem test_bne_at_the_top :
    seen (step ({ start [(0xFFFF, [0xD0, 0xFB])] with pc := 0xFFFF }))
      (fun t => (t.pc, t.stepCycles)) =
    some (0xFFFC, some 4) := by
  decide

/-- BR8 -/
theorem test_beq_farthest_back :
    seen (step ({ start [(0x8100, [0xF0, 0x80])] with p := 0x22, pc := 0x8100 }))
      (fun t => (t.pc, t.stepCycles)) =
    some (0x8082, some 4) := by
  decide

/-- FL1 -/
theorem test_clc :
    seen (step ({ start [(0x8000, [0x18])] with p := 0x21 }))
      (fun t => (t.p, t.pc, t.stepCycles)) =
    some (0x20, 0x8001, some 2) := by
  decide

/-- FL2 -/
theorem test_sec :
    seen (step ({ start [(0x8000, [0x38])] with p := 0x20 }))
      (fun t => (t.p, t.pc, t.stepCycles)) =
    some (0x21, 0x8001, some 2) := by
  decide

/-- FL3 -/
theorem test_cli :
    seen (step ({ start [(0x8000, [0x58])] with p := 0x24 }))
      (fun t => (t.p, t.pc, t.stepCycles)) =
    some (0x20, 0x8001, some 2) := by
  decide

/-- FL4 -/
theorem test_sei :
    seen (step ({ start [(0x8000, [0x78])] with p := 0x20 }))
      (fun t => (t.p, t.pc, t.stepCycles)) =
    some (0x24, 0x8001, some 2) := by
  decide

/-- FL5 -/
theorem test_cld :
    seen (step ({ start [(0x8000, [0xD8])] with p := 0x28 }))
      (fun t => (t.p, t.pc, t.stepCycles)) =
    some (0x20, 0x8001, some 2) := by
  decide

/-- FL6 -/
theorem test_sed :
    seen (step ({ start [(0x8000, [0xF8])] with p := 0x20 }))
      (fun t => (t.p, t.pc, t.stepCycles)) =
    some (0x28, 0x8001, some 2) := by
  decide

/-- FL7 -/
theorem test_clv :
    seen (step ({ start [(0x8000, [0xB8])] with p := 0x60 }))
      (fun t => (t.p, t.pc, t.stepCycles)) =
    some (0x20, 0x8001, some 2) := by
  decide

/-- S8 -/
theorem test_nop :
    seen (step ({ start [(0x8000, [0xEA])] with a := 0x12, x := 0x34, y := 0x56, sp := 0x78, p := 0xE3 }))
      (fun t => (t.a, t.x, t.y, t.sp, t.p, t.pc, t.stepCycles)) =
    some (0x12, 0x34, 0x56, 0x78, 0xE3, 0x8001, some 2) := by
  decide

/-- SY1 -/
theorem test_brk :
    seen (step ({ start [(0x8000, [0x00]), (0xFFFE, [0x00, 0x90])] with p := 0x21 }))
      (fun t => (t.mem.get 0x01FD, t.mem.get 0x01FC, t.mem.get 0x01FB, t.sp, t.p, t.pc, t.stepCycles)) =
    some (0x80, 0x02, 0x31, 0xFA, 0x25, 0x9000, some 7) := by
  decide

/-- SY3 -/
theorem test_brk_stack_wraps_decimal_kept :
    seen (step ({ start [(0x8000, [0x00]), (0xFFFE, [0x00, 0x90])] with p := 0xEB, sp := 0x01 }))
      (fun t => (t.mem.get 0x0101, t.mem.get 0x0100, t.mem.get 0x01FF, t.sp, t.p)) =
    some (0x80, 0x02, 0xFB, 0xFE, 0xEF) := by
  decide

/-- SY2, `ignore` -/
theorem test_rti_ignore :
    seen (step ({ start [(0x9000, [0x40]), (0x01FB, [0x31, 0x02, 0x80])] with sp := 0xFA, p := 0x25, pc := 0x9000 }))
      (fun t => (t.pc, t.sp, t.p, t.stepCycles)) =
    some (0x8002, 0xFD, 0x21, some 6) := by
  decide

/-- SY2, `verbatim` -/
theorem test_rti_verbatim :
    seen (step ({ start [(0x9000, [0x40]), (0x01FB, [0x31, 0x02, 0x80])] with sp := 0xFA, p := 0x25, cfg := ⟨.nop1, .verbatim⟩, pc := 0x9000 }))
      (fun t => (t.pc, t.p)) =
    some (0x8002, 0x31) := by
  decide

/-- SY7 -/
theorem test_illegal_nop1 :
    seen (step ({ start [(0x8000, [0x80])] with a := 0x12, p := 0xE3 }))
      (fun t => (t.a, t.p, t.pc, t.stepCycles, t.bus)) =
    some (0x12, 0xE3, 0x8001, some 1, [.read 0x8000 0x80]) := by
  decide

/-- SY6 -/
theorem test_illegal_fault :
    (match step { start [(0x8000, [0x02])] with cfg := ⟨.fault, .ignore⟩ } with
      | .fault r => some r
      | _ => none) = some (.illegalOpcode 0x02 0x8000) := by
  decide

/-! ## Interrupts, Reset, the host -/

/-- X1 -/
theorem test_nmi_before_irq :
    seen (step ({ start [(0x8000, [0xEA]), (0xFFFA, [0x00, 0xA0]), (0xFFFE, [0x00, 0x90])] with p := 0x23, nmiPending := true, irqPending := true }))
      (fun t => (t.mem.get 0x01FB, t.pc, t.nmiPending, t.irqPending, t.bus)) =
    some (0x23, 0xA000, false, true, [.write 0x01FD 0x80, .write 0x01FC 0x00, .write 0x01FB 0x23, .read 0xFFFA 0x00, .read 0xFFFB 0xA0]) := by
  decide

/-- X5 -/
theorem test_irq_masked :
    seen (step ({ start [(0x8000, [0xEA])] with p := 0x24, irqPending := true }))
      (fun t => (t.pc, t.irqPending, t.stepCycles)) =
    some (0x8001, true, some 2) := by
  decide

/-- X7 -/
theorem test_irq_entry :
    seen (step ({ start [(0x8002, [0xEA]), (0xFFFE, [0x00, 0x90])] with irqPending := true, pc := 0x8002 }))
      (fun t => (t.mem.get 0x01FC, t.mem.get 0x01FB, t.p, t.irqPending, t.stepCycles)) =
    some (0x02, 0x20, 0x24, false, some 7) := by
  decide

/-- S7 -/
theorem test_host_reset :
    seen ({ start [(0xFFFC, [0x00, 0x10])] with a := 1, x := 2, y := 3, sp := 4, p := 0xFF, irqPending := true }.host .reset)
      (fun t => ([t.a, t.x, t.y, t.sp, t.p], t.pc, t.irqPending, t.bus)) =
    some ([0, 0, 0, 0xFD, 0x20], 0x1000, false, [.read 0xFFFC 0x00, .read 0xFFFD 0x10]) := by
  decide

/-- 10_state.md R27, decision D20 -/
theorem test_bit5_clear_is_refused :
    (match step { start [] with p := 0x00 } with
      | .refused r => some r
      | _ => none) = some .unusedBitClear ∧ goesOn ((start []).host (.writeP 0x00)) = false := by
  decide

/-- 20_memory.md R31: a device answers the read of `LDA $2000` and drops the write of `STA $2000`. -/
theorem test_device_answers :
    seen (step { start [(0x8000, [0xAD, 0x00, 0x20])] with replies := [.memory, .memory, .memory, .device 0x5A] })
      (fun t => (t.a, t.replies)) = some (0x5A, []) ∧
    seen (step { start [(0x8000, [0x8D, 0x00, 0x20])] with a := 7, replies := [.memory, .memory, .memory, .device 0x5A] })
      (fun t => (t.mem.get 0x2000, t.bus.getLast?)) = some (0x00, some (.write 0x2000 0x07)) := by
  decide

/-- `withFetchWord` places `LDA #$D0` where the next step fetches. -/
theorem test_withFetchWord :
    seen (step (State.reset.withFetchWord 16 0xD0A9)) (fun t => (t.a, t.pc, t.stepCycles)) =
      some (0xD0, 0x0002, some 2) := by
  decide

/-- 20_memory.md R48: a store to the next instruction is seen by its fetch (`E8` is INX). -/
theorem test_self_modifying_code :
    seen (step { start [(0x0602, [0x8D, 0x05, 0x06, 0xEA])] with pc := 0x0602, a := 0xE8 }) State.fetch = some .inx := by
  decide

/-! ## Witnesses: states and operands that meet the hypotheses of each statement -/

/-- A state of plain memory whose pointers at page ends lead back into their page. -/
def demo : State :=
  { start [(0x8000, [0xA1, 0xFE]), (0x00FE, [0x12, 0x34]), (0x01FF, [0x00, 0x20]), (0xFFFA, [0x00, 0xA0, 0x00, 0x80, 0x00, 0x90])]
    with x := 1, y := 0xFF, a := 0x40 }

theorem demo_plain : demo.Plain := ⟨rfl, by decide⟩

theorem demo_inv : demo.Inv := ⟨by decide, by decide⟩

theorem reset_plain : State.reset.Plain := ⟨rfl, by decide⟩

theorem witness_DecodeInvertsEncode :
    (Instr.lda (.abx 0xFFFF)).wellFormed = true ∧ (Instr.jsr 0x0000).wellFormed = true ∧ (Instr.ill 0xFF).wellFormed = true := by
  decide

theorem witness_EncodeInvertsDecode : ∃ i, decode [0xBD, 0xFF, 0x00, 0xEA] = .ok (i, [0xEA]) :=
  ⟨.lda (.abx 0x00FF), by decide⟩

/-- A device's answer, the answer `memory`, no answer left, and plain memory. -/
theorem witness_LoadSeesTheLatestStore :
    (demo.setReplies [.device 0x5A, .memory]).replies = .device 0x5A :: [.memory] ∧
    ((demo.setReplies [.memory, .device 0x5A]).replies = .memory :: [.device 0x5A] ∧
      (demo.setReplies [.memory, .device 0x5A]).mem.wf = true) ∧
    (demo.replies = [] ∧ ([] : List BusReply) = []) ∧ demo.Plain ∧ (0x0000 : Word) ≠ 0xFFFF :=
  ⟨rfl, ⟨rfl, demo_plain.2⟩, ⟨rfl, rfl⟩, demo_plain, by decide⟩

theorem witness_PushWritesThenDecrements : ({ demo with sp := 0x00 } : State).Plain := demo_plain

theorem witness_PopsUndoPushes : demo.Plain ∧ (List.replicate 256 (0x5A : Byte)).length ≤ 256 :=
  ⟨demo_plain, Nat.le_of_eq List.length_replicate⟩

/-- A flag other than Z and N, and one other than the flag set. -/
theorem witness_SetZnAndSetFlagWriteTheirBitsOnly : Flag.c ≠ .z ∧ Flag.c ≠ .n ∧ Flag.u ≠ .b := by
  decide

/-- The pointer at the end of a page and one before it. -/
theorem witness_IndirectPointerWrapsWithinItsPage :
    demo.Plain ∧ (0x01FF : Word).toNat % 256 = 255 ∧ (0x01FE : Word).toNat % 256 ≠ 255 :=
  ⟨demo_plain, by decide⟩

theorem witness_IndexedIndirectPointerStaysInPageZero : demo.Plain ∧ (0xFE : Byte).toNat + demo.x.toNat = 255 :=
  ⟨demo_plain, by decide⟩

/-- A crossing and none, at the pointer in the last byte of page 0. -/
theorem witness_IndirectIndexedAddsYToThePointedWord :
    demo.Plain ∧ (resolve (.izy 0xFF) demo).crossed = true ∧ (resolve (.izy 0xFF) { demo with y := 0 }).crossed = false :=
  ⟨demo_plain, by decide⟩

theorem witness_AbsoluteIndexedAddresses :
    (resolve (.abx 0x00FF) demo).crossed = true ∧ (resolve (.abx 0x00FE) demo).crossed = false ∧
    (resolve (.aby 0xFFFF) demo).crossed = true := by
  decide

theorem witness_OperandByteIsTheCellAtTheAddress : demo.Plain := demo_plain

theorem witness_StoresWriteOneByte : demo.Plain ∧ (Instr.sta (.abs 0x2000), demo.a) ∈
    [(Instr.sta (.abs 0x2000), demo.a), (.stx (.abs 0x2000), demo.x), (.sty (.abs 0x2000), demo.y)] :=
  ⟨demo_plain, by decide⟩

theorem witness_PhaAndPhpPushOneByte : demo.Plain ∧ (Instr.php, demo.p ||| 0x30) ∈ [(Instr.pha, demo.a), (.php, demo.p ||| 0x30)] :=
  ⟨demo_plain, by decide⟩

theorem witness_MemoryIncrementAndDecrement :
    demo.Plain ∧ (Instr.inc (.abx 0xFFFF)).wellFormed = true ∧ (Instr.dec (.zp 0x00)).wellFormed = true :=
  ⟨demo_plain, by decide⟩

/-- The form ACC and a form in memory. -/
theorem witness_ShiftsMoveOneBit :
    demo.Plain ∧ (Instr.rol .acc).wellFormed = true ∧ (Instr.ror (.abx 0xFFFF)).wellFormed = true ∧
    OperandForm.abx 0xFFFF ≠ .acc :=
  ⟨demo_plain, by decide⟩

theorem witness_JsrPushesTheReturnAddress : ({ demo with sp := 0x00 } : State).Plain := demo_plain

theorem witness_RtsReturnsToTheInstructionAfterJsr : ({ demo with sp := 0x00, pc := 0xFFFD } : State).Plain := demo_plain

/-- A branch taken to another page, one within the page, and one not taken. -/
theorem witness_BranchesTestOneFlag :
    seen (exec (.beq 0x80) { demo with p := 0x22 }) (·.stepCycles) = some (some 4) ∧
    seen (exec (.beq 0x7F) { demo with p := 0x22 }) (·.stepCycles) = some (some 3) ∧
    seen (exec (.beq 0x80) { demo with p := 0x20 }) (·.stepCycles) = some (some 2) := by
  decide

theorem witness_BrkTakesTheTrap : ({ demo with sp := 0x01 } : State).Plain := demo_plain

theorem witness_IllegalOpcodesFollowThePolicy :
    (0x02 : Byte) ∈ illegalOpcodes ∧ (0xFF : Byte) ∈ illegalOpcodes ∧ demo.cfg.illegalPolicy = .nop1 ∧
    ({ demo with cfg := ⟨.fault, .ignore⟩ } : State).cfg.illegalPolicy = .fault := by
  decide

/-- Each of the three clauses: NMI over IRQ, IRQ with I clear, and an IRQ masked by I. -/
theorem witness_InterruptCheckPrecedesTheFetch :
    ({ demo with nmiPending := true, irqPending := true } : State).launchable = true ∧
    (({ demo with irqPending := true } : State).nmiPending = false ∧ flag .i demo.p = false) ∧
    flag .i (0x24 : Byte) = true := by
  decide

theorem witness_InterruptEntrySavesAndVectors : ({ demo with sp := 0x01, pc := 0xFFFF } : State).Plain := demo_plain

theorem witness_RtiResumesTheInterruptedStream : demo.Plain ∧ flag .u demo.p = true ∧ demo.cfg.plpBPolicy = .ignore :=
  ⟨demo_plain, by decide⟩

theorem witness_RtiResumesTwoBytesAfterBrk :
    demo.Plain ∧ flag .u demo.p = true ∧ ({ demo with cfg := ⟨.nop1, .verbatim⟩ } : State).cfg.plpBPolicy ≠ .ignore :=
  ⟨demo_plain, by decide⟩

theorem witness_InterruptDisableActsAtOnce :
    ({ demo with irqPending := true } : State).nmiPending = false ∧ ({ demo with irqPending := true } : State).irqPending = true ∧
    flag .u demo.p = true := by
  decide

/-- An instruction whose bytes a device answers, at the top of the address space. -/
theorem witness_StepRunsTheDecodedInstruction_answers :
    let s : State := { demo with pc := 0xFFFF, replies := [.device 0xA5, .device 0x10, .memory] }
    s.launchable = true ∧ s.pendingInterrupt = none ∧
    decode [s.memRead s.pc, (s.afterMemRead s.pc).memRead (s.pc + 1),
      ((s.afterMemRead s.pc).afterMemRead (s.pc + 1)).memRead (s.pc + 2)] = .ok (.lda (.zp 0x10), [0x00]) :=
  ⟨by decide, by decide, by decide⟩

/-- A three-byte instruction across the top of the address space. -/
theorem witness_StepRunsTheDecodedInstruction :
    let s : State := { start [(0xFFFE, [0xBD, 0x34, 0x12])] with pc := 0xFFFE }
    s.launchable = true ∧ s.pendingInterrupt = none ∧ s.Plain ∧
    decode [s.mem.get s.pc, s.mem.get (s.pc + 1), s.mem.get (s.pc + 2)] = .ok (.lda (.abx 0x1234), []) :=
  ⟨by decide, by decide, ⟨rfl, by decide⟩, by decide⟩

theorem witness_EveryInstructionCompletes : ∀ op : Byte, Instr.ill 0x02 = .ill op → demo.cfg.illegalPolicy = .nop1 :=
  fun _ _ => rfl

theorem witness_StepAlwaysCompletes : flag .u demo.p = true ∧ demo.cfg.illegalPolicy = .nop1 := by
  decide

/-- A state in which each stop occurs. -/
theorem witness_StepStopsOnlyAtIllegalOpcodes :
    let s : State := { start [(0x8000, [0xFF])] with cfg := ⟨.fault, .ignore⟩ }
    (s.launchable = true ∧ s.pendingInterrupt = none ∧ s.cfg.illegalPolicy = .fault ∧ s.memRead s.pc ∈ illegalOpcodes) ∧
    ({ s with p := 0x00 } : State).launchable = false := by
  decide

/-- A crossing read, and a taken branch. -/
theorem witness_CycleTotalFollowsTheTable :
    (Instr.lda (.abx 0x00FF)).wellFormed = true ∧ (∃ t, exec (.lda (.abx 0x00FF)) demo = .next t) ∧
    (Instr.bne 0x80).wellFormed = true ∧ ∃ t, exec (.bne 0x80) demo = .next t :=
  ⟨by decide, next_of_goesOn (by decide), by decide, next_of_goesOn (by decide)⟩

theorem witness_CycleCountLiesInOneToSeven : ∃ t, step demo = .next t := next_of_goesOn (by decide)

theorem witness_NoIncidentalFlagChanges :
    (∃ t, exec (.ill 0x02) demo = .next t) ∧ ∃ t, exec (.sta (.abx 0xFFFF)) demo = .next t :=
  ⟨next_of_goesOn (by decide), next_of_goesOn (by decide)⟩

theorem witness_ConfigurationIsFixed : ∃ t, Run demo [.step, .host (.latchNmi true)] t := by
  obtain ⟨t, ht⟩ := witness_CycleCountLiesInOneToSeven
  exact ⟨t.setNmi true, t, ht, t.setNmi true, rfl, rfl⟩

/-- An NMI entry with both latches set. -/
theorem witness_StepClearsOnlyTheServedLatch :
    ∃ t, step { demo with nmiPending := true, irqPending := true } = .next t :=
  next_of_goesOn (by decide)

theorem witness_BreakBitIsNeverWrittenUnderIgnore : demo.cfg.plpBPolicy = .ignore ∧ ∃ t, step demo = .next t :=
  ⟨rfl, next_of_goesOn (by decide)⟩

/-- Two states that differ in bit 4 of `P` and in the policy. -/
theorem witness_BreakBitAndPolicyAreUnobservable :
    LikeUpToBreak demo { demo with p := 0x30, cfg := ⟨.nop1, .verbatim⟩ } ∧
    demo ≠ { demo with p := 0x30, cfg := ⟨.nop1, .verbatim⟩ } :=
  ⟨⟨rfl, rfl, fun f hf => by cases f <;> first | rfl | exact absurd rfl hf⟩, by decide⟩

theorem witness_HostResetInstallsTheResetValues : demo.Plain := demo_plain

theorem witness_StepKeepsTheInvariant : demo.Inv ∧ demo.Plain ∧ ∃ t, step demo = .next t :=
  ⟨demo_inv, demo_plain, next_of_goesOn (by decide)⟩

theorem witness_EveryReachableStateMeetsTheInvariant :
    demo.Inv ∧ (∃ t, demo.host (.writeP 0x34) = .next t) ∧ Reachable State.reset :=
  ⟨demo_inv, next_of_goesOn (by decide), [], rfl⟩

end Sys2Proof.Tests
end

section
/-! SUPPORT. The family `10_state.md`: the two flag helpers (R20, R21), and the instructions that write no flag (R19). -/

namespace Sys2Proof.Machine

/-! ## `SetZN`'s two conditions as numbers (R20) -/

theorem flag_z_setZN (v p : Byte) : flag .z (setZN v p) = decide (v.toNat = 0) := by
  rw [flag_setZN, if_neg Flag.noConfusion, if_pos rfl, Bool.beq_eq_decide_eq]
  exact decide_eq_decide.mpr BitVec.toNat_inj.symm

theorem flag_n_setZN (v p : Byte) : flag .n (setZN v p) = decide (128 ≤ v.toNat) := by
  rw [flag_setZN, if_pos rfl]
  exact v.msb_eq_getLsbD_last.symm.trans v.msb_eq_decide

/-- Settles O9: both helpers by what they leave in each of the eight flags. -/
theorem setZnAndSetFlagWriteTheirBitsOnly : Obligations.SetZnAndSetFlagWriteTheirBitsOnly := by
  refine ⟨fun v p => ⟨flag_z_setZN v p, flag_n_setZN v p, fun f hz hn => ?otherThanZN⟩,
    fun f cond p => ⟨?own, fun g hg => ?other⟩⟩
  case otherThanZN => rw [flag_setZN, if_neg hn, if_neg hz]
  case own => rw [flag_setFlag, if_pos rfl]
  case other => rw [flag_setFlag, if_neg hg]

/-! ## The shapes of a handler that leave `P` as it is -/

section
variable {i : Instr} {s t : State}

theorem runStore_p {f : OperandForm} {v : Byte} (h : runStore i f v s = .next t) : t.p = s.p := by
  simp only [runStore, Host.Outcome.next.injEq] at h
  simp [← h]

/-- Taken or not, a branch only reads `P`. -/
theorem runBranch_p {cond : Bool} {disp : Byte} (h : runBranch i cond disp s = .next t) : t.p = s.p := by
  unfold runBranch at h
  dsimp only at h
  split at h
  · cases h; simp
  · cases h; simp

theorem runImplied_p {act : State → State} (h : runImplied i act s = .next t) (hact : ∀ r, (act r).p = r.p) :
    t.p = s.p := by
  simp only [runImplied, Host.Outcome.next.injEq] at h
  simp [← h, hact]

/-! ## The meanings that are not one of those shapes -/

theorem execJmp_p {f : OperandForm} (h : execJmp f s = .next t) : t.p = s.p := by
  simp only [execJmp, Host.Outcome.next.injEq] at h
  simp [← h]

theorem execJsr_p {target : Word} (h : execJsr target s = .next t) : t.p = s.p := by
  simp only [execJsr, Host.Outcome.next.injEq] at h
  simp [← h]

/-- Under `nop1` an illegal opcode changes no register but `PC`; under `fault` it has no next state (R206). -/
theorem execIll_p {opcode : Byte} (h : execIll opcode s = .next t) : t.p = s.p := by
  unfold execIll at h
  split at h
  · exact runImplied_p h fun _ => rfl
  · cases h

end

/-- Settles O52: each listed instruction is a store, a branch, a handler of mode IMP whose act leaves `P` as it is, or one of
JMP, JSR and the illegal opcodes. -/
theorem noIncidentalFlagChanges : Obligations.NoIncidentalFlagChanges := by
  rintro i s t ⟨f, d, w, op, hi⟩ h
  simp only [List.mem_cons, List.not_mem_nil, or_false] at hi
  obtain rfl | rfl | rfl | rfl | rfl | rfl | rfl | rfl | rfl | rfl | rfl | rfl | rfl | rfl | rfl | rfl | rfl | rfl | rfl := hi
  · exact runStore_p (show execSta f s = _ from h)
  · exact runStore_p (show execStx f s = _ from h)
  · exact runStore_p (show execSty f s = _ from h)
  · exact runImplied_p (show execTxs s = _ from h) fun r => r.setSp_p r.x
  · exact runImplied_p (show execPha s = _ from h) fun r => r.push_p r.a
  · exact runImplied_p (show execPhp s = _ from h) fun r => r.push_p (pushedByInstr r.p)
  · exact execJmp_p h
  · exact execJsr_p h
  · exact runImplied_p (show execRts s = _ from h) State.afterPopWord_p
  · exact runBranch_p (show execBpl d s = _ from h)
  · exact runBranch_p (show execBmi d s = _ from h)
  · exact runBranch_p (show execBvc d s = _ from h)
  · exact runBranch_p (show execBvs d s = _ from h)
  · exact runBranch_p (show execBcc d s = _ from h)
  · exact runBranch_p (show execBcs d s = _ from h)
  · exact runBranch_p (show execBne d s = _ from h)
  · exact runBranch_p (show execBeq d s = _ from h)
  · exact runImplied_p (show execNop s = _ from h) fun _ => rfl
  · exact execIll_p h

end Sys2Proof.Machine
end

section
/-! SUPPORT. The family `20_memory.md`: Push and Pop (R39, R40) and the pointer read of mode IND (R35). -/

namespace Sys2Proof.Machine

variable {s : State}

/-! ## Reads on plain memory -/

/-- A read on plain memory only records the cell's content. -/
theorem State.afterMemRead_plain (h : s.replies = []) (a : Word) :
    s.afterMemRead a = s.setBus (s.bus ++ [.read a (s.mem.get a)]) := by
  simp [State.afterMemRead, State.memRead_plain h, State.setBus, h]

/-- Two reads on plain memory record the two cells' contents in order. -/
theorem State.afterMemReadPair_plain (h : s.replies = []) (a b : Word) :
    s.afterMemReadPair a b = s.setBus (s.bus ++ [.read a (s.mem.get a), .read b (s.mem.get b)]) := by
  rw [State.afterMemReadPair, State.afterMemRead_plain h, State.afterMemRead_plain (by simpa using h)]
  simp [State.setBus]

/-! ## One push (R39) -/

/-- On plain memory a push leaves its byte in the cell `SP` named before it. -/
theorem State.get_push_self (h : s.Plain) (v : Byte) : (s.push v).mem.get (stackAddr s.sp) = v := by
  obtain ⟨hreplies, hwf⟩ := h
  rw [State.push_mem, State.memWrite_mem_plain hreplies]
  exact Memory.get_set_same _ _ _ hwf

/-- A push on plain memory leaves plain memory. -/
theorem State.plain_push (h : s.Plain) (v : Byte) : (s.push v).Plain :=
  ⟨by rw [State.push_replies, h.1]; rfl, State.wf_push h.2 v⟩

/-- Settles O7: a push is one write at `stackAddr SP` and then a new `SP`, so its frame is the write's. -/
theorem pushWritesThenDecrements : Obligations.PushWritesThenDecrements := by
  intro s v
  refine ⟨s.push_bus v, ?spWraps, fun h => State.get_push_self h v,
    fun a ha => s.get_push_other v (List.ne_of_not_mem_cons ha), rfl, rfl, rfl, rfl, rfl, ⟨rfl, rfl, rfl⟩, rfl⟩
  case spWraps =>
    rw [State.push_sp, BitVec.toNat_sub, Nat.add_comm]
    rfl

/-! ## One pop, and a pop after a push (R40) -/

/-- On plain memory a pop returns the byte of the push before it. -/
theorem State.popByte_push (h : s.Plain) (v : Byte) : (s.push v).popByte = v := by
  rw [State.popByte, State.push_sp, BitVec.sub_add_cancel, State.memRead_plain (State.plain_push h v).1]
  exact State.get_push_self h v

/-! ## Many pushes and many pops (R40) -/

theorem pushMany_append_singleton (vs : List Byte) (v : Byte) (s : State) :
    pushMany (vs ++ [v]) s = (pushMany vs s).push v :=
  List.foldl_concat _ _ _ _

theorem pushMany_sp (vs : List Byte) (s : State) : (pushMany vs s).sp = s.sp - BitVec.ofNat 8 vs.length := by
  induction vs using List.reverseRecOn with
  | nil => exact (BitVec.sub_zero _).symm
  | append_singleton vs v ih =>
    rw [pushMany_append_singleton, State.push_sp, ih, List.length_append, BitVec.ofNat_add, BitVec.sub_sub]
    rfl

theorem pushMany_plain (h : s.Plain) (vs : List Byte) : (pushMany vs s).Plain := by
  induction vs using List.reverseRecOn with
  | nil => exact h
  | append_singleton vs v ih =>
    rw [pushMany_append_singleton]
    exact State.plain_push ih v

/-- One pop and `n` more are `n + 1` of them, for `SP`. -/
theorem add_one_add_ofNat (sp : Byte) (n : Nat) : sp + 1 + BitVec.ofNat 8 n = sp + BitVec.ofNat 8 (n + 1) := by
  rw [BitVec.add_assoc, BitVec.add_comm 1, BitVec.ofNat_add]
  rfl

theorem popMany_sp (n : Nat) (s : State) : (popMany n s).2.sp = s.sp + BitVec.ofNat 8 n := by
  induction n generalizing s with
  | zero => exact (BitVec.add_zero _).symm
  | succ n ih =>
    rw [popMany, ih, State.afterPop_sp, add_one_add_ofNat]

/-- On plain memory `n` pops return the `n` cells above `SP`, upwards and around the stack page. -/
theorem popMany_plain (h : s.replies = []) (n : Nat) :
    (popMany n s).1 = (List.range n).map fun k => s.mem.get (stackAddr (s.sp + BitVec.ofNat 8 (k + 1))) := by
  induction n generalizing s with
  | zero => rfl
  | succ n ih =>
    rw [popMany, ih (by simp [h]), List.range_succ_eq_map, List.map_cons, List.map_map, State.popByte,
      State.memRead_plain h]
    simp only [State.afterPop_sp, State.afterPop_mem, add_one_add_ofNat]
    rfl

/-- A byte pushed and pulled again is not among the next `n` cells pulled, as long as `n` pops do not come around to it. -/
theorem popMany_afterPop_push (h : s.Plain) (v : Byte) {n : Nat} (hn : n < 256) :
    (popMany n (s.push v).afterPop).1 = (popMany n s).1 := by
  have hreplies : (s.push v).afterPop.replies = [] := by simp [h.1]
  rw [popMany_plain hreplies, popMany_plain h.1]
  refine List.map_congr_left fun k hk => ?_
  rw [List.mem_range] at hk
  rw [State.afterPop_mem, State.afterPop_sp, State.push_sp, BitVec.sub_add_cancel]
  refine s.get_push_other v fun haddr => ?_
  have hsp : s.sp + BitVec.ofNat 8 (k + 1) = s.sp := stackAddr_inj haddr
  bv_omega

/-- The last push is pulled first, and the pops after it see the cells as they were before it. -/
theorem popMany_pushMany (h : s.Plain) (vs : List Byte) (hlen : vs.length ≤ 256) :
    (popMany vs.length (pushMany vs s)).1 = vs.reverse := by
  induction vs using List.reverseRecOn with
  | nil => rfl
  | append_singleton vs v ih =>
    rw [List.length_append, List.length_singleton] at hlen ⊢
    have hplain := pushMany_plain h vs
    rw [pushMany_append_singleton, popMany, State.popByte_push hplain, popMany_afterPop_push hplain v (by omega),
      ih (by omega), List.reverse_concat]

/-- Settles O8: `SP` moves down by the number of pushes and up by that of pops; the bytes by induction on the last push. -/
theorem popsUndoPushes : Obligations.PopsUndoPushes := by
  refine ⟨fun s => ⟨rfl, s.sp.toNat_add 1, rfl, rfl, rfl⟩, fun s vs => ?spRestored,
    fun s vs h hlen => popMany_pushMany h vs hlen⟩
  case spRestored => rw [popMany_sp, pushMany_sp, BitVec.sub_add_cancel]

/-! ## The pointer read of mode IND (R35) -/

theorem lo_add_one (w : Word) : lo (w + 1) = lo w + 1 :=
  BitVec.setWidth_add _ _ (by decide)

/-- `ReadBugged`'s second address keeps the page and steps the low byte alone: the masks pick each of its bits from one of the
two halves. -/
theorem nextAddrInPage_eq_join (w : Word) : nextAddrInPage w = join (hi w) (lo w + 1) := by
  rw [← lo_add_one]
  simp only [nextAddrInPage, join, hi, lo]
  generalize w + 1 = next
  ext i hi
  interval_cases i <;> simp

/-- The next address, or the start of the same page where that would leave it. -/
theorem nextAddrInPage_eq (w : Word) :
    nextAddrInPage w = if w.toNat % 256 = 255 then BitVec.ofNat 16 (w.toNat - 255) else w + 1 := by
  have hw := w.isLt
  have hone : (1 : Byte).toNat = 1 := rfl
  apply BitVec.eq_of_toNat_eq
  rw [nextAddrInPage_eq_join, join_toNat, BitVec.toNat_add, hi_toNat, lo_toNat, hone]
  split
  case isTrue hend =>
    rw [BitVec.toNat_ofNat]
    omega
  case isFalse hend => bv_omega

/-- Settles O12: mode IND is a pair of reads whose second address is `nextAddrInPage`. -/
theorem indirectPointerWrapsWithinItsPage : Obligations.IndirectPointerWrapsWithinItsPage := by
  intro s w q
  have hq : nextAddrInPage w = q := nextAddrInPage_eq w
  have haddr : (resolve (.ind w) s).addr = s.memReadPair w q := congrArg (s.memReadPair w) hq
  have hafter : afterResolve (.ind w) s = s.afterMemReadPair w q := congrArg (s.afterMemReadPair w) hq
  refine ⟨?target, hafter, rfl, rfl, fun h => ⟨?plainTarget, ?plainReads⟩⟩
  case target => rw [haddr, State.memReadPair, join_toNat]
  case plainTarget => rw [haddr, State.memReadPair_plain h.1, join_toNat]
  case plainReads => rw [hafter, State.afterMemReadPair_plain h.1]

end Sys2Proof.Machine
end

section
/-! SUPPORT. The family `46_shift_rotate.md`: what a read-modify-write leaves (R160), and the four shifts as numbers (R161 to R164). -/

namespace Sys2Proof.Machine

/-! ## The results and the bits shifted out, as numbers (R161 to R164) -/

theorem getLsbD_seven (v : Byte) : v.getLsbD 7 = decide (128 ≤ v.toNat) :=
  v.msb_eq_getLsbD_last.symm.trans v.msb_eq_decide

theorem getLsbD_zero (v : Byte) : v.getLsbD 0 = decide (v.toNat % 2 = 1) :=
  Nat.testBit_zero v.toNat

theorem aslResult_eq_ofNat (v : Byte) : aslResult v = BitVec.ofNat 8 (2 * v.toNat % 256) := by
  apply BitVec.eq_of_toNat_eq
  simp [aslResult, Nat.shiftLeft_eq, Nat.mul_comm]

theorem lsrResult_eq_ofNat (v : Byte) : lsrResult v = BitVec.ofNat 8 (v.toNat / 2) := by
  apply BitVec.eq_of_toNat_eq
  have hv := v.isLt
  simp [lsrResult, Nat.shiftRight_eq_div_pow]
  omega

/-- ROL's two parts have no bit in common, so joining them is adding them. -/
theorem rolResult_eq_add (cin : Bool) (v : Byte) : rolResult cin v = aslResult v + BitVec.ofNat 8 cin.toNat := by
  have hdisjoint : aslResult v &&& BitVec.ofNat 8 cin.toNat = 0#8 := by
    cases cin
    · simp
    · ext i hi
      interval_cases i <;> simp [aslResult]
  rw [BitVec.add_eq_or_of_and_eq_zero _ _ hdisjoint]
  cases cin <;> rfl

/-- So are ROR's. -/
theorem rorResult_eq_add (cin : Bool) (v : Byte) : rorResult cin v = lsrResult v + BitVec.ofNat 8 (128 * cin.toNat) := by
  have hdisjoint : lsrResult v &&& BitVec.ofNat 8 (128 * cin.toNat) = 0#8 := by
    cases cin
    · simp
    · ext i hi
      interval_cases i <;> simp [lsrResult]
  rw [BitVec.add_eq_or_of_and_eq_zero _ _ hdisjoint]
  cases cin <;> rfl

theorem rolResult_eq_ofNat (cin : Bool) (v : Byte) :
    rolResult cin v = BitVec.ofNat 8 (2 * v.toNat % 256 + cin.toNat) := by
  rw [rolResult_eq_add, aslResult_eq_ofNat, BitVec.ofNat_add]

theorem rorResult_eq_ofNat (cin : Bool) (v : Byte) :
    rorResult cin v = BitVec.ofNat 8 (v.toNat / 2 + 128 * cin.toNat) := by
  rw [rorResult_eq_add, lsrResult_eq_ofNat, BitVec.ofNat_add]

/-! ## What a read-modify-write leaves (R160) -/

/-- `WriteResult(op, r)`: to `A` without an access, or by one read and one write of the byte at the effective address. -/
def WritesBack (f : OperandForm) (r : Byte) (s t : State) : Prop :=
  if f = .acc then operandByte f s = s.a ∧ t.a = r ∧ t.bus = s.bus ∧ SameMemory s t
  else t.a = s.a ∧ (s.Plain → t.mem.get (resolve f s).addr = r) ∧ SameMemoryOutside [(resolve f s).addr] s t ∧
    t.bus = (afterResolve f s).bus ++
      [.read (resolve f s).addr (operandByte f s), .write (resolve f s).addr r]

theorem eq_acc_of_mode {f : OperandForm} (h : f.mode = .acc) : f = .acc := by
  cases f with
  | acc => rfl
  | _ => cases h

theorem writeResult_eq_memWrite {f : OperandForm} (hf : f ≠ .acc) (addr : Word) (r : Byte) (s : State) :
    writeResult f addr r s = s.memWrite addr r := by
  cases f with
  | acc => exact absurd rfl hf
  | _ => rfl

/-- On plain memory a write is read back. -/
theorem State.get_memWrite_self {s : State} (h : s.Plain) (addr : Word) (v : Byte) :
    (s.memWrite addr v).mem.get addr = v := by
  obtain ⟨hreplies, hwf⟩ := h
  rw [State.memWrite_mem_plain hreplies]
  exact Memory.get_set_same _ _ _ hwf

/-- A handler's read leaves plain memory plain. -/
theorem plain_afterOperandByte {s : State} (h : s.Plain) (f : OperandForm) : (afterOperandByte f s).Plain :=
  ⟨afterOperandByte_plain h.1 f, (afterOperandByte_mem s f).symm ▸ h.2⟩

section
variable {i : Instr} {f : OperandForm} {result : Byte → Byte} {flags : Byte → Byte → Byte} {s t : State}

theorem runModify_p (h : runModify i f result flags s = .next t) : t.p = flags (operandByte f s) s.p := by
  simp only [runModify, Host.Outcome.next.injEq] at h
  simp [← h]

theorem runModify_frame (h : runModify i f result flags s = .next t) :
    t.x = s.x ∧ t.y = s.y ∧ t.sp = s.sp ∧ t.pc = s.pc + BitVec.ofNat 16 f.length ∧ SameControl s t := by
  simp only [runModify, Host.Outcome.next.injEq] at h
  simp [← h, SameControl]

theorem runModify_writesBack (hf : f.mode ≠ .imm) (h : runModify i f result flags s = .next t) :
    WritesBack f (result (operandByte f s)) s t := by
  simp only [runModify, Host.Outcome.next.injEq] at h
  subst h
  unfold WritesBack
  split
  case isTrue hacc =>
    subst hacc
    exact ⟨rfl, rfl, rfl, fun _ => rfl⟩
  case isFalse hacc =>
    rw [writeResult_eq_memWrite hacc]
    refine ⟨by simp, fun hs => ?readBack, fun a ha => ?frame, ?accesses⟩
    case readBack => exact State.get_memWrite_self (plain_afterOperandByte hs f) _ _
    case frame =>
      have hother := (afterOperandByte f s).get_memWrite_other (result (operandByte f s)) (List.ne_of_not_mem_cons ha)
      exact hother.trans (by rw [afterOperandByte_mem])
    case accesses =>
      have hread : ¬(f.mode = .acc ∨ f.mode = .imm) := not_or.mpr ⟨mt eq_acc_of_mode hacc, hf⟩
      have hbus := afterOperandByte_bus s f
      rw [if_neg hread] at hbus
      simp [hbus]

end

/-! ## The four instructions as one shape -/

/-- `SetZN` of the result and C from the bit shifted out. -/
theorem flags_of_shiftFlags {s t : State} {out : Bool} {r : Byte} (h : t.p = shiftFlags out r s.p) :
    flag .c t.p = out ∧ ZNFollow r t ∧ SameFlagsOutside [.c, .z, .n] s t := by
  have hflag (g : Flag) : flag g t.p = _ := (congrArg (flag g) h).trans (flag_shiftFlags g out r s.p)
  refine ⟨hflag .c, ⟨(hflag .z).trans (Bool.beq_eq_decide_eq r 0), (hflag .n).trans (getLsbD_seven r)⟩, fun g hg => ?others⟩
  case others =>
    rw [hflag]
    cases g with
    | c | z | n => simp at hg
    | _ => rfl

/-- In `s` instruction `i` shifts its operand to the number `n`, and the bit shifted out is `carry`. -/
def ShiftsTo (i : Instr) (f : OperandForm) (s : State) (n : Nat) (carry : Bool) : Prop :=
  ∃ (result : Byte → Byte) (out : Byte → Bool),
    exec i s = runModify i f result (fun v p => shiftFlags (out v) (result v) p) s ∧
    result (operandByte f s) = BitVec.ofNat 8 n ∧ out (operandByte f s) = carry

section
variable (f : OperandForm) (s : State)

theorem asl_shiftsTo :
    ShiftsTo (.asl f) f s (2 * (operandByte f s).toNat % 256) (decide (128 ≤ (operandByte f s).toNat)) :=
  ⟨aslResult, (·.getLsbD 7), rfl, aslResult_eq_ofNat _, getLsbD_seven _⟩

theorem lsr_shiftsTo :
    ShiftsTo (.lsr f) f s ((operandByte f s).toNat / 2) (decide ((operandByte f s).toNat % 2 = 1)) :=
  ⟨lsrResult, (·.getLsbD 0), rfl, lsrResult_eq_ofNat _, getLsbD_zero _⟩

theorem rol_shiftsTo :
    ShiftsTo (.rol f) f s (2 * (operandByte f s).toNat % 256 + (flag .c s.p).toNat)
      (decide (128 ≤ (operandByte f s).toNat)) :=
  ⟨rolResult (flag .c s.p), (·.getLsbD 7), rfl, rolResult_eq_ofNat _ _, getLsbD_seven _⟩

theorem ror_shiftsTo :
    ShiftsTo (.ror f) f s ((operandByte f s).toNat / 2 + 128 * (flag .c s.p).toNat)
      (decide ((operandByte f s).toNat % 2 = 1)) :=
  ⟨rorResult (flag .c s.p), (·.getLsbD 0), rfl, rorResult_eq_ofNat _ _, getLsbD_zero _⟩

end

/-- Settles O29: each of the four is a read-modify-write by `ShiftsTo`, and R94 gives none of them mode IMM. -/
theorem shiftsMoveOneBit : Obligations.ShiftsMoveOneBit := by
  intro f s v c q hq hwf r
  have hshift : shiftModes.contains f.mode = true ∧ ShiftsTo q.1 f s q.2.1 q.2.2 := by
    simp only [List.mem_cons, List.not_mem_nil, or_false] at hq
    obtain rfl | rfl | rfl | rfl := hq
    · exact ⟨hwf, asl_shiftsTo f s⟩
    · exact ⟨hwf, lsr_shiftsTo f s⟩
    · exact ⟨hwf, rol_shiftsTo f s⟩
    · exact ⟨hwf, ror_shiftsTo f s⟩
  obtain ⟨hmode, result, out, hexec, hresult, hout⟩ := hshift
  have hf : f.mode ≠ .imm := fun himm => by
    rw [himm] at hmode
    exact absurd hmode (by decide)
  obtain ⟨t, ht⟩ : ∃ t, exec q.1 s = .next t := ⟨_, hexec⟩
  have hrun := hexec.symm.trans ht
  have hplace := runModify_writesBack hf hrun
  have hp := runModify_p hrun
  rw [hresult] at hplace hp
  rw [hout] at hp
  obtain ⟨hcarry, hzn, hothers⟩ := flags_of_shiftFlags hp
  exact ⟨t, ht, hcarry, hzn, hothers, hplace, runModify_frame hrun⟩

end Sys2Proof.Machine
end

section
/-! SUPPORT. The family `48_branch.md`: the target and its page as numbers, and what a branch leaves (R180). -/

namespace Sys2Proof.Machine

/-! ## The target and its page as numbers -/

/-- Sign extension keeps the displacement's value, so adding it wraps as signed addition does (R7, R180). -/
theorem toNat_add_sext16 (w : Word) (d : Byte) : ((w + sext16 d).toNat : Int) = (w.toNat + d.toInt) % 65536 := by
  have hsext : (sext16 d).toInt = d.toInt := BitVec.toInt_signExtend_of_le (by decide)
  rw [← hsext, BitVec.toInt_eq_toNat_cond, BitVec.toNat_add]
  split <;> omega

/-- Two addresses are on one page iff their numbers are in one block of 256 (40_step_and_addressing.md R91). -/
theorem hi_eq_hi_iff (v w : Word) : hi v = hi w ↔ (v.toNat : Int) / 256 = (w.toNat : Int) / 256 := by
  rw [← BitVec.toNat_inj, hi_toNat, hi_toNat]
  omega

/-! ## `Branch(cond)` by its condition (R180) -/

section
variable (i : Instr) (d : Byte) (s : State)

/-- Not taken, a branch only goes on to the following instruction. -/
theorem runBranch_notTaken : runBranch i false d s = .next ((s.setPc (s.pc + 2)).returns i false 0) := rfl

/-- Taken, it adds the displacement to the following instruction's address and counts one cycle, or two for another page. -/
theorem runBranch_taken :
    runBranch i true d s = .next ((s.setPc (s.pc + 2 + sext16 d)).returns i false
      (if hi (s.pc + 2 + sext16 d) = hi (s.pc + 2) then 1 else 2)) := by
  have hpage : (if hi (s.pc + 2 + sext16 d) != hi (s.pc + 2) then 2 else 1) =
      if hi (s.pc + 2 + sext16 d) = hi (s.pc + 2) then 1 else 2 := by
    simp only [bne_iff_ne, ne_eq, ite_not]
  rw [← hpage]
  rfl

end

/-- An instruction of two base cycles without a crossing counts the handler's cycles on top of 2 (R92). -/
theorem cycleCount_of_baseCycles_two {i : Instr} (h : (tableEntry i).baseCycles = 2) (hx : Nat) :
    cycleCount i false hx = 2 + hx := by
  rw [cycleCount, h]
  rfl

/-- Settles O35: each of the eight is `runBranch` under its flag with two base cycles; then by whether it is taken. -/
theorem branchesTestOneFlag : Obligations.BranchesTestOneFlag := by
  intro s d q hq following target
  have hbranch : exec q.1 s = runBranch q.1 q.2 d s ∧ (tableEntry q.1).baseCycles = 2 := by
    simp only [List.mem_cons, List.not_mem_nil, or_false] at hq
    obtain rfl | rfl | rfl | rfl | rfl | rfl | rfl | rfl := hq <;> exact ⟨rfl, rfl⟩
  obtain ⟨hexec, hbase⟩ := hbranch
  have hfollowing : (s.pc + 2).toNat = following := s.pc.toNat_add 2
  have htarget : ((s.pc + 2 + sext16 d).toNat : Int) = target := by
    rw [toNat_add_sext16, hfollowing]
  have hpage : hi (s.pc + 2 + sext16 d) = hi (s.pc + 2) ↔ target / 256 = (following : Int) / 256 := by
    rw [hi_eq_hi_iff, htarget, hfollowing]
  obtain ⟨i, taken⟩ := q
  cases taken with
  | false =>
    refine ⟨_, hexec.trans (runBranch_notTaken i d s), ?pc, ?cycles, rfl, rfl, rfl, rfl, rfl, rfl, ⟨rfl, rfl, rfl⟩,
      fun _ => rfl⟩
    case pc => exact congrArg Nat.cast hfollowing
    case cycles => rw [State.returns_stepCycles, cycleCount_of_baseCycles_two hbase]; rfl
  | true =>
    refine ⟨_, hexec.trans (runBranch_taken i d s), htarget, ?cycles, rfl, rfl, rfl, rfl, rfl, rfl, ⟨rfl, rfl, rfl⟩,
      fun _ => rfl⟩
    case cycles =>
      rw [State.returns_stepCycles, cycleCount_of_baseCycles_two hbase]
      by_cases hsame : target / 256 = (following : Int) / 256
      · rw [if_pos (hpage.mpr hsame), if_pos rfl, if_pos hsame]; rfl
      · rw [if_neg (mt hpage.mp hsame), if_pos rfl, if_neg hsame]; rfl

end Sys2Proof.Machine
end

section
/-! SUPPORT. The family `70_reset_and_hazards.md`: the cycle count a Step returns (R252). -/

namespace Sys2Proof.Machine

/-! ## No operation reads the count -/

section
variable (f : OperandForm) (s : State) (c : Option Byte)

@[simp] theorem resolve_setCycles : resolve f (s.setCycles c) = resolve f s := by cases f <;> rfl

@[simp] theorem atHandler_setCycles : atHandler f (s.setCycles c) = (atHandler f s).setCycles c := by cases f <;> rfl

@[simp] theorem operandByte_setCycles : operandByte f (s.setCycles c) = operandByte f s := by cases f <;> rfl

@[simp] theorem afterOperandByte_setCycles :
    afterOperandByte f (s.setCycles c) = (afterOperandByte f s).setCycles c := by cases f <;> rfl

@[simp] theorem writeResult_setCycles (addr : Word) (r : Byte) :
    writeResult f addr r (s.setCycles c) = (writeResult f addr r s).setCycles c := by cases f <;> rfl

/-- What a handler returns replaces the count before it. -/
@[simp] theorem State.returns_setCycles (i : Instr) (crossed : Bool) (hx : Nat) :
    (s.setCycles c).returns i crossed hx = s.returns i crossed hx := rfl

@[simp] theorem State.interruptEntry_setCycles (k : InterruptKind) :
    (s.setCycles c).interruptEntry k = s.interruptEntry k := by cases k <;> rfl

@[simp] theorem State.afterFetch_setCycles : (s.setCycles c).afterFetch = s.afterFetch.setCycles c := by
  unfold State.afterFetch
  simp only [State.setCycles_pc, State.memRead_setCycles]
  split <;> rfl

/-! ## Nor does a handler -/

theorem runRead_setCycles {i : Instr} {act : Byte → State → State}
    (hact : ∀ m r, act m (r.setCycles c) = (act m r).setCycles c) :
    runRead i f act (s.setCycles c) = runRead i f act s := by
  simp [runRead, hact]

theorem runStore_setCycles (i : Instr) (v : Byte) : runStore i f v (s.setCycles c) = runStore i f v s := by
  simp only [runStore, atHandler_setCycles, resolve_setCycles]
  rfl

theorem runModify_setCycles (i : Instr) (result : Byte → Byte) (flags : Byte → Byte → Byte) :
    runModify i f result flags (s.setCycles c) = runModify i f result flags s := by
  simp only [runModify, operandByte_setCycles, afterOperandByte_setCycles, resolve_setCycles, writeResult_setCycles]
  rfl

theorem runImplied_setCycles {i : Instr} {act : State → State}
    (hact : ∀ r, act (r.setCycles c) = (act r).setCycles c) : runImplied i act (s.setCycles c) = runImplied i act s := by
  simp [runImplied, hact]

theorem runBranch_setCycles (i : Instr) (cond : Bool) (d : Byte) :
    runBranch i cond d (s.setCycles c) = runBranch i cond d s := by
  cases cond with
  | false => rfl
  | true => rw [runBranch_taken, runBranch_taken]; rfl

theorem execJmp_setCycles : execJmp f (s.setCycles c) = execJmp f s := by
  simp only [execJmp, atHandler_setCycles, resolve_setCycles]
  rfl

theorem execIll_setCycles (op : Byte) : execIll op (s.setCycles c) = execIll op s := by
  unfold execIll
  rw [State.setCycles_cfg]
  split <;> rfl

/-- Whatever the instruction, by the shape of its handler; those without an operand are the last case. -/
theorem exec_setCycles (i : Instr) : exec i (s.setCycles c) = exec i s := by
  cases i with
  | lda f | ldx f | ldy f | and f | ora f | eor f | bit f | adc f | sbc f | cmp f | cpx f | cpy f =>
    simp only [exec]
    exact runRead_setCycles f s c fun _ _ => by rfl
  | sta f | stx f | sty f => exact runStore_setCycles f s c _ _
  | inc f | dec f | asl f | lsr f | rol f | ror f =>
    simp only [exec]
    exact runModify_setCycles f s c _ _ _
  | bpl d | bmi d | bvc d | bvs d | bcc d | bcs d | bne d | beq d => exact runBranch_setCycles s c _ _ d
  | jmp f => exact execJmp_setCycles f s c
  | jsr w => rfl
  | ill op => exact execIll_setCycles s c op
  | _ =>
    simp only [exec]
    exact runImplied_setCycles s c fun _ => by rfl

/-- A Step is the same Step after any count (R252). -/
theorem step_setCycles : step (s.setCycles c) = step s := by
  cases hl : s.launchable with
  | false => exact (step_refused (s := s.setCycles c) hl).trans (step_refused hl).symm
  | true =>
    cases hk : s.pendingInterrupt with
    | some k =>
      rw [step_interrupt hl hk, step_interrupt (s := s.setCycles c) hl hk]
      exact congrArg _ ((s.setBus []).interruptEntry_setCycles c k)
    | none =>
      rw [step_instruction hl hk, step_instruction (s := s.setCycles c) hl hk]
      exact (congrArg _ ((s.setBus []).afterFetch_setCycles c)).trans (exec_setCycles _ c _)

end

/-! ## The count lies in 1 to 7 -/

/-- The last Step returned a count, and one from 1 to 7. -/
def State.CountInRange (t : State) : Prop :=
  ∃ n : Byte, t.stepCycles = some n ∧ 1 ≤ n.toNat ∧ n.toNat ≤ 7

/-- The opcode table's cycles with the extra cycle of a crossing, by evaluation of the table (70_reset_and_hazards.md R251). -/
theorem opcodeInfo_cycles : ∀ op : Byte,
    1 ≤ (opcodeInfo op).baseCycles ∧ (opcodeInfo op).baseCycles + (opcodeInfo op).extraCycle ≤ 7 := by
  set_option maxRecDepth 20000 in decide

theorem tableEntry_cycles (i : Instr) :
    1 ≤ (tableEntry i).baseCycles ∧ (tableEntry i).baseCycles + (tableEntry i).extraCycle ≤ 7 := by
  unfold tableEntry
  split
  · exact opcodeInfo_cycles _
  · decide

/-- A count of 1 to 7 fits the unsigned byte a Step returns it in (R70). -/
theorem State.countInRange_returns (s : State) {i : Instr} {crossed : Bool} {hx : Nat} (hlow : 1 ≤ cycleCount i crossed hx)
    (hhigh : cycleCount i crossed hx ≤ 7) : (s.returns i crossed hx).CountInRange := by
  have hfits : (BitVec.ofNat 8 (cycleCount i crossed hx)).toNat = cycleCount i crossed hx :=
    (BitVec.toNat_ofNat _ _).trans (Nat.mod_eq_of_lt (by omega))
  exact ⟨_, rfl, by omega, by omega⟩

/-- A handler that adds no cycle of its own returns the table's, with or without the crossing's. -/
theorem State.countInRange_returns_zero (s : State) (i : Instr) (crossed : Bool) :
    (s.returns i crossed 0).CountInRange := by
  obtain ⟨hbase, htotal⟩ := tableEntry_cycles i
  have hextra : (if crossed then (tableEntry i).extraCycle else 0) ≤ (tableEntry i).extraCycle := by
    split <;> omega
  exact s.countInRange_returns (by unfold cycleCount; omega) (by unfold cycleCount; omega)

/-- A branch adds at most two cycles to its two (48_branch.md R180). -/
theorem runBranch_countInRange {i : Instr} {cond : Bool} {d : Byte} {s t : State} (hbase : (tableEntry i).baseCycles = 2)
    (h : runBranch i cond d s = .next t) : t.CountInRange := by
  have hcount := cycleCount_of_baseCycles_two hbase
  cases cond with
  | false =>
    cases h
    exact State.countInRange_returns_zero _ i false
  | true =>
    cases (runBranch_taken i d s).symm.trans h
    apply State.countInRange_returns <;> rw [hcount] <;> split <;> decide

theorem execIll_countInRange {op : Byte} {s t : State} (h : execIll op s = .next t) : t.CountInRange := by
  unfold execIll at h
  split at h
  · cases h
    exact State.countInRange_returns_zero _ (.ill op) false
  · cases h

/-- All but the branches leave the handler's own cycles at 0 (40_step_and_addressing.md R92). -/
theorem exec_countInRange {i : Instr} {s t : State} (h : exec i s = .next t) : t.CountInRange := by
  cases i with
  | bpl d | bmi d | bvc d | bvs d | bcc d | bcs d | bne d | beq d => exact runBranch_countInRange rfl h
  | ill op => exact execIll_countInRange h
  | _ =>
    cases h
    exact State.countInRange_returns_zero _ _ _

theorem step_countInRange {s t : State} (h : step s = .next t) : t.CountInRange := by
  obtain ⟨-, ⟨k, -, rfl⟩ | ⟨-, hexec⟩⟩ := step_next_cases h
  · exact ⟨7, State.interruptEntry_stepCycles _ k, by decide, by decide⟩
  · exact exec_countInRange hexec

/-- Settles O51: no operation of a Step reads the count, and what a Step returns is the table's, a taken branch's or 7. -/
theorem cycleCountLiesInOneToSeven : Obligations.CycleCountLiesInOneToSeven :=
  fun s _ c h => ⟨(step_setCycles s c).trans h, step_countInRange h⟩

end Sys2Proof.Machine
end

section
/-! SUPPORT. The family `30_encoding.md`: the round trips of decoder and encoder (R51 to R59) and the opcode table (R62). -/

namespace Sys2Proof.Laws

/-! ## Which entry of the table an encoded instruction has (R56) -/

/-- The mnemonic of an instruction, as the opcode table names it. -/
def mnemonicOf : Instr → Mnemonic
  | .lda _ => .lda
  | .ldx _ => .ldx
  | .ldy _ => .ldy
  | .sta _ => .sta
  | .stx _ => .stx
  | .sty _ => .sty
  | .tax => .tax
  | .tay => .tay
  | .txa => .txa
  | .tya => .tya
  | .tsx => .tsx
  | .txs => .txs
  | .pha => .pha
  | .php => .php
  | .pla => .pla
  | .plp => .plp
  | .and _ => .and
  | .ora _ => .ora
  | .eor _ => .eor
  | .bit _ => .bit
  | .adc _ => .adc
  | .sbc _ => .sbc
  | .cmp _ => .cmp
  | .cpx _ => .cpx
  | .cpy _ => .cpy
  | .inc _ => .inc
  | .dec _ => .dec
  | .inx => .inx
  | .iny => .iny
  | .dex => .dex
  | .dey => .dey
  | .asl _ => .asl
  | .lsr _ => .lsr
  | .rol _ => .rol
  | .ror _ => .ror
  | .jmp _ => .jmp
  | .jsr _ => .jsr
  | .rts => .rts
  | .bpl _ => .bpl
  | .bmi _ => .bmi
  | .bvc _ => .bvc
  | .bvs _ => .bvs
  | .bcc _ => .bcc
  | .bcs _ => .bcs
  | .bne _ => .bne
  | .beq _ => .beq
  | .clc => .clc
  | .sec => .sec
  | .cli => .cli
  | .sei => .sei
  | .cld => .cld
  | .sed => .sed
  | .clv => .clv
  | .nop => .nop
  | .brk => .brk
  | .rti => .rti
  | .ill _ => .ill

/-- A pair of mnemonic and mode without an opcode is not well formed (R94). -/
theorem not_wellFormed_of_opcodeOf_none {i : Instr} (h : opcodeOf i = none) : i.wellFormed = false := by
  cases i with
  | lda f | ldx f | ldy f | sta f | stx f | sty f | and f | ora f | eor f | bit f | adc f | sbc f | cmp f | cpx f | cpy f
  | inc f | dec f | asl f | lsr f | rol f | ror f | jmp f => cases f <;> cases h <;> rfl
  | _ => cases h

theorem opcodeOf_of_wellFormed {i : Instr} (h : i.wellFormed = true) : ∃ op, opcodeOf i = some op := by
  refine Option.ne_none_iff_exists'.mp fun hnone => ?_
  rw [not_wellFormed_of_opcodeOf_none hnone] at h
  cases h

/-- The encoder's opcode byte is bound in the table to the mnemonic and the mode it was chosen for (R56, R62). -/
theorem opcodeInfo_of_opcodeOf {i : Instr} {op : Byte} (hi : i.wellFormed = true) (h : opcodeOf i = some op) :
    (opcodeInfo op).mnemonic = mnemonicOf i ∧ (opcodeInfo op).mode = i.form.mode := by
  cases i with
  | lda f | ldx f | ldy f | sta f | stx f | sty f | and f | ora f | eor f | bit f | adc f | sbc f | cmp f | cpx f | cpy f
  | inc f | dec f | asl f | lsr f | rol f | ror f | jmp f => cases f <;> cases h <;> exact ⟨rfl, rfl⟩
  | ill b =>
    obtain rfl : b = op := Option.some.inj h
    rw [opcodeInfo_illegal b hi]
    exact ⟨rfl, rfl⟩
  | _ => cases h; exact ⟨rfl, rfl⟩

/-! ## Decoding an encoding -/

section
variable {op : Byte}

theorem decode_one (h : (opcodeInfo op).length = 1) (rest : List Byte) :
    decode (op :: rest) = .ok (assemble op 0 0, rest) := by simp only [decode, h]

theorem decode_two (h : (opcodeInfo op).length = 2) (b1 : Byte) (rest : List Byte) :
    decode (op :: b1 :: rest) = .ok (assemble op b1 0, rest) := by simp only [decode, h]

theorem decode_three (h : (opcodeInfo op).length = 3) (b1 b2 : Byte) (rest : List Byte) :
    decode (op :: b1 :: b2 :: rest) = .ok (assemble op b1 b2, rest) := by simp only [decode, h]

/-- After an opcode byte only a missing operand byte is an error (R58, R59). -/
theorem decode_error_iff (tail : List Byte) :
    (∃ e, decode (op :: tail) = .error e) ↔ tail.length + 1 < (opcodeInfo op).length := by
  obtain h | h | h := opcodeInfo_length_cases op <;> simp only [decode, h]
  · simp
  · cases tail with
    | nil => simp
    | cons b1 tail => simp
  · match tail with
    | [] => simp
    | [b1] => simp
    | b1 :: b2 :: tail => simp

end

/-- The table entry of `i` and operand bytes that give the form of `i` assemble to `i` (R51, R53). -/
theorem assemble_of_opcodeOf {i : Instr} {op b1 b2 : Byte} (hi : i.wellFormed = true) (h : opcodeOf i = some op)
    (hform : operandForm i.form.mode b1 b2 = i.form) : assemble op b1 b2 = i := by
  obtain ⟨hmnemonic, hmode⟩ := opcodeInfo_of_opcodeOf hi h
  rw [← hmode] at hform
  unfold assemble
  rw [hmnemonic, hform]
  cases i with
  | jsr w =>
    rw [hmode] at hform
    exact congrArg Instr.jsr (OperandForm.abs.inj hform)
  | bpl d | bmi d | bvc d | bvs d | bcc d | bcs d | bne d | beq d =>
    rw [hmode] at hform
    cases OperandForm.rel.inj hform
    rfl
  | ill b => cases h; rfl
  | _ => rfl

/-- With its operand bytes all there, an opcode byte is decoded to what it assembles to with them (R53, R54). -/
theorem decode_form_bytes {op : Byte} {f : OperandForm} (h : (opcodeInfo op).length = f.length) (rest : List Byte) :
    ∃ b1 b2, operandForm f.mode b1 b2 = f ∧ decode (op :: f.bytes ++ rest) = .ok (assemble op b1 b2, rest) := by
  cases f with
  | imp | acc => exact ⟨0, 0, rfl, decode_one h rest⟩
  | imm b | zp b | zpx b | zpy b | rel b | izx b | izy b => exact ⟨b, 0, rfl, decode_two h b rest⟩
  | abs w | abx w | aby w | ind w =>
    exact ⟨lo w, hi w, by rw [OperandForm.mode, operandForm, join_hi_lo], decode_three h (lo w) (hi w) rest⟩

/-- Settles O1: the table's entry of the encoder's opcode byte has the instruction's mnemonic and mode, so the decoder reads as
many operand bytes as the form has, and assembles them to it. -/
theorem decodeInvertsEncode : Obligations.DecodeInvertsEncode := by
  intro i rest hi
  obtain ⟨op, hop⟩ := opcodeOf_of_wellFormed hi
  obtain ⟨-, hmode⟩ := opcodeInfo_of_opcodeOf hi hop
  have hlength : (opcodeInfo op).length = i.form.length := (opcodeInfo_length op).trans (congrArg Mode.length hmode)
  obtain ⟨b1, b2, hform, hdecode⟩ := decode_form_bytes hlength rest
  rw [encode, hop]
  rw [assemble_of_opcodeOf hi hop hform] at hdecode
  exact hdecode

/-! ## Encoding what was decoded -/

/-- What is decoded was assembled of an opcode byte and as many operand bytes as its entry gives it (R54). -/
theorem decode_ok {bytes rest : List Byte} {i : Instr} (h : decode bytes = .ok (i, rest)) :
    ∃ op b1 b2, i = assemble op b1 b2 ∧ bytes = op :: [b1, b2].take ((opcodeInfo op).length - 1) ++ rest := by
  cases bytes with
  | nil => cases h
  | cons op tail =>
    obtain hlength | hlength | hlength := opcodeInfo_length_cases op <;> simp only [decode, hlength] at h ⊢
    · cases h
      exact ⟨op, 0, 0, rfl, by rw [hlength]; rfl⟩
    · cases tail with
      | nil => cases h
      | cons b1 tail => cases h; exact ⟨op, b1, 0, rfl, by rw [hlength]; rfl⟩
    · match tail with
      | [] | [_] => cases h
      | b1 :: b2 :: tail => cases h; exact ⟨op, b1, b2, rfl, by rw [hlength]; rfl⟩

/-- An assembled instruction is encoded as the bytes it was assembled of (R50, R53). -/
theorem encode_assemble (op b1 b2 : Byte) :
    encode (assemble op b1 b2) = op :: [b1, b2].take ((opcodeInfo op).length - 1) := by
  rw [encode, (assemble_opcode op b1 b2).1, assemble_form, opcodeInfo_length, ← operandForm_bytes]

/-- Settles O2: what is decoded was assembled, and an assembled instruction is well formed and encoded as its bytes. -/
theorem encodeInvertsDecode : Obligations.EncodeInvertsDecode := by
  intro bytes i rest h
  obtain ⟨op, b1, b2, rfl, rfl⟩ := decode_ok h
  exact ⟨(assemble_opcode op b1 b2).2, by rw [encode_assemble]⟩

/-! ## What is not decoded -/

/-- Settles O3: no byte is no instruction, and after the opcode byte by the length its entry gives. -/
theorem onlyMissingBytesAreRejected : Obligations.OnlyMissingBytesAreRejected := by
  intro bytes
  cases bytes with
  | nil => exact ⟨fun _ => Nat.zero_lt_one, fun _ => ⟨.noOpcode, rfl⟩⟩
  | cons op tail =>
    have h := decode_error_iff (op := op) tail
    rw [opcodeInfo_length] at h
    exact h

/-- Settles O4: each of the spec's byte sequences is the encoding of its instruction, which is well formed. -/
theorem specBytesDecode : Obligations.SpecBytesDecode := by
  intro q hq
  have hencoded : q.2.wellFormed = true ∧ q.1 = encode q.2 ++ [] := by
    revert q
    decide
  rw [hencoded.2]
  exact decodeInvertsEncode q.2 [] hencoded.1

/-! ## The opcode table (R62), by evaluation over the 256 bytes -/

theorem opcodeInfo_ill_iff : ∀ op : Byte, (opcodeInfo op).mnemonic = .ill ↔ op ∈ illegalOpcodes := by
  set_option maxRecDepth 20000 in decide

theorem opcodeInfo_rel_iff_mnemonic : ∀ op : Byte,
    (opcodeInfo op).mode = .rel ↔ (opcodeInfo op).mnemonic ∈ [.bpl, .bmi, .bvc, .bvs, .bcc, .bcs, .bne, .beq] := by
  set_option maxRecDepth 20000 in decide

theorem opcodeInfo_rel_iff : ∀ op : Byte,
    (opcodeInfo op).mode = .rel ↔ op ∈ [(0x10 : Byte), 0x30, 0x50, 0x70, 0x90, 0xB0, 0xD0, 0xF0] := by
  set_option maxRecDepth 20000 in decide

theorem opcodeInfo_acc_iff : ∀ op : Byte, (opcodeInfo op).mode = .acc ↔ op ∈ [(0x0A : Byte), 0x2A, 0x4A, 0x6A] := by
  set_option maxRecDepth 20000 in decide

theorem opcodeInfo_ind_iff : ∀ op : Byte, (opcodeInfo op).mode = .ind ↔ op = 0x6C := by
  set_option maxRecDepth 20000 in decide

theorem opcodeInfo_extraCycle : ∀ op : Byte, (opcodeInfo op).extraCycle = 0 ∨
    (opcodeInfo op).extraCycle = 1 ∧ (opcodeInfo op).mode ∈ [.abx, .aby, .izy] ∧
      (opcodeInfo op).mnemonic ∈ [.lda, .ldx, .ldy, .and, .ora, .eor, .adc, .cmp, .sbc] := by
  set_option maxRecDepth 20000 in decide

theorem opcodeInfo_extraCycle_iff : ∀ op : Byte, (opcodeInfo op).extraCycle = 1 ↔
    op ∈ [(0x1D : Byte), 0x19, 0x11, 0x3D, 0x39, 0x31, 0x5D, 0x59, 0x51, 0x7D, 0x79, 0x71,
      0xBD, 0xB9, 0xB1, 0xDD, 0xD9, 0xD1, 0xFD, 0xF9, 0xF1, 0xBE, 0xBC] := by
  set_option maxRecDepth 20000 in decide

theorem opcodeInfo_baseCycles : ∀ op : Byte, ∃ figure ∈ Machine.cycleFigures, (opcodeInfo op).mnemonic ∈ figure.1 ∧
    (opcodeInfo op).mode ∈ figure.2.1 ∧ (opcodeInfo op).baseCycles = figure.2.2 := by
  set_option maxRecDepth 20000 in decide

/-- Settles O5: one invariant of R62 at a time. -/
theorem opcodeTableIsValid : Obligations.OpcodeTableIsValid := by
  refine ⟨rfl, ?distinct, fun op => ⟨opcodeInfo_ill_iff op, opcodeInfo_rel_iff_mnemonic op, opcodeInfo_rel_iff op,
    opcodeInfo_acc_iff op, opcodeInfo_ind_iff op, opcodeInfo_extraCycle op, opcodeInfo_extraCycle_iff op,
    opcodeInfo_baseCycles op, opcodeInfo_length op⟩⟩
  case distinct => set_option maxRecDepth 20000 in decide

end Sys2Proof.Laws
end

section
/-! SUPPORT. What Steps, acts of the host and runs keep (10_state.md R16, R24; 20_memory.md R43), and when a Step answers a next
state (40_step_and_addressing.md R93). -/

namespace Sys2Proof.Machine

variable {s t : State}

/-! ## What a Step keeps -/

/-- Whatever a Step does, it keeps both parts of the invariant and the parameters of the run. -/
theorem step_keeps (h : step s = .next t) :
    (s.mem.wf = true → t.mem.wf = true) ∧ (flag .u s.p = true → flag .u t.p = true) ∧ t.cfg = s.cfg := by
  obtain ⟨-, ⟨k, -, rfl⟩ | ⟨-, hexec⟩⟩ := step_next_cases h
  · exact ⟨fun hw => State.wf_interruptEntry (s := s.setBus []) hw k, by simp, by simp⟩
  · have hkept := (kept_afterFetch (s.setBus [])).trans (exec_kept hexec)
    exact ⟨hkept.wf, hkept.u, hkept.cfg⟩

theorem step_inv (h : step s = .next t) (hs : s.Inv) : t.Inv :=
  ⟨(step_keeps h).1 hs.1, (step_keeps h).2.1 hs.2⟩

/-- A Step begins with an empty record and reaches memory by the accesses it records. -/
theorem step_performs (h : step s = .next t) : Performs (s.setBus []) t := by
  obtain ⟨-, ⟨k, -, rfl⟩ | ⟨-, hexec⟩⟩ := step_next_cases h
  · exact performs_interruptEntry _ k
  · exact (performs_afterFetch _).trans (exec_performs hexec)

/-- From an empty record, the accesses made are the ones recorded. -/
theorem Performs.accesses_bus (h : Performs s t) (hs : s.bus = []) :
    (s.accesses t.bus).mem = t.mem ∧ (s.accesses t.bus).bus = t.bus := by
  obtain ⟨l, hmem, -, hbus, hl⟩ := h
  rw [hs, List.nil_append] at hl
  rw [hl]
  exact ⟨hmem.symm, hbus.symm.trans hl⟩

/-- Settles O59: a Step performs its recorded accesses from an empty record, and keeps the invariant. -/
theorem stepKeepsTheInvariant : Obligations.StepKeepsTheInvariant := by
  intro s t h
  have hperforms := step_performs h
  obtain ⟨hmem, hbus⟩ := hperforms.accesses_bus rfl
  have hreplies : t.replies = s.replies.drop t.bus.length := hperforms.replies rfl
  refine ⟨step_inv h, hmem, hbus, hreplies, fun ⟨hnone, hwf⟩ => ⟨?noAnswer, (step_keeps h).1 hwf⟩⟩
  case noAnswer => rw [hreplies, hnone, List.drop_nil]

/-! ## What an act of the host keeps -/

theorem hostReset_inv (hs : s.Inv) : s.hostReset.Inv :=
  ⟨hs.1, show flag .u 0x20 = true by decide⟩

/-- The host's write of `P` is refused where it would clear bit 5 (10_state.md R27). -/
theorem hostWriteP_inv {v : Byte} (hs : s.Inv) (h : s.hostWriteP v = .next t) : t.Inv := by
  unfold State.hostWriteP at h
  split at h
  · cases h; exact ⟨hs.1, ‹_›⟩
  · cases h

/-- Of the acts of the host only Reset and the write of `P` touch bit 5, and only `poke` touches memory. -/
theorem host_inv {a : HostAction} (hs : s.Inv) (h : s.host a = .next t) : t.Inv := by
  cases a with
  | reset => cases h; exact hostReset_inv hs
  | writeP v => exact hostWriteP_inv hs h
  | poke addr v => cases h; exact ⟨Memory.wf_set _ _ _ hs.1, hs.2⟩
  | _ => cases h; exact hs

theorem host_cfg {a : HostAction} (h : s.host a = .next t) : t.cfg = s.cfg := by
  cases a with
  | writeP v =>
    change s.hostWriteP v = .next t at h
    unfold State.hostWriteP at h
    split at h <;> cases h
    rfl
  | _ => cases h; rfl

/-! ## Runs -/

/-- What every event keeps, a run keeps. -/
theorem Run.keeps {I : State → Prop} (hevent : ∀ {e : Event} {s t : State}, s.event e = .next t → I s → I t)
    {es : List Event} {s t : State} (h : Run s es t) (hs : I s) : I t := by
  induction es generalizing s with
  | nil => cases h; exact hs
  | cons e es ih =>
    obtain ⟨u, hu, hrest⟩ := h
    exact ih hrest (hevent hu hs)

theorem event_inv {e : Event} (h : s.event e = .next t) (hs : s.Inv) : t.Inv := by
  cases e with
  | step => exact step_inv h hs
  | host a => exact host_inv hs h

theorem event_cfg {e : Event} (h : s.event e = .next t) : t.cfg = s.cfg := by
  cases e with
  | step => exact (step_keeps h).2.2
  | host a => exact host_cfg h

theorem reset_inv : State.reset.Inv := ⟨rfl, rfl⟩

/-- Settles O60: the invariant holds after reset, and every event keeps it. -/
theorem everyReachableStateMeetsTheInvariant : Obligations.EveryReachableStateMeetsTheInvariant :=
  ⟨fun _ _ _ hs h => host_inv hs h, fun _ ⟨_, hrun⟩ => hrun.keeps event_inv reset_inv⟩

/-- Settles O53: no event of a run changes the parameters. -/
theorem configurationIsFixed : Obligations.ConfigurationIsFixed :=
  fun _ s _ h => h.keeps (I := fun r => r.cfg = s.cfg) (fun he hr => (event_cfg he).trans hr) rfl

/-! ## The latches -/

/-- Settles O54: an interrupt entry clears the latch it serves, and an instruction changes neither. -/
theorem stepClearsOnlyTheServedLatch : Obligations.StepClearsOnlyTheServedLatch := by
  intro s t h
  obtain ⟨-, ⟨k, hk, rfl⟩ | ⟨hk, hexec⟩⟩ := step_next_cases h
  · cases k <;> simp [hk]
  · have hkept := (kept_afterFetch (s.setBus [])).trans (exec_kept hexec)
    simp [hk, hkept.nmi, hkept.irq]

/-! ## When an instruction answers a next state -/

/-- An instruction stops only as an illegal opcode under `fault`, with that opcode and its address (49_flag_system.md R206). -/
theorem exec_cases (i : Instr) (s : State) :
    (∃ t, exec i s = .next t) ∨
      ∃ op, i = .ill op ∧ s.cfg.illegalPolicy = .fault ∧ exec i s = .fault (.illegalOpcode op s.pc) := by
  cases i with
  | ill op =>
    cases h : s.cfg.illegalPolicy with
    | nop1 => exact .inl ⟨_, by simp only [exec, execIll, h]; rfl⟩
    | fault => exact .inr ⟨op, rfl, rfl, by simp only [exec, execIll, h]⟩
  | bpl d | bmi d | bvc d | bvs d | bcc d | bcs d | bne d | beq d =>
    left
    simp only [exec, execBpl, execBmi, execBvc, execBvs, execBcc, execBcs, execBne, execBeq, runBranch]
    split <;> exact ⟨_, rfl⟩
  | _ => exact .inl ⟨_, rfl⟩

/-- Settles O47: the one instruction that can stop is an illegal opcode under `fault`. -/
theorem everyInstructionCompletes : Obligations.EveryInstructionCompletes := by
  intro i s hpolicy
  obtain hnext | ⟨op, hi, hfault, -⟩ := exec_cases i s
  · exact hnext
  · rw [hpolicy op hi] at hfault
    cases hfault

theorem step_completes (hu : flag .u s.p = true) (hpolicy : s.cfg.illegalPolicy = .nop1) : ∃ t, step s = .next t := by
  cases hk : s.pendingInterrupt with
  | some k => exact ⟨_, step_interrupt hu hk⟩
  | none =>
    rw [step_instruction hu hk]
    exact everyInstructionCompletes _ _ fun _ _ => by rw [State.afterFetch_cfg]; exact hpolicy

/-- Settles O48: a Step completes, returns a count, and keeps bit 5 and the parameters. -/
theorem stepAlwaysCompletes : Obligations.StepAlwaysCompletes := by
  intro s hu hpolicy
  obtain ⟨t, h⟩ := step_completes hu hpolicy
  obtain ⟨c, hc, -⟩ := step_countInRange h
  obtain ⟨-, hkeepsU, hcfg⟩ := step_keeps h
  exact ⟨t, c, h, hc, hkeepsU hu, hcfg⟩

/-! ## When a Step stops -/

/-- An illegal byte at `PC` is fetched as `ILL` with that byte, and `ILL` from nothing else (30_encoding.md R58). -/
theorem fetch_eq_ill_iff {op : Byte} : s.fetch = .ill op ↔ s.memRead s.pc ∈ illegalOpcodes ∧ op = s.memRead s.pc := by
  have hopcode (b : Byte) (h : s.fetch = .ill b) : b = s.memRead s.pc := by
    have hop := (fetch_opcode s).1
    rw [h] at hop
    exact Option.some.inj hop
  constructor
  · exact fun h => ⟨fetch_illegal.mpr ⟨op, h⟩, hopcode op h⟩
  · rintro ⟨hillegal, rfl⟩
    obtain ⟨b, hb⟩ := fetch_illegal.mp hillegal
    rw [hb, hopcode b hb]

/-- A Step answers a next state, faults at an illegal opcode under `fault`, or is refused with bit 5 of `P` at 0. -/
theorem step_cases (s : State) :
    (∃ t, step s = .next t) ∧ s.launchable = true ∧
        ¬(s.pendingInterrupt = none ∧ s.cfg.illegalPolicy = .fault ∧ s.memRead s.pc ∈ illegalOpcodes) ∨
      step s = .fault (.illegalOpcode (s.memRead s.pc) s.pc) ∧ s.launchable = true ∧
        s.pendingInterrupt = none ∧ s.cfg.illegalPolicy = .fault ∧ s.memRead s.pc ∈ illegalOpcodes ∨
      step s = .refused .unusedBitClear ∧ s.launchable = false := by
  cases hl : s.launchable with
  | false => exact .inr (.inr ⟨step_refused hl, rfl⟩)
  | true =>
    cases hk : s.pendingInterrupt with
    | some k => exact .inl ⟨⟨_, step_interrupt hl hk⟩, rfl, fun h => nomatch h.1⟩
    | none =>
      have hstep := step_instruction hl hk
      by_cases hill : s.cfg.illegalPolicy = .fault ∧ s.memRead s.pc ∈ illegalOpcodes
      · obtain ⟨hfault, hillegal⟩ := hill
        have hfetch : (s.setBus []).fetch = .ill (s.memRead s.pc) := fetch_eq_ill_iff.mpr ⟨hillegal, rfl⟩
        have hcfg : (s.setBus []).afterFetch.cfg.illegalPolicy = .fault := by rw [State.afterFetch_cfg]; exact hfault
        refine .inr (.inl ⟨?_, rfl, rfl, hfault, hillegal⟩)
        rw [hstep, hfetch]
        simp only [exec, execIll, hcfg, State.afterFetch_pc, State.setBus_pc]
      · obtain hnext | ⟨op, hi, hfault, -⟩ := exec_cases (s.setBus []).fetch (s.setBus []).afterFetch
        · exact .inl ⟨hstep ▸ hnext, rfl, fun h => hill h.2⟩
        · rw [State.afterFetch_cfg] at hfault
          exact absurd ⟨hfault, (fetch_eq_ill_iff.mp hi).1⟩ hill

/-- Settles O49: the three answers of a Step exclude each other. -/
theorem stepStopsOnlyAtIllegalOpcodes : Obligations.StepStopsOnlyAtIllegalOpcodes := by
  intro s
  obtain ⟨⟨t, h⟩, hl, hnot⟩ | ⟨h, hl, hk, hfault, hillegal⟩ | ⟨h, hl⟩ := step_cases s <;> rw [h, hl]
  · exact ⟨fun r => ⟨nofun, fun ⟨_, hk, hfault, hillegal, _⟩ => absurd ⟨hk, hfault, hillegal⟩ hnot⟩,
      fun r => ⟨nofun, nofun⟩⟩
  · refine ⟨fun r => ⟨fun hr => ?_, fun ⟨_, _, _, _, hr⟩ => by rw [hr]⟩, fun r => ⟨nofun, nofun⟩⟩
    cases hr
    exact ⟨rfl, hk, hfault, hillegal, rfl⟩
  · refine ⟨fun r => ⟨nofun, nofun⟩, fun r => ⟨fun hr => ?_, fun ⟨_, hr⟩ => by rw [hr]⟩⟩
    cases hr
    exact ⟨rfl, rfl⟩

/-! ## The cycle total (40_step_and_addressing.md R92) -/

/-- A branch returns the cycles of R92, with the handler's own as its condition and its target's page give them. -/
theorem runBranch_cycles {i : Instr} {cond : Bool} {d : Byte} (hform : i.form = .rel d)
    (hcond : branchCondition i s = some cond) (h : runBranch i cond d s = .next t) :
    t.stepCycles = some (BitVec.ofNat 8 (cycleCount i (resolve i.form s).crossed (handlerCycles i s))) := by
  rw [handlerCycles, hcond, hform]
  cases cond with
  | false =>
    cases h
    rfl
  | true =>
    cases (runBranch_taken i d s).symm.trans h
    rfl

/-- Every instruction that completes returns the cycles of R92. -/
theorem exec_cycles {i : Instr} (h : exec i s = .next t) :
    t.stepCycles = some (BitVec.ofNat 8 (cycleCount i (resolve i.form s).crossed (handlerCycles i s))) := by
  cases i with
  | bpl d | bmi d | bvc d | bvs d | bcc d | bcs d | bne d | beq d => exact runBranch_cycles rfl rfl h
  | ill op =>
    change execIll op s = .next t at h
    unfold execIll at h
    split at h <;> cases h
    rfl
  | _ => cases h; rfl

theorem handlerCycles_le (i : Instr) (s : State) : handlerCycles i s ≤ 2 := by
  unfold handlerCycles
  split
  · split <;> decide
  · decide

/-- The total of R92 fits the byte it is returned in. -/
theorem cycleCount_lt (i : Instr) (crossed : Bool) (s : State) : cycleCount i crossed (handlerCycles i s) < 256 := by
  have htable := (tableEntry_cycles i).2
  have hhandler := handlerCycles_le i s
  unfold cycleCount
  split <;> omega

/-- Settles O50: the count is the total of R92, which the byte holds whole, and the table's entry is that of the opcode. -/
theorem cycleTotalFollowsTheTable : Obligations.CycleTotalFollowsTheTable := by
  intro i s t hi h
  obtain ⟨op, hop⟩ := Laws.opcodeOf_of_wellFormed hi
  have hentry : tableEntry i = opcodeInfo op := by rw [tableEntry, hop]
  refine ⟨op, hop, _, exec_cycles h, ?_⟩
  rw [BitVec.toNat_ofNat, Nat.mod_eq_of_lt (cycleCount_lt i _ s), cycleCount, hentry]

end Sys2Proof.Machine
end

section
/-! SUPPORT. The family `40_step_and_addressing.md`: effective addresses and page crossings as numbers (R81 to R91), and the operand
byte (R80). -/

namespace Sys2Proof.Machine

variable (s : State)

/-! ## Addresses as numbers -/

theorem zext16_toNat (v : Byte) : (zext16 v).toNat = v.toNat :=
  BitVec.toNat_setWidth_of_le (by decide)

theorem zext16_eq_ofNat (v : Byte) : zext16 v = BitVec.ofNat 16 v.toNat :=
  BitVec.eq_of_toNat_eq ((zext16_toNat v).trans (BitVec.toNat_ofNat _ _ ▸ (Nat.mod_eq_of_lt (by omega)).symm))

/-- Adding an unsigned index wraps modulo 65536 (R86, R87, R90). -/
theorem toNat_add_zext16 (w : Word) (v : Byte) : (w + zext16 v).toNat = (w.toNat + v.toNat) % 65536 := by
  rw [BitVec.toNat_add, zext16_toNat]

/-- A crossing is a carry out of the low byte, at the top of the address space too (R91). -/
theorem pageCrossed_add_iff (w : Word) (v : Byte) :
    pageCrossed w (w + zext16 v) = true ↔ 256 ≤ w.toNat % 256 + v.toNat := by
  have hw := w.isLt
  have hv := v.isLt
  rw [pageCrossed, bne_iff_ne, ne_eq, ← BitVec.toNat_inj, hi_toNat, hi_toNat, toNat_add_zext16]
  omega

/-- Settles O10: the addresses as numbers; the rest is the resolver's own text. -/
theorem zeroPageModesStayInPageZero : Obligations.ZeroPageModesStayInPageZero := by
  intro s b
  exact ⟨⟨zext16_toNat b, rfl, rfl, rfl⟩, ⟨(zext16_toNat _).trans (BitVec.toNat_add b s.x), rfl, rfl, rfl⟩,
    ⟨(zext16_toNat _).trans (BitVec.toNat_add b s.y), rfl, rfl, rfl⟩⟩

/-- Settles O11: the address and the crossing of each index register as numbers. -/
theorem absoluteIndexedAddresses : Obligations.AbsoluteIndexedAddresses := by
  intro s w
  exact ⟨⟨rfl, rfl, rfl, rfl⟩, ⟨toNat_add_zext16 w s.x, pageCrossed_add_iff w s.x, rfl, rfl⟩,
    ⟨toNat_add_zext16 w s.y, pageCrossed_add_iff w s.y, rfl, rfl⟩⟩

/-! ## The two modes with a pointer in page 0 (R89, R90) -/

/-- `ReadZP16`'s second address wraps within page 0 (20_memory.md R36). -/
theorem nextAddrZP_eq_ofNat (p : Byte) : nextAddrZP p = BitVec.ofNat 16 ((p.toNat + 1) % 256) := by
  rw [nextAddrZP, zext16_eq_ofNat, BitVec.toNat_add]
  rfl

theorem memReadPair_toNat (a b : Word) :
    (s.memReadPair a b).toNat = ((s.afterMemRead a).memRead b).toNat * 256 + (s.memRead a).toNat :=
  join_toNat _ _

/-- Settles O13: the pointer and the address after it as numbers modulo 256; then a pair of reads there. -/
theorem indexedIndirectPointerStaysInPageZero : Obligations.IndexedIndirectPointerStaysInPageZero := by
  intro s b p q
  have hptr : (izxPointer s b).toNat = (b.toNat + s.x.toNat) % 256 := BitVec.toNat_add b s.x
  have hp : zext16 (izxPointer s b) = p := by rw [zext16_eq_ofNat, hptr]
  have hq : nextAddrZP (izxPointer s b) = q := by rw [nextAddrZP_eq_ofNat, hptr, Nat.mod_add_mod]
  have haddr : (resolve (.izx b) s).addr = s.memReadPair p q := congrArg₂ s.memReadPair hp hq
  have hafter : afterResolve (.izx b) s = s.afterMemReadPair p q := congrArg₂ s.afterMemReadPair hp hq
  refine ⟨?target, hafter, rfl, rfl, fun h => ⟨?plainTarget, ?plainReads⟩⟩
  case target => rw [haddr, memReadPair_toNat]
  case plainTarget => rw [haddr, State.memReadPair_plain h.1, join_toNat]
  case plainReads => rw [hafter, State.afterMemReadPair_plain h.1]

/-- Settles O14: a pair of reads at the pointer, then the indexed address of the word read. -/
theorem indirectIndexedAddsYToThePointedWord : Obligations.IndirectIndexedAddsYToThePointedWord := by
  intro s b p q
  have hp : zext16 b = p := zext16_eq_ofNat b
  have hq : nextAddrZP b = q := nextAddrZP_eq_ofNat b
  have hword : zpWord s b = s.memReadPair p q := congrArg₂ s.memReadPair hp hq
  have hafter : afterResolve (.izy b) s = s.afterMemReadPair p q := congrArg₂ s.afterMemReadPair hp hq
  have haddr : (resolve (.izy b) s).addr.toNat = ((s.memReadPair p q).toNat + s.y.toNat) % 65536 :=
    hword ▸ toNat_add_zext16 (zpWord s b) s.y
  have hcross : (resolve (.izy b) s).crossed = true ↔ 256 ≤ (s.memRead p).toNat + s.y.toNat := by
    have hlow : lo (zpWord s b) = s.memRead p := by rw [hword, State.memReadPair, lo_join]
    rw [← hlow, lo_toNat]
    exact pageCrossed_add_iff (zpWord s b) s.y
  refine ⟨?target, hcross, hafter, rfl, fun h => ⟨?plainTarget, ?plainCross, ?plainReads⟩⟩
  case target => rw [haddr, memReadPair_toNat]
  case plainTarget => rw [haddr, State.memReadPair_plain h.1, join_toNat]
  case plainCross => rw [← State.memRead_plain h.1]; exact hcross
  case plainReads => rw [hafter, State.afterMemReadPair_plain h.1]

/-! ## The operand byte (R80) -/

/-- Settles O16: by the form; all but IMM and ACC make the one read. -/
theorem operandByteIsTheCellAtTheAddress : Obligations.OperandByteIsTheCellAtTheAddress := by
  intro f s
  cases f with
  | imm b | acc => exact ⟨rfl, rfl, fun _ => rfl⟩
  | _ => exact ⟨rfl, rfl, fun h => operandByte_plain h.1 (by simp [OperandForm.mode]) (by simp [OperandForm.mode])⟩

end Sys2Proof.Machine
end

section
/-! SUPPORT. The handlers that read their operand (41_load_store.md, 43_logical.md, 44_arithmetic.md), store a register, or
write a byte back (45_incdec.md). -/

namespace Sys2Proof.Machine

/-! ## Flags of the next state (10_state.md R20, R21) -/

section
variable {s t : State}

theorem flags_of_setZN {v : Byte} (h : t.p = setZN v s.p) : ZNFollow v t ∧ SameFlagsOutside [.z, .n] s t := by
  have hflag (g : Flag) : flag g t.p = _ := (congrArg (flag g) h).trans (flag_setZN g v s.p)
  refine ⟨⟨(hflag .z).trans (Bool.beq_eq_decide_eq v 0), (hflag .n).trans (getLsbD_seven v)⟩, fun g hg => ?others⟩
  case others =>
    simp only [List.mem_cons, List.not_mem_nil, or_false, not_or] at hg
    rw [hflag, if_neg hg.2, if_neg hg.1]

theorem flags_of_setFlag {g : Flag} {b : Bool} (h : t.p = setFlag g b s.p) :
    flag g t.p = b ∧ SameFlagsOutside [g] s t := by
  refine ⟨by rw [h, flag_setFlag, if_pos rfl], fun f hf => ?others⟩
  case others => rw [h, flag_setFlag, if_neg (List.ne_of_not_mem_cons hf)]

end

/-! ## The operand read, and nothing else yet (20_memory.md R44) -/

section
variable (f : OperandForm) (s : State)

/-- What a handler that reads its operand leaves beside the registers: `PC` past the instruction, the operand's accesses, the
latches, the parameters and memory. -/
def ReadFrame (t : State) : Prop :=
  t.pc = s.pc + BitVec.ofNat 16 f.length ∧ t.bus = (afterOperandByte f s).bus ∧ SameControl s t ∧ SameMemory s t

theorem readFrame_afterOperandByte : ReadFrame f s (afterOperandByte f s) :=
  ⟨afterOperandByte_pc s f, rfl,
    ⟨afterOperandByte_nmiPending s f, afterOperandByte_irqPending s f, afterOperandByte_cfg s f⟩,
    fun a => by rw [afterOperandByte_mem]⟩

/-- So it is for `X`, `Y` and `SP`, where the handler writes `A` and `P` only. -/
theorem indexFrame_afterOperandByte :
    (afterOperandByte f s).x = s.x ∧ (afterOperandByte f s).y = s.y ∧ (afterOperandByte f s).sp = s.sp ∧
      ReadFrame f s (afterOperandByte f s) :=
  ⟨afterOperandByte_x s f, afterOperandByte_y s f, afterOperandByte_sp s f, readFrame_afterOperandByte f s⟩

/-! ## Loads (41_load_store.md) -/

/-- Settles O15: each load copies the operand byte to its register and sets the status by `SetZN` of it. -/
theorem loadsCopyTheOperand : Obligations.LoadsCopyTheOperand := by
  intro f s
  have ha := afterOperandByte_a s f
  obtain ⟨hx, hy, hsp, hrest⟩ := indexFrame_afterOperandByte f s
  let r := afterOperandByte f s
  obtain ⟨hzn, hothers⟩ := flags_of_setZN (s := s) (t := r.setP (setZN (operandByte f s) r.p))
    (v := operandByte f s) (by rw [State.setP_p, afterOperandByte_p])
  exact ⟨⟨_, rfl, rfl, hx, hy, hsp, hzn, hothers, hrest⟩, ⟨_, rfl, rfl, ha, hy, hsp, hzn, hothers, hrest⟩,
    ⟨_, rfl, rfl, ha, hx, hsp, hzn, hothers, hrest⟩⟩

/-! ## AND, ORA, EOR and BIT (43_logical.md) -/

/-- A handler that combines `A` with the operand byte into `A` and sets Z and N from the result. -/
theorem runRead_combine (i : Instr) (g : Byte → Byte → Byte) :
    ∃ t, runRead i f (fun m r => (r.setA (g r.a m)).setP (setZN (g r.a m) r.p)) s = .next t ∧
      t.a = g s.a (operandByte f s) ∧ ZNFollow (g s.a (operandByte f s)) t ∧ SameFlagsOutside [.z, .n] s t ∧
      t.x = s.x ∧ t.y = s.y ∧ t.sp = s.sp ∧ ReadFrame f s t := by
  have hresult : g (afterOperandByte f s).a (operandByte f s) = g s.a (operandByte f s) := by rw [afterOperandByte_a]
  refine ⟨_, rfl, hresult, ?_⟩
  rw [← and_assoc]
  exact ⟨flags_of_setZN (by simp), indexFrame_afterOperandByte f s⟩

/-- Settles O21: all three have one shape. -/
theorem logicalInstructionsCombineBitwise : Obligations.LogicalInstructionsCombineBitwise := by
  intro f s q hq
  simp only [List.mem_cons, List.not_mem_nil, or_false] at hq
  obtain rfl | rfl | rfl := hq
  · exact runRead_combine f s (.and f) (· &&& ·)
  · exact runRead_combine f s (.ora f) (· ||| ·)
  · exact runRead_combine f s (.eor f) (· ^^^ ·)

theorem getLsbD_six (v : Byte) : v.getLsbD 6 = decide (64 ≤ v.toNat % 128) := by
  rw [BitVec.getLsbD, Nat.testBit_eq_decide_div_mod_eq]
  exact decide_eq_decide.mpr (by omega)

/-- Settles O22: BIT's status flag by flag. -/
theorem bitTestsWithoutWriting : Obligations.BitTestsWithoutWriting := by
  intro f s
  obtain ⟨t, ht⟩ : ∃ t, exec (.bit f) s = .next t := ⟨_, rfl⟩
  have hp : t.p = bitFlags s.a (operandByte f s) s.p := by cases ht; simp
  have hframe : t.a = s.a ∧ t.x = s.x ∧ t.y = s.y ∧ t.sp = s.sp ∧ ReadFrame f s t := by
    cases ht
    exact ⟨afterOperandByte_a s f, indexFrame_afterOperandByte f s⟩
  have hflag (g : Flag) : flag g t.p = _ := (congrArg (flag g) hp).trans (flag_bitFlags g _ _ _)
  refine ⟨t, ht, (hflag .z).trans (Bool.beq_eq_decide_eq _ _), (hflag .n).trans (getLsbD_seven _),
    (hflag .v).trans (getLsbD_six _), fun g hg => ?others, hframe⟩
  case others =>
    rw [hflag]
    cases g with
    | z | n | v => simp at hg
    | _ => rfl

/-! ## CMP, CPX, CPY (44_arithmetic.md) -/

theorem toNat_sub_byte (r m : Byte) : (r - m).toNat = (r.toNat + 256 - m.toNat) % 256 := by
  have hm := m.isLt
  rw [BitVec.toNat_sub]
  omega

/-- A handler that compares a register with the operand byte. -/
theorem runRead_compare (i : Instr) (reg : State → Byte) (hreg : reg (afterOperandByte f s) = reg s) :
    ∃ t, runRead i f (fun m r => r.setP (compareFlags (reg r) m r.p)) s = .next t ∧
      flag .c t.p = decide ((operandByte f s).toNat ≤ (reg s).toNat) ∧
      flag .z t.p = decide (reg s = operandByte f s) ∧
      flag .n t.p = decide (128 ≤ ((reg s).toNat + 256 - (operandByte f s).toNat) % 256) ∧
      SameFlagsOutside [.c, .z, .n] s t ∧ t.a = s.a ∧ t.x = s.x ∧ t.y = s.y ∧ t.sp = s.sp ∧ ReadFrame f s t := by
  obtain ⟨t, ht⟩ : ∃ t, runRead i f (fun m r => r.setP (compareFlags (reg r) m r.p)) s = .next t := ⟨_, rfl⟩
  have hp : t.p = compareFlags (reg s) (operandByte f s) s.p := by cases ht; simp [hreg]
  have hframe : t.a = s.a ∧ t.x = s.x ∧ t.y = s.y ∧ t.sp = s.sp ∧ ReadFrame f s t := by
    cases ht
    exact ⟨afterOperandByte_a s f, indexFrame_afterOperandByte f s⟩
  have hflag (g : Flag) : flag g t.p = _ := (congrArg (flag g) hp).trans (flag_compareFlags g _ _ _)
  refine ⟨t, ht, hflag .c, (hflag .z).trans ?equal, (hflag .n).trans ?negative, fun g hg => ?others, hframe⟩
  case equal =>
    rw [Bool.beq_eq_decide_eq]
    exact decide_eq_decide.mpr sub_eq_zero
  case negative => rw [getLsbD_seven, toNat_sub_byte]
  case others =>
    rw [hflag]
    cases g with
    | c | z | n => simp at hg
    | _ => rfl

/-- Settles O26: the three compares differ in the register only. -/
theorem comparesSetCarryZeroNegative : Obligations.ComparesSetCarryZeroNegative := by
  intro f s q hq
  simp only [List.mem_cons, List.not_mem_nil, or_false] at hq
  obtain rfl | rfl | rfl := hq
  · exact runRead_compare f s (.cmp f) State.a (afterOperandByte_a s f)
  · exact runRead_compare f s (.cpx f) State.x (afterOperandByte_x s f)
  · exact runRead_compare f s (.cpy f) State.y (afterOperandByte_y s f)

/-! ## ADC and SBC (44_arithmetic.md) -/

section
variable (a m : Byte) (c : Bool)

theorem sum16_toNat : (sum16 a m c).toNat = a.toNat + m.toNat + c.toNat := by
  have ha := a.isLt
  have hm := m.isLt
  have hc : (if c then 1 else 0 : Word).toNat = c.toNat := by cases c <;> rfl
  have hle := c.toNat_le
  rw [sum16, BitVec.toNat_add, BitVec.toNat_add, zext16_toNat, zext16_toNat, hc]
  omega

theorem addResult_toNat : (addResult a m c).toNat = (a.toNat + m.toNat + c.toNat) % 256 := by
  rw [addResult, lo_toNat, sum16_toNat]

theorem addCarry_eq : addCarry a m c = decide (255 < a.toNat + m.toNat + c.toNat) := by
  refine decide_eq_decide.mpr ?_
  rw [BitVec.lt_def, sum16_toNat]
  rfl

/-- Overflow is the result's sign differing from a sign both operands have (R135). -/
theorem addOverflow_eq : addOverflow a m c =
    (a.getLsbD 7 == m.getLsbD 7 && (addResult a m c).getLsbD 7 != a.getLsbD 7) := by
  have hbit (v : Byte) : (v &&& 0x80 != 0) = v.getLsbD 7 := by
    revert v
    decide
  rw [addOverflow, hbit]
  simp only [BitVec.getLsbD_and, BitVec.getLsbD_not, BitVec.getLsbD_xor]
  cases a.getLsbD 7 <;> cases m.getLsbD 7 <;> cases (addResult a m c).getLsbD 7 <;> rfl

/-- Which is that the signed sum does not fit (R140). -/
theorem addOverflow_iff : addOverflow a m c = true ↔
    ¬(-128 ≤ a.toInt + m.toInt + c.toNat ∧ a.toInt + m.toInt + c.toNat ≤ 127) := by
  have ha := a.isLt
  have hm := m.isLt
  have hc := c.toNat_le
  have hr := addResult_toNat a m c
  rw [addOverflow_eq, BitVec.toInt_eq_toNat_cond, BitVec.toInt_eq_toNat_cond, getLsbD_seven, getLsbD_seven, getLsbD_seven,
    hr]
  simp only [Bool.and_eq_true, beq_iff_eq, bne_iff_ne, ne_eq, decide_eq_decide]
  split <;> split <;> omega

end

/-- The act of ADC and SBC: the operand byte, or its complement, is added into `A` with the carry. -/
def addInto (g : Byte → Byte) (m : Byte) (r : State) : State :=
  (r.setA (addResult r.a (g m) (flag .c r.p))).setP (addFlags r.a (g m) r.p)

section
variable {f s} {i : Instr} {g : Byte → Byte} {t : State}

theorem runRead_addInto_a (h : runRead i f (addInto g) s = .next t) :
    t.a = addResult s.a (g (operandByte f s)) (flag .c s.p) := by
  cases h
  simp [addInto]

theorem runRead_addInto_p (h : runRead i f (addInto g) s = .next t) :
    t.p = addFlags s.a (g (operandByte f s)) s.p := by
  cases h
  simp [addInto]

theorem runRead_addInto_c (h : runRead i f (addInto g) s = .next t) :
    flag .c t.p = addCarry s.a (g (operandByte f s)) (flag .c s.p) := by
  rw [runRead_addInto_p h, flag_addFlags]

theorem runRead_addInto_v (h : runRead i f (addInto g) s = .next t) :
    flag .v t.p = addOverflow s.a (g (operandByte f s)) (flag .c s.p) := by
  rw [runRead_addInto_p h, flag_addFlags]

/-- Z and N follow the result; I, D, B and U are untouched; and nothing but `A`, `P` and `PC` changes. -/
theorem runRead_addInto_frame (h : runRead i f (addInto g) s = .next t) :
    ZNFollow t.a t ∧ SameFlagsOutside [.c, .v, .z, .n] s t ∧ t.x = s.x ∧ t.y = s.y ∧ t.sp = s.sp ∧ ReadFrame f s t := by
  have hflag (g : Flag) : flag g t.p = _ := (congrArg (flag g) (runRead_addInto_p h)).trans (flag_addFlags g _ _ _)
  have ha := runRead_addInto_a h
  refine ⟨⟨?zero, ?negative⟩, fun g hg => ?others, ?rest⟩
  case zero => rw [hflag, ha, Bool.beq_eq_decide_eq]
  case negative => rw [hflag, ha, getLsbD_seven]
  case others =>
    rw [hflag]
    cases g with
    | c | v | z | n => simp at hg
    | _ => rfl
  case rest =>
    cases h
    exact indexFrame_afterOperandByte f s

end

/-- Settles O23: the sum, carry and overflow as numbers. -/
theorem adcAddsWithCarry : Obligations.AdcAddsWithCarry := by
  intro f s m c
  obtain ⟨t, ht⟩ : ∃ t, exec (.adc f) s = .next t := ⟨_, rfl⟩
  have hrun : runRead (.adc f) f (addInto id) s = .next t := ht
  have ha : t.a = addResult s.a m (flag .c s.p) := runRead_addInto_a (g := id) hrun
  have hframe := runRead_addInto_frame hrun
  have hc : flag .c t.p = addCarry s.a m (flag .c s.p) := runRead_addInto_c (g := id) hrun
  have hv : flag .v t.p = addOverflow s.a m (flag .c s.p) := runRead_addInto_v (g := id) hrun
  refine ⟨t, ht, ?sum, ?carry, ?signs, ?range, hframe⟩
  case sum => rw [ha, addResult_toNat]
  case carry => rw [hc, addCarry_eq]
  case signs => rw [hv, ha, addOverflow_eq]
  case range => rw [hv, addOverflow_iff]

theorem xor_allOnes_toNat (m : Byte) : (m ^^^ 0xFF).toNat = 255 - m.toNat := by
  have h : m ^^^ 0xFF = ~~~m := BitVec.xor_allOnes
  rw [h, BitVec.toNat_not]

theorem xor_allOnes_toInt (m : Byte) : (m ^^^ 0xFF).toInt = -m.toInt - 1 := by
  have hm := m.isLt
  rw [BitVec.toInt_eq_toNat_cond, BitVec.toInt_eq_toNat_cond, xor_allOnes_toNat]
  split <;> split <;> omega

/-- Settles O24: adding the ones' complement of `M` with the carry is subtracting `M` and the borrow. -/
theorem sbcSubtractsWithBorrow : Obligations.SbcSubtractsWithBorrow := by
  intro f s m borrow
  obtain ⟨t, ht⟩ : ∃ t, exec (.sbc f) s = .next t := ⟨_, rfl⟩
  have hrun : runRead (.sbc f) f (addInto (· ^^^ 0xFF)) s = .next t := ht
  have ha : t.a = addResult s.a (m ^^^ 0xFF) (flag .c s.p) := runRead_addInto_a (g := (· ^^^ 0xFF)) hrun
  have hframe := runRead_addInto_frame hrun
  have hc : flag .c t.p = addCarry s.a (m ^^^ 0xFF) (flag .c s.p) := runRead_addInto_c (g := (· ^^^ 0xFF)) hrun
  have hv : flag .v t.p = addOverflow s.a (m ^^^ 0xFF) (flag .c s.p) := runRead_addInto_v (g := (· ^^^ 0xFF)) hrun
  have hborrow : ((flag .c s.p).toNat : Int) = 1 - borrow := by
    simp only [borrow]
    cases flag .c s.p <;> rfl
  have hm := m.isLt
  have hcomplement := xor_allOnes_toNat m
  refine ⟨t, ht, ?difference, ?noBorrow, ?range, hframe⟩
  case difference =>
    rw [ha, addResult_toNat, hcomplement]
    omega
  case noBorrow =>
    rw [hc, addCarry_eq, hcomplement]
    exact decide_eq_decide.mpr (by omega)
  case range =>
    rw [hv, addOverflow_iff, xor_allOnes_toInt, hborrow]
    omega

/-! ## Stores (41_load_store.md) -/

theorem sameControl_atHandler : SameControl s (atHandler f s) :=
  ⟨atHandler_nmiPending s f, atHandler_irqPending s f, atHandler_cfg s f⟩

theorem plain_atHandler {s : State} (h : s.Plain) (f : OperandForm) : (atHandler f s).Plain :=
  ⟨(atHandler_replies s f).trans (afterResolve_plain h.1 f), (atHandler_mem s f).symm ▸ h.2⟩

/-- A store is one write at the effective address, after the resolver's accesses. -/
theorem runStore_writes (i : Instr) (v : Byte) :
    ∃ t, runStore i f v s = .next t ∧ t.bus = (afterResolve f s).bus ++ [.write (resolve f s).addr v] ∧
      (s.Plain → t.mem.get (resolve f s).addr = v) ∧ SameMemoryOutside [(resolve f s).addr] s t ∧
      t.a = s.a ∧ t.x = s.x ∧ t.y = s.y ∧ t.sp = s.sp ∧ t.p = s.p ∧ t.pc = s.pc + BitVec.ofNat 16 f.length ∧
      SameControl s t := by
  refine ⟨_, rfl, rfl, fun h => State.get_memWrite_self (plain_atHandler h f) _ v, fun a ha => ?frame, atHandler_a s f,
    atHandler_x s f, atHandler_y s f, atHandler_sp s f, atHandler_p s f, atHandler_pc s f, sameControl_atHandler f s⟩
  case frame =>
    have hother := (atHandler f s).get_memWrite_other v (List.ne_of_not_mem_cons ha)
    rwa [atHandler_mem] at hother

/-- Settles O17: the three stores differ in the register only. -/
theorem storesWriteOneByte : Obligations.StoresWriteOneByte := by
  intro f s q hq
  simp only [List.mem_cons, List.not_mem_nil, or_false] at hq
  obtain rfl | rfl | rfl := hq
  · exact runStore_writes f s (.sta f) s.a
  · exact runStore_writes f s (.stx f) s.x
  · exact runStore_writes f s (.sty f) s.y

/-! ## INC and DEC (45_incdec.md) -/

theorem add_one_eq_ofNat (m : Byte) : m + 1 = BitVec.ofNat 8 (m.toNat + 1) := by
  rw [BitVec.ofNat_add, BitVec.ofNat_toNat, BitVec.setWidth_eq]
  rfl

theorem sub_one_eq_ofNat (m : Byte) : m - 1 = BitVec.ofNat 8 (m.toNat + 255) := by
  rw [BitVec.ofNat_add, BitVec.ofNat_toNat, BitVec.setWidth_eq, BitVec.sub_eq_add_neg]
  rfl

/-- A form in memory is not the accumulator, and it is read before it is written. -/
theorem runModify_setZN {i : Instr} {result : Byte → Byte} {t : State}
    (hf : [Mode.zp, .zpx, .abs, .abx].contains f.mode = true)
    (h : runModify i f result (fun m p => setZN (result m) p) s = .next t) :
    t.bus = (afterResolve f s).bus ++
        [.read (resolve f s).addr (operandByte f s), .write (resolve f s).addr (result (operandByte f s))] ∧
      (s.Plain → t.mem.get (resolve f s).addr = result (operandByte f s)) ∧
      SameMemoryOutside [(resolve f s).addr] s t ∧ ZNFollow (result (operandByte f s)) t ∧
      SameFlagsOutside [.z, .n] s t ∧ t.a = s.a ∧ t.x = s.x ∧ t.y = s.y ∧ t.sp = s.sp ∧
      t.pc = s.pc + BitVec.ofNat 16 f.length ∧ SameControl s t := by
  have himm : f.mode ≠ .imm := fun himm => by
    rw [himm] at hf
    exact absurd hf (by decide)
  have hacc : f ≠ .acc := fun hacc => by
    rw [hacc] at hf
    exact absurd hf (by decide)
  have hback := runModify_writesBack himm h
  unfold WritesBack at hback
  rw [if_neg hacc] at hback
  obtain ⟨ha, hplain, houtside, hbus⟩ := hback
  have hp := runModify_p h
  obtain ⟨hzn, hothers⟩ := flags_of_setZN hp
  exact ⟨hbus, hplain, houtside, hzn, hothers, ha, runModify_frame h⟩

/-- Settles O27: the byte plus or minus 1 as the number the statement gives it by. -/
theorem memoryIncrementAndDecrement : Obligations.MemoryIncrementAndDecrement := by
  intro f s q hq hwf r
  simp only [List.mem_cons, List.not_mem_nil, or_false] at hq
  obtain rfl | rfl := hq
  · have hr : operandByte f s + 1 = r := add_one_eq_ofNat _
    exact ⟨_, rfl, hr ▸ runModify_setZN f s (result := (· + 1)) hwf rfl⟩
  · have hr : operandByte f s - 1 = r := sub_one_eq_ofNat _
    exact ⟨_, rfl, hr ▸ runModify_setZN f s (result := (· - 1)) hwf rfl⟩

end
end Sys2Proof.Machine
end

section
/-! SUPPORT. The instructions without an operand and the jumps (42_transfer_stack.md, 45_incdec.md, 47_jump_call.md,
49_flag_system.md). -/

namespace Sys2Proof.Machine

/-! ## Transfers (42_transfer_stack.md) -/

section
variable (s : State)

/-- What a handler of mode IMP starts with: `PC` past its one byte, and no access made (R78). -/
theorem atHandler_imp : atHandler .imp s = s.setPc (s.pc + 1) := rfl

/-- Settles O18: each transfer is a register write and, but for TXS, `SetZN` of the byte moved. -/
theorem transfersCopyOneRegister : Obligations.TransfersCopyOneRegister := by
  intro s
  have hrest : SameControl s s ∧ SameMemory s s := ⟨⟨rfl, rfl, rfl⟩, fun _ => rfl⟩
  exact ⟨⟨_, rfl, rfl, rfl, rfl, rfl, (flags_of_setZN rfl).1, (flags_of_setZN rfl).2, rfl, rfl, hrest⟩,
    ⟨_, rfl, rfl, rfl, rfl, rfl, (flags_of_setZN rfl).1, (flags_of_setZN rfl).2, rfl, rfl, hrest⟩,
    ⟨_, rfl, rfl, rfl, rfl, rfl, (flags_of_setZN rfl).1, (flags_of_setZN rfl).2, rfl, rfl, hrest⟩,
    ⟨_, rfl, rfl, rfl, rfl, rfl, (flags_of_setZN rfl).1, (flags_of_setZN rfl).2, rfl, rfl, hrest⟩,
    ⟨_, rfl, rfl, rfl, rfl, rfl, (flags_of_setZN rfl).1, (flags_of_setZN rfl).2, rfl, rfl, hrest⟩,
    ⟨_, rfl, rfl, rfl, rfl, rfl, rfl, rfl, rfl, hrest⟩⟩

/-! ## INX, INY, DEX, DEY (45_incdec.md) -/

/-- A handler that replaces `X` and sets Z and N from it. -/
theorem runImplied_setX (i : Instr) (g : Byte → Byte) :
    ∃ t, runImplied i (fun r => (r.setX (g r.x)).setP (setZN (g r.x) r.p)) s = .next t ∧ t.x = g s.x ∧ t.y = s.y ∧
      ZNFollow t.x t ∧ SameFlagsOutside [.z, .n] s t ∧ t.a = s.a ∧ t.sp = s.sp ∧ t.pc = s.pc + 1 ∧ t.bus = s.bus ∧
      SameControl s t ∧ SameMemory s t := by
  exact ⟨_, rfl, rfl, rfl, (flags_of_setZN rfl).1, (flags_of_setZN rfl).2, rfl, rfl, rfl, rfl,
    ⟨rfl, rfl, rfl⟩, fun _ => rfl⟩

/-- A handler that replaces `Y` and sets Z and N from it. -/
theorem runImplied_setY (i : Instr) (g : Byte → Byte) :
    ∃ t, runImplied i (fun r => (r.setY (g r.y)).setP (setZN (g r.y) r.p)) s = .next t ∧ t.y = g s.y ∧ t.x = s.x ∧
      ZNFollow t.y t ∧ SameFlagsOutside [.z, .n] s t ∧ t.a = s.a ∧ t.sp = s.sp ∧ t.pc = s.pc + 1 ∧ t.bus = s.bus ∧
      SameControl s t ∧ SameMemory s t := by
  exact ⟨_, rfl, rfl, rfl, (flags_of_setZN rfl).1, (flags_of_setZN rfl).2, rfl, rfl, rfl, rfl,
    ⟨rfl, rfl, rfl⟩, fun _ => rfl⟩

theorem sub_one_toNat (v : Byte) : (v - 1).toNat = (v.toNat + 255) % 256 := by
  rw [sub_one_eq_ofNat, BitVec.toNat_ofNat]

/-- Settles O28: the register plus or minus 1 as a number. -/
theorem registerIncrementAndDecrement : Obligations.RegisterIncrementAndDecrement := by
  intro s
  refine ⟨fun q hq => ?onX, fun q hq => ?onY⟩
  all_goals
    simp only [List.mem_cons, List.not_mem_nil, or_false] at hq
    obtain rfl | rfl := hq
  case onX.inl =>
    obtain ⟨t, ht, hx, hrest⟩ := runImplied_setX s .inx (· + 1)
    exact ⟨t, ht, hx ▸ BitVec.toNat_add s.x 1, hrest⟩
  case onX.inr =>
    obtain ⟨t, ht, hx, hrest⟩ := runImplied_setX s .dex (· - 1)
    exact ⟨t, ht, hx ▸ sub_one_toNat s.x, hrest⟩
  case onY.inl =>
    obtain ⟨t, ht, hy, hrest⟩ := runImplied_setY s .iny (· + 1)
    exact ⟨t, ht, hy ▸ BitVec.toNat_add s.y 1, hrest⟩
  case onY.inr =>
    obtain ⟨t, ht, hy, hrest⟩ := runImplied_setY s .dey (· - 1)
    exact ⟨t, ht, hy ▸ sub_one_toNat s.y, hrest⟩

/-! ## The flag instructions, NOP and the illegal opcodes (49_flag_system.md) -/

/-- A handler that writes one flag. -/
theorem runImplied_setFlag (i : Instr) (g : Flag) (b : Bool) :
    ∃ t, runImplied i (fun r => r.setP (setFlag g b r.p)) s = .next t ∧ flag g t.p = b ∧ SameFlagsOutside [g] s t ∧
      t.bus = s.bus ∧ t.a = s.a ∧ t.x = s.x ∧ t.y = s.y ∧ t.sp = s.sp ∧ t.pc = s.pc + 1 ∧ SameControl s t ∧
      SameMemory s t := by
  exact ⟨_, rfl, (flags_of_setFlag rfl).1, (flags_of_setFlag rfl).2, rfl, rfl, rfl, rfl, rfl, rfl,
    ⟨rfl, rfl, rfl⟩, fun _ => rfl⟩

/-- Settles O36: the seven differ in the flag and its value only. -/
theorem flagInstructionsWriteOneBit : Obligations.FlagInstructionsWriteOneBit := by
  intro s q hq
  simp only [List.mem_cons, List.not_mem_nil, or_false] at hq
  obtain rfl | rfl | rfl | rfl | rfl | rfl | rfl := hq
  · exact runImplied_setFlag s .clc .c false
  · exact runImplied_setFlag s .sec .c true
  · exact runImplied_setFlag s .cli .i false
  · exact runImplied_setFlag s .sei .i true
  · exact runImplied_setFlag s .cld .d false
  · exact runImplied_setFlag s .sed .d true
  · exact runImplied_setFlag s .clv .v false

/-- A handler of mode IMP that does nothing advances `PC` and returns the table's base cycles. -/
theorem runImplied_id (i : Instr) {base : Byte} (h : BitVec.ofNat 8 (tableEntry i).baseCycles = base) :
    runImplied i (fun r => r) s = .next ((s.setPc (s.pc + 1)).setCycles (some base)) := by
  subst h
  rfl

/-- Settles O37: NOP is such a handler, of two cycles. -/
theorem nopOnlyAdvances : Obligations.NopOnlyAdvances := fun s => runImplied_id s .nop rfl

/-- Settles O40: under `nop1` an illegal opcode is such a handler, of the one cycle of its entry; under `fault` it stops. -/
theorem illegalOpcodesFollowThePolicy : Obligations.IllegalOpcodesFollowThePolicy := by
  intro s op hop
  have hentry : tableEntry (.ill op) = illegalInfo := Laws.opcodeInfo_illegal op (by simpa using hop)
  refine ⟨fun h => ?nop1, fun h => ?fault⟩ <;> simp only [exec, execIll, h]
  case nop1 => exact runImplied_id s (.ill op) (by rw [hentry]; rfl)

/-! ## PHA, PHP, PLA, PLP (42_transfer_stack.md) -/

/-- A handler that pushes one byte. -/
theorem runImplied_push (i : Instr) (g : State → Byte) :
    ∃ t, runImplied i (fun r => r.push (g r)) s = .next t ∧
      t.bus = s.bus ++ [.write (stackAddr s.sp) (g (s.setPc (s.pc + 1)))] ∧
      (s.Plain → t.mem.get (stackAddr s.sp) = g (s.setPc (s.pc + 1))) ∧ SameMemoryOutside [stackAddr s.sp] s t ∧
      t.sp = s.sp - 1 ∧ t.a = s.a ∧ t.x = s.x ∧ t.y = s.y ∧ t.p = s.p ∧ t.pc = s.pc + 1 ∧ SameControl s t :=
  ⟨_, rfl, rfl, fun h => State.get_push_self (s := s) h _, fun _ ha => s.get_push_other _ (List.ne_of_not_mem_cons ha),
    rfl, rfl, rfl, rfl, rfl, rfl, rfl, rfl, rfl⟩

/-- Settles O19: PHA and PHP push one byte each. -/
theorem phaAndPhpPushOneByte : Obligations.PhaAndPhpPushOneByte := by
  intro s q hq
  simp only [List.mem_cons, List.not_mem_nil, or_false] at hq
  obtain rfl | rfl := hq
  · exact runImplied_push s .pha State.a
  · exact runImplied_push s .php (fun r => pushedByInstr r.p)

/-- `PullP`: the six live flags from the byte, U kept or set, B by the policy (R120). -/
theorem pullP_flags (policy : PlpBPolicy) (v p : Byte) :
    (∀ f ∈ [Flag.c, .z, .i, .d, .v, .n], flag f (pullP policy v p) = flag f v) ∧
      flag .u (pullP policy v p) = (flag .u p || policy == .verbatim) ∧
      flag .b (pullP policy v p) = (if policy = .ignore then flag .b p else flag .b v) := by
  cases policy with
  | ignore => simp
  | verbatim => simp

/-- PLA pops into `A`, with `SetZN` of the byte. -/
theorem exec_pla : exec .pla s =
    .next ((((s.afterPop.setPc (s.pc + 1)).setA s.popByte).setP (setZN s.popByte s.p)).returns .pla false 0) := rfl

/-- PLP pops into the status, by `PullP`. -/
theorem exec_plp : exec .plp s =
    .next (((s.afterPop.setPc (s.pc + 1)).setP (pullP s.cfg.plpBPolicy s.popByte s.p)).returns .plp false 0) := rfl

theorem State.afterPop_bus : s.afterPop.bus = s.bus ++ [.read (stackAddr (s.sp + 1)) s.popByte] := rfl

/-- Settles O20: one pop each. -/
theorem plaAndPlpPullOneByte : Obligations.PlaAndPlpPullOneByte := by
  intro s
  obtain ⟨hlive, hu, hb⟩ := pullP_flags s.cfg.plpBPolicy s.popByte s.p
  refine ⟨⟨_, exec_pla s, rfl, (flags_of_setZN rfl).1, (flags_of_setZN rfl).2, ?pla⟩,
    ⟨_, exec_plp s, hlive, hu, hb, ?plp⟩⟩
  case pla => simp [State.afterPop_bus, SameControl, SameMemory]
  case plp => simp [State.afterPop_bus, SameControl, SameMemory]

/-! ## JMP, JSR, RTS (47_jump_call.md) -/

/-- Settles O31: JMP replaces `PC` after the resolver and changes nothing else. -/
theorem jmpSetsThePc : Obligations.JmpSetsThePc := by
  intro f s
  exact ⟨_, rfl, rfl, rfl, atHandler_a s f, atHandler_x s f, atHandler_y s f, atHandler_sp s f, atHandler_p s f,
    sameControl_atHandler f s, fun a => congrArg (·.get a) (atHandler_mem s f)⟩

/-- Two pushes are two writes and `SP` less 2. -/
theorem State.pushWord_bus (v : Word) :
    (s.pushWord v).bus = s.bus ++ [.write (stackAddr s.sp) (hi v), .write (stackAddr (s.sp - 1)) (lo v)] := by
  rw [State.pushWord, State.push_bus, State.push_bus, List.append_assoc]
  rfl

theorem stackAddr_ne {p q : Byte} (h : p ≠ q) : stackAddr p ≠ stackAddr q := mt stackAddr_inj h

/-- On plain memory the two bytes are in the two cells `SP` named. -/
theorem State.get_pushWord {s : State} (h : s.Plain) (v : Word) :
    (s.pushWord v).mem.get (stackAddr s.sp) = hi v ∧ (s.pushWord v).mem.get (stackAddr (s.sp - 1)) = lo v := by
  have hne : stackAddr s.sp ≠ stackAddr (s.push (hi v)).sp := stackAddr_ne (by rw [State.push_sp]; bv_omega)
  exact ⟨((s.push (hi v)).get_push_other _ hne).trans (State.get_push_self h _),
    State.get_push_self (State.plain_push h _) _⟩

theorem State.get_pushWord_other {a : Word} (v : Word) (h : a ∉ [stackAddr s.sp, stackAddr (s.sp - 1)]) :
    (s.pushWord v).mem.get a = s.mem.get a := by
  simp only [List.mem_cons, List.not_mem_nil, or_false, not_or] at h
  exact ((s.push (hi v)).get_push_other _ h.2).trans (s.get_push_other _ h.1)

theorem State.plain_pushWord {s : State} (h : s.Plain) (v : Word) : (s.pushWord v).Plain :=
  State.plain_push (State.plain_push h _) _

/-- JSR pushes the address of its last byte and jumps. -/
theorem exec_jsr (target : Word) :
    exec (.jsr target) s = .next ((((s.setPc (s.pc + 3)).pushWord (s.pc + 2)).setPc target).returns (.jsr target) false 0) := by
  have hlast : s.pc + 3 - 1 = s.pc + 2 := by bv_omega
  rw [← hlast]
  rfl

theorem sub_one_sub_one (sp : Byte) : sp - 1 - 1 = sp - 2 := by bv_omega

theorem add_one_add_one (sp : Byte) : sp + 1 + 1 = sp + 2 := by bv_omega

/-- Settles O32: JSR's pushes are those of a word. -/
theorem jsrPushesTheReturnAddress : Obligations.JsrPushesTheReturnAddress := by
  intro s target ret
  refine ⟨_, exec_jsr s target, rfl, ?sp, ?bus, fun h => ?cells, fun a ha => ?outside, ?_⟩
  case sp => rw [State.returns_sp, State.setPc_sp, State.pushWord_sp, State.setPc_sp, sub_one_sub_one]
  case bus => rw [State.returns_bus, State.setPc_bus, State.pushWord_bus, State.setPc_bus, State.setPc_sp]
  case cells =>
    rw [State.returns_mem, State.setPc_mem]
    exact State.get_pushWord (s := s.setPc (s.pc + 3)) h ret
  case outside =>
    rw [State.returns_mem, State.setPc_mem]
    exact (s.setPc (s.pc + 3)).get_pushWord_other ret ha
  simp [SameControl]

/-- Two pops are two reads. -/
theorem State.afterPopWord_bus : s.afterPopWord.bus =
    s.bus ++ [.read (stackAddr (s.sp + 1)) s.popByte, .read (stackAddr (s.sp + 2)) s.afterPop.popByte] := by
  rw [State.afterPopWord, State.afterPop_bus, State.afterPop_bus, State.afterPop_sp, add_one_add_one, List.append_assoc]
  rfl

@[simp] theorem State.popWord_setPc (v : Word) : (s.setPc v).popWord = s.popWord := rfl

@[simp] theorem State.popWord_returns (i : Instr) (crossed : Bool) (hx : Nat) :
    (s.returns i crossed hx).popWord = s.popWord := rfl

/-- RTS pops a word and continues after it. -/
theorem exec_rts :
    exec .rts s = .next (((s.setPc (s.pc + 1)).afterPopWord.setPc (s.popWord + 1)).returns .rts false 0) := rfl

/-- Settles O33: RTS pops a word and adds 1 to it. -/
theorem rtsPopsAndAddsOne : Obligations.RtsPopsAndAddsOne := by
  intro s
  refine ⟨_, exec_rts s, ?sp, ?pc, ?bus, ?_⟩
  case sp => rw [State.returns_sp, State.setPc_sp, State.afterPopWord_sp, State.setPc_sp, add_one_add_one]
  case pc =>
    have hword : s.popWord.toNat = s.afterPop.popByte.toNat * 256 + s.popByte.toNat := join_toNat _ _
    rw [State.returns_pc, State.setPc_pc, BitVec.toNat_add, hword]
    rfl
  case bus =>
    rw [State.returns_bus, State.setPc_bus, State.afterPopWord_bus]
    rfl
  simp [SameControl, SameMemory]

/-- On plain memory the word two pops return is the two cells above `SP`. -/
theorem State.popWord_plain {s : State} (h : s.replies = []) :
    s.popWord = join (s.mem.get (stackAddr (s.sp + 2))) (s.mem.get (stackAddr (s.sp + 1))) := by
  rw [State.popWord, State.popByte, State.popByte, State.memRead_plain h, State.memRead_plain (by simp [h]),
    State.afterPop_sp, State.afterPop_mem, add_one_add_one]

/-- On plain memory a pushed word is popped again. -/
theorem State.popWord_pushWord {s : State} (h : s.Plain) (v : Word) : (s.pushWord v).popWord = v := by
  have hsp1 : s.sp - 1 - 1 + 1 = s.sp - 1 := by bv_omega
  have hsp2 : s.sp - 1 - 1 + 2 = s.sp := by bv_omega
  obtain ⟨hhigh, hlow⟩ := State.get_pushWord h v
  rw [State.popWord_plain (State.plain_pushWord h v).1, State.pushWord_sp, hsp1, hsp2, hhigh, hlow, join_hi_lo]

/-- Settles O34: the word JSR pushed is the word RTS pops. -/
theorem rtsReturnsToTheInstructionAfterJsr : Obligations.RtsReturnsToTheInstructionAfterJsr := by
  intro s target h
  have hpop := State.popWord_pushWord (s := s.setPc (s.pc + 3)) h (s.pc + 2)
  refine ⟨_, _, exec_jsr s target, exec_rts _, ?pc, ?sp, ?p⟩
  case pc =>
    have hnext : s.pc + 2 + 1 = s.pc + 3 := by bv_omega
    rw [State.returns_pc, State.setPc_pc, State.popWord_returns, State.popWord_setPc, hpop, hnext]
  case sp => simp
  case p => simp

end

end Sys2Proof.Machine
end

section
/-! SUPPORT. Noninterference: `P.D` in ADC and SBC (44_arithmetic.md R141), and bit 4 of `P` with `PLP_B_POLICY` in every Step
(10_state.md R17, 42_transfer_stack.md R120). -/

namespace Sys2Proof.Machine

/-! ## The same state with another status and other parameters -/

/-- `s` with the status `p` and the parameters `c`. -/
def State.withStatus (s : State) (p : Byte) (c : Config) : State := { s with p := p, cfg := c }

/-- An operation that neither reads nor writes the status and the parameters. -/
def IgnoresStatus (op : State → State) : Prop :=
  ∀ (s : State) (p : Byte) (c : Config), op (s.withStatus p c) = (op s).withStatus p c

section
variable (f : OperandForm) (s : State) (p : Byte) (c : Config)

theorem resolve_withStatus : resolve f (s.withStatus p c) = resolve f s := by cases f <;> rfl

theorem operandByte_withStatus : operandByte f (s.withStatus p c) = operandByte f s := by cases f <;> rfl

theorem atHandler_ignoresStatus : IgnoresStatus (atHandler f) := fun _ _ _ => by cases f <;> rfl

theorem afterOperandByte_ignoresStatus : IgnoresStatus (afterOperandByte f) := fun _ _ _ => by cases f <;> rfl

theorem writeResult_ignoresStatus (addr : Word) (r : Byte) : IgnoresStatus (writeResult f addr r) :=
  fun _ _ _ => by cases f <;> rfl

theorem fetch_withStatus : (s.withStatus p c).fetch = s.fetch := rfl

theorem withStatus_pc : (s.withStatus p c).pc = s.pc := rfl

theorem memRead_withStatus (a : Word) : (s.withStatus p c).memRead a = s.memRead a := rfl

theorem afterFetch_ignoresStatus : IgnoresStatus State.afterFetch := by
  intro s p c
  unfold State.afterFetch
  simp only [memRead_withStatus, withStatus_pc]
  split <;> rfl

end

/-! ## `P.D` in ADC and SBC (44_arithmetic.md R141) -/

/-- Reading the operand does not see the status. -/
theorem runRead_setP (i : Instr) (f : OperandForm) (act : Byte → State → State) (s : State) (p : Byte) :
    runRead i f act (s.setP p) =
      .next ((act (operandByte f s) ((afterOperandByte f s).setP p)).returns i (resolve f s).crossed 0) := by
  have hafter : afterOperandByte f (s.setP p) = (afterOperandByte f s).setP p :=
    (afterOperandByte_ignoresStatus f s p s.cfg).trans (by rw [← afterOperandByte_cfg s f]; rfl)
  rw [runRead, hafter, show operandByte f (s.setP p) = _ from operandByte_withStatus f s p s.cfg,
    show resolve f (s.setP p) = _ from resolve_withStatus f s p s.cfg]

/-- An addition reads `P.C` only: from a status with the same carry it makes the same state but for the status. -/
theorem addInto_setP (g : Byte → Byte) (m : Byte) (r : State) {p : Byte} (hc : flag .c p = flag .c r.p) :
    addInto g m (r.setP p) = (addInto g m r).setP (addFlags r.a (g m) p) := by
  simp only [addInto, State.setP_a, State.setP_p, hc]
  rfl

/-- ADC and SBC, as additions, write neither `P.D` nor read it. -/
theorem runRead_addInto_decimal (i : Instr) (f : OperandForm) (g : Byte → Byte) (s : State) (d : Bool) :
    ∃ t u, runRead i f (addInto g) s = .next t ∧ runRead i f (addInto g) (s.setP (setFlag .d d s.p)) = .next u ∧
      u = t.setP u.p ∧ flag .d t.p = flag .d s.p ∧ flag .d u.p = d ∧ ∀ g, g ≠ .d → flag g u.p = flag g t.p := by
  obtain ⟨t, ht⟩ : ∃ t, runRead i f (addInto g) s = .next t := ⟨_, rfl⟩
  have htp := runRead_addInto_p ht
  have hc : flag .c (setFlag .d d s.p) = flag .c (afterOperandByte f s).p := by simp
  have hu : runRead i f (addInto g) (s.setP (setFlag .d d s.p)) =
      .next (t.setP (addFlags s.a (g (operandByte f s)) (setFlag .d d s.p))) := by
    rw [runRead_setP, addInto_setP _ _ _ hc, afterOperandByte_a]
    cases ht
    rfl
  refine ⟨t, _, ht, hu, rfl, ?_, ?_, fun g hg => ?others⟩
  · rw [htp, flag_addFlags]
  · rw [State.setP_p, flag_addFlags]; simp
  case others =>
    rw [State.setP_p, htp, flag_addFlags, flag_addFlags]
    cases g with
    | d => exact absurd rfl hg
    | _ => simp

/-- Settles O25: both are additions into `A`. -/
theorem decimalFlagIsInert : Obligations.DecimalFlagIsInert := by
  intro f s d i hi
  simp only [List.mem_cons, List.not_mem_nil, or_false] at hi
  obtain rfl | rfl := hi
  · exact runRead_addInto_decimal (.adc f) f id s d
  · exact runRead_addInto_decimal (.sbc f) f (· ^^^ 0xFF) s d

/-! ## Statuses alike up to bit 4 -/

/-- Two statuses that differ at most in bit 4. -/
def FlagsAlike (p q : Byte) : Prop := ∀ f, f ≠ .b → flag f q = flag f p

section
variable {p q : Byte} (h : FlagsAlike p q)
include h

theorem FlagsAlike.setFlag (g : Flag) (b : Bool) : FlagsAlike (setFlag g b p) (setFlag g b q) := by
  intro f hf
  rw [flag_setFlag, flag_setFlag, h f hf]

theorem FlagsAlike.setZN (v : Byte) : FlagsAlike (setZN v p) (setZN v q) := (h.setFlag .z _).setFlag .n _

theorem FlagsAlike.compareFlags (r m : Byte) : FlagsAlike (compareFlags r m p) (compareFlags r m q) :=
  (h.setFlag .c _).setZN _

theorem FlagsAlike.bitFlags (a m : Byte) : FlagsAlike (bitFlags a m p) (bitFlags a m q) :=
  ((h.setFlag .z _).setFlag .n _).setFlag .v _

theorem FlagsAlike.shiftFlags (out : Bool) (r : Byte) : FlagsAlike (shiftFlags out r p) (shiftFlags out r q) :=
  (h.setFlag .c out).setZN r

/-- The carry that ADC and SBC read is not bit 4. -/
theorem FlagsAlike.addFlags (a m : Byte) : FlagsAlike (addFlags a m p) (addFlags a m q) := by
  unfold Machine.addFlags
  rw [h .c nofun]
  exact ((h.setFlag .c _).setFlag .v _).setZN _

/-- Bit 4 of the copy pushed is not the register's. -/
theorem FlagsAlike.pushedByInstr_eq : pushedByInstr q = pushedByInstr p := by
  refine flags_ext fun f => ?_
  rw [flag_pushedByInstr, flag_pushedByInstr]
  by_cases hf : f = .b
  · rw [if_pos (.inl hf), if_pos (.inl hf)]
  · rw [h f hf]

theorem FlagsAlike.pushedByInterrupt_eq : pushedByInterrupt q = pushedByInterrupt p := by
  refine flags_ext fun f => ?_
  rw [flag_pushedByInterrupt, flag_pushedByInterrupt]
  by_cases hf : f = .b
  · rw [if_pos hf, if_pos hf]
  · rw [h f hf]

/-- With bit 5 at 1 the two policies restore the same bits but for bit 4. -/
theorem FlagsAlike.pullP (hu : flag .u p = true) (policy policy' : PlpBPolicy) (v : Byte) :
    FlagsAlike (pullP policy v p) (pullP policy' v q) := by
  have huq : flag .u q = true := (h .u nofun).trans hu
  intro f hf
  rw [flag_pullP, flag_pullP]
  cases f with
  | b => exact absurd rfl hf
  | u => cases policy <;> cases policy' <;> simp [hu, huq]
  | _ => cases policy <;> cases policy' <;> rfl

end

/-! ## States alike up to bit 4 of `P` and `PLP_B_POLICY` -/

section
variable {s t : State}

theorem likeUpToBreak_iff : LikeUpToBreak s t ↔
    ∃ p c, t = s.withStatus p c ∧ c.illegalPolicy = s.cfg.illegalPolicy ∧ FlagsAlike s.p p := by
  constructor
  · exact fun ⟨ht, hill, hflags⟩ => ⟨t.p, t.cfg, ht, hill, hflags⟩
  · rintro ⟨p, c, rfl, hill, hflags⟩
    exact ⟨rfl, hill, hflags⟩

/-- An operation that ignores the status leaves the status and the parameters as they are. -/
theorem IgnoresStatus.keeps {op : State → State} (hop : IgnoresStatus op) (s : State) :
    (op s).p = s.p ∧ (op s).cfg = s.cfg := by
  have h : op s = (op s).withStatus s.p s.cfg := hop s s.p s.cfg
  exact ⟨(congrArg State.p h).trans rfl, (congrArg State.cfg h).trans rfl⟩

/-- A new status, computed alike from the old ones. -/
def WritesAlike (q : State → Byte) (s : State) : Prop :=
  ∀ (p : Byte) (c : Config), FlagsAlike s.p p → FlagsAlike (q s) (q (s.withStatus p c))

section
variable (h : LikeUpToBreak s t)
include h

theorem LikeUpToBreak.map {op : State → State} (hop : IgnoresStatus op) : LikeUpToBreak (op s) (op t) := by
  obtain ⟨p, c, rfl, hill, hflags⟩ := likeUpToBreak_iff.mp h
  obtain ⟨hp, hcfg⟩ := hop.keeps s
  exact likeUpToBreak_iff.mpr ⟨p, c, hop s p c, by rw [hill, hcfg], by rwa [hp]⟩

/-- Such an operation followed by a write of the status. -/
theorem LikeUpToBreak.mapSetP {op : State → State} {q : State → Byte} (hop : IgnoresStatus op) (hq : WritesAlike q s) :
    LikeUpToBreak ((op s).setP (q s)) ((op t).setP (q t)) := by
  obtain ⟨p, c, rfl, hill, hflags⟩ := likeUpToBreak_iff.mp h
  obtain ⟨-, hcfg⟩ := hop.keeps s
  refine likeUpToBreak_iff.mpr ⟨_, c, by rw [hop s p c]; rfl, by rw [hill, State.setP_cfg, hcfg], hq p c hflags⟩

theorem LikeUpToBreak.returns (i : Instr) (crossed : Bool) (hx : Nat) :
    LikeUpToBreak (s.returns i crossed hx) (t.returns i crossed hx) :=
  h.map (op := fun r => r.returns i crossed hx) fun _ _ _ => rfl

theorem LikeUpToBreak.resolve_eq (f : OperandForm) : resolve f t = resolve f s := by
  obtain ⟨p, c, rfl, -⟩ := likeUpToBreak_iff.mp h
  exact resolve_withStatus f s p c

theorem LikeUpToBreak.operandByte_eq (f : OperandForm) : operandByte f t = operandByte f s := by
  obtain ⟨p, c, rfl, -⟩ := likeUpToBreak_iff.mp h
  exact operandByte_withStatus f s p c

/-! ## The shapes of a handler -/

/-- Reads its operand, changes registers, and sets the status. -/
theorem LikeUpToBreak.runRead {i : Instr} {f : OperandForm} {op : Byte → State → State} {q : Byte → State → Byte}
    (hop : ∀ m, IgnoresStatus (op m)) (hq : ∀ m r, WritesAlike (q m) r) :
    OutcomesLikeUpToBreak (runRead i f (fun m r => (op m r).setP (q m r)) s)
      (runRead i f (fun m r => (op m r).setP (q m r)) t) := by
  unfold Machine.runRead
  rw [h.operandByte_eq, h.resolve_eq]
  exact ((h.map (afterOperandByte_ignoresStatus f)).mapSetP (hop (operandByte f s)) (hq (operandByte f s) _)).returns _ _ _

/-- Stores a register. -/
theorem LikeUpToBreak.runStore (i : Instr) (f : OperandForm) (v : Byte) :
    OutcomesLikeUpToBreak (runStore i f v s) (runStore i f v t) := by
  unfold Machine.runStore
  rw [h.resolve_eq]
  have hwrite := (h.map (atHandler_ignoresStatus f)).map (op := fun r => r.memWrite (resolve f s).addr v) fun _ _ _ => rfl
  exact hwrite.returns i _ 0

/-- Writes its result back and sets the status from it. -/
theorem LikeUpToBreak.runModify {i : Instr} {f : OperandForm} {result : Byte → Byte} {flags : Byte → Byte → Byte}
    (hflags : ∀ v r, WritesAlike (fun r => flags v r.p) r) :
    OutcomesLikeUpToBreak (runModify i f result flags s) (runModify i f result flags t) := by
  unfold Machine.runModify
  dsimp only
  rw [h.operandByte_eq, h.resolve_eq]
  have hback := (h.map (afterOperandByte_ignoresStatus f)).map
    (writeResult_ignoresStatus f (resolve f s).addr (result (operandByte f s)))
  exact (hback.mapSetP (op := id) (fun _ _ _ => rfl) (hflags (operandByte f s) _)).returns i _ 0

omit h in
/-- Has no operand; the two acts may differ with the states. -/
theorem runImplied_likeUpToBreak {i : Instr} {act act' : State → State}
    (hact : LikeUpToBreak (act (atHandler .imp s)) (act' (atHandler .imp t))) :
    OutcomesLikeUpToBreak (runImplied i act s) (runImplied i act' t) :=
  hact.returns i false 0

/-- Has no operand, works on registers and the stack, and sets the status. -/
theorem LikeUpToBreak.runImplied_setP {i : Instr} {op : State → State} {q : State → Byte} (hop : IgnoresStatus op)
    (hq : WritesAlike q (atHandler .imp s)) :
    OutcomesLikeUpToBreak (Machine.runImplied i (fun r => (op r).setP (q r)) s)
      (Machine.runImplied i (fun r => (op r).setP (q r)) t) :=
  runImplied_likeUpToBreak ((h.map (atHandler_ignoresStatus .imp)).mapSetP hop hq)

/-- Has no operand and leaves the status alone. -/
theorem LikeUpToBreak.runImplied_ignores {i : Instr} {op : State → State} (hop : IgnoresStatus op) :
    OutcomesLikeUpToBreak (Machine.runImplied i op s) (Machine.runImplied i op t) :=
  runImplied_likeUpToBreak ((h.map (atHandler_ignoresStatus .imp)).map hop)

/-- Branches under a flag other than bit 4. -/
theorem LikeUpToBreak.runBranch (i : Instr) (cond : Bool) (d : Byte) :
    OutcomesLikeUpToBreak (runBranch i cond d s) (runBranch i cond d t) := by
  cases cond with
  | false =>
    rw [runBranch_notTaken, runBranch_notTaken]
    exact (h.map (op := fun r => r.setPc (r.pc + 2)) fun _ _ _ => rfl).returns i false 0
  | true =>
    have hpc : t.pc = s.pc := by rw [h.1]
    rw [runBranch_taken, runBranch_taken, hpc]
    exact (h.map (op := fun r => r.setPc (s.pc + 2 + sext16 d)) fun _ _ _ => rfl).returns i false _

/-! ## The handlers that are not one of these shapes, or read a flag -/

/-- An addition reads the carry and writes no bit but C, Z, V, N. -/
theorem LikeUpToBreak.addInto (g : Byte → Byte) (m : Byte) : LikeUpToBreak (addInto g m s) (addInto g m t) := by
  have hc : flag .c t.p = flag .c s.p := h.2.2 .c nofun
  unfold Machine.addInto
  rw [hc]
  exact h.mapSetP (op := fun r => r.setA (addResult r.a (g m) (flag .c s.p))) (q := fun r => addFlags r.a (g m) r.p)
    (fun _ _ _ => rfl) fun _ _ hp => hp.addFlags _ _

theorem LikeUpToBreak.runRead_addInto (i : Instr) (f : OperandForm) (g : Byte → Byte) :
    OutcomesLikeUpToBreak (Machine.runRead i f (Machine.addInto g) s) (Machine.runRead i f (Machine.addInto g) t) := by
  unfold Machine.runRead
  rw [h.operandByte_eq, h.resolve_eq]
  exact ((h.map (afterOperandByte_ignoresStatus f)).addInto g (operandByte f s)).returns _ _ _

/-- Taking an exception with a given copy of the status: I is set, and the rest does not see the status. -/
theorem LikeUpToBreak.takeException (vector ret : Word) (copy : Byte) :
    LikeUpToBreak (s.takeException vector ret copy) (t.takeException vector ret copy) := by
  have hpushed := h.map (op := fun r => (r.pushWord ret).push copy) fun _ _ _ => rfl
  have hmasked := hpushed.mapSetP (op := id) (q := fun r => Machine.setFlag .i true r.p) (fun _ _ _ => rfl)
    fun _ _ hp => hp.setFlag .i true
  exact hmasked.map (op := fun r => (r.afterMemReadPair vector (nextAddr vector)).setPc
    (r.memReadPair vector (nextAddr vector))) fun _ _ _ => rfl

omit h in
/-- Pulling the status, with bit 5 at 1. -/
theorem writesAlike_pullP (hu : flag .u s.p = true) : WritesAlike (fun r => Machine.pullP r.cfg.plpBPolicy r.popByte r.p) s :=
  fun _ c hp => hp.pullP hu s.cfg.plpBPolicy c.plpBPolicy s.popByte

omit h in
/-- RTI's pops do not see the status it restores between them. -/
theorem State.returnFromException_eq_setP : s.returnFromException =
    (s.afterPop.afterPopWord.setPc s.afterPop.popWord).setP (Machine.pullP s.cfg.plpBPolicy s.popByte s.p) := rfl

/-- The two policies of illegal opcodes are the same. -/
theorem LikeUpToBreak.execIll (op : Byte) : OutcomesLikeUpToBreak (execIll op s) (execIll op t) := by
  have hpc : t.pc = s.pc := by rw [h.1]
  unfold Machine.execIll
  rw [h.2.1, hpc]
  split
  · exact h.runImplied_ignores fun _ _ _ => rfl
  · rfl

theorem LikeUpToBreak.execJmp (f : OperandForm) : OutcomesLikeUpToBreak (execJmp f s) (execJmp f t) := by
  unfold Machine.execJmp
  rw [h.resolve_eq]
  exact ((h.map (atHandler_ignoresStatus f)).map (op := fun r => r.setPc (resolve f s).addr) fun _ _ _ => rfl).returns _ _ _

/-! ## Every instruction, and the Step -/

theorem exec_likeUpToBreak (hu : flag .u s.p = true) (i : Instr) : OutcomesLikeUpToBreak (exec i s) (exec i t) := by
  have hflag {f : Flag} (hf : f ≠ .b) : flag f t.p = flag f s.p := h.2.2 f hf
  have ha : t.a = s.a := by rw [h.1]
  have hx : t.x = s.x := by rw [h.1]
  have hy : t.y = s.y := by rw [h.1]
  have hpc : t.pc = s.pc := by rw [h.1]
  have hflags : FlagsAlike s.p t.p := h.2.2
  have hhandler := h.map (atHandler_ignoresStatus .imp)
  cases i with
  | lda f | ldx f | ldy f | and f | ora f | eor f =>
    simp only [exec]
    refine h.runRead ?_ ?_
    · exact fun _ _ _ _ => rfl
    · exact fun _ _ _ _ hp => hp.setZN _
  | bit f =>
    simp only [exec]
    refine h.runRead (op := fun _ r => r) ?_ ?_
    · exact fun _ _ _ _ => rfl
    · exact fun _ _ _ _ hp => hp.bitFlags _ _
  | cmp f | cpx f | cpy f =>
    simp only [exec]
    refine h.runRead (op := fun _ r => r) ?_ ?_
    · exact fun _ _ _ _ => rfl
    · exact fun _ _ _ _ hp => hp.compareFlags _ _
  | adc f => exact h.runRead_addInto (.adc f) f id
  | sbc f => exact h.runRead_addInto (.sbc f) f (· ^^^ 0xFF)
  | sta f | stx f | sty f =>
    simp only [exec, execSta, execStx, execSty, ha, hx, hy]
    exact h.runStore _ f _
  | inc f | dec f =>
    simp only [exec]
    refine h.runModify ?_
    exact fun _ _ _ _ hp => hp.setZN _
  | asl f | lsr f | rol f | ror f =>
    simp only [exec, execAsl, execLsr, execRol, execRor, hflag (f := .c) nofun]
    refine h.runModify ?_
    exact fun _ _ _ _ hp => hp.shiftFlags _ _
  | bpl d | bmi d | bvc d | bvs d | bcc d | bcs d | bne d | beq d =>
    simp only [exec, execBpl, execBmi, execBvc, execBvs, execBcc, execBcs, execBne, execBeq, hflag (f := .n) nofun,
      hflag (f := .v) nofun, hflag (f := .c) nofun, hflag (f := .z) nofun]
    exact h.runBranch _ _ d
  | jmp f => exact h.execJmp f
  | jsr w =>
    rw [exec_jsr, exec_jsr, hpc]
    have hpushed := h.map (op := fun r => (r.setPc (s.pc + 3)).pushWord (s.pc + 2)) fun _ _ _ => rfl
    have hjumped := hpushed.map (op := fun r => r.setPc w) fun _ _ _ => rfl
    exact hjumped.returns (.jsr w) false 0
  | ill op => exact h.execIll op
  | pha | rts | txs | nop =>
    simp only [exec]
    refine h.runImplied_ignores ?_
    exact fun _ _ _ => rfl
  | php =>
    simp only [exec, execPhp]
    refine runImplied_likeUpToBreak ?_
    rw [atHandler_p, atHandler_p, hflags.pushedByInstr_eq]
    exact hhandler.map (op := fun r => r.push (pushedByInstr s.p)) fun _ _ _ => rfl
  | brk =>
    simp only [exec, execBrk]
    refine runImplied_likeUpToBreak ?_
    rw [atHandler_p, atHandler_p, hflags.pushedByInstr_eq, hpc]
    exact hhandler.takeException irqVector (s.pc + 2) (pushedByInstr s.p)
  | plp =>
    simp only [exec, execPlp]
    refine h.runImplied_setP (op := State.afterPop) ?_ ?_
    · exact fun _ _ _ => rfl
    · exact writesAlike_pullP (by rwa [atHandler_p])
  | rti =>
    simp only [exec, execRti, State.returnFromException_eq_setP]
    refine h.runImplied_setP (op := fun r => r.afterPop.afterPopWord.setPc r.afterPop.popWord) ?_ ?_
    · exact fun _ _ _ => rfl
    · exact writesAlike_pullP (by rwa [atHandler_p])
  | tax | tay | txa | tya | tsx | pla | inx | iny | dex | dey =>
    simp only [exec]
    refine h.runImplied_setP ?_ ?_
    · exact fun _ _ _ => rfl
    · exact fun _ _ hp => hp.setZN _
  | clc | sec | cli | sei | cld | sed | clv =>
    simp only [exec]
    refine h.runImplied_setP (op := fun r => r) ?_ ?_
    · exact fun _ _ _ => rfl
    · exact fun _ _ hp => hp.setFlag _ _

/-- An interrupt entry pushes a copy of the status with bit 4 at 0. -/
theorem LikeUpToBreak.interruptEntry (k : InterruptKind) :
    LikeUpToBreak (s.interruptEntry k) (t.interruptEntry k) := by
  have hpc : t.pc = s.pc := by rw [h.1]
  have hcopy : pushedByInterrupt t.p = pushedByInterrupt s.p := FlagsAlike.pushedByInterrupt_eq h.2.2
  have hlatch : LikeUpToBreak (s.clearLatch k) (t.clearLatch k) :=
    h.map (op := fun r => r.clearLatch k) fun _ _ _ => by cases k <;> rfl
  unfold State.interruptEntry
  rw [hpc, hcopy]
  exact (hlatch.takeException _ _ _).map (op := fun r => r.setCycles (some 7)) fun _ _ _ => rfl

/-- The interrupt check reads I only. -/
theorem LikeUpToBreak.pendingInterrupt_eq : t.pendingInterrupt = s.pendingInterrupt := by
  have hnmi : t.nmiPending = s.nmiPending := by rw [h.1]
  have hirq : t.irqPending = s.irqPending := by rw [h.1]
  unfold State.pendingInterrupt
  rw [hnmi, hirq, h.2.2 .i nofun]

theorem LikeUpToBreak.fetch_eq : t.fetch = s.fetch := by
  obtain ⟨p, c, rfl, -⟩ := likeUpToBreak_iff.mp h
  exact fetch_withStatus s p c

end

/-- Settles O56: the check, the fetch, the entry and every instruction keep states alike, in a launch state. -/
theorem breakBitAndPolicyAreUnobservable : Obligations.BreakBitAndPolicyAreUnobservable := by
  intro s t h
  have hu : t.launchable = s.launchable := h.2.2 .u nofun
  cases hl : s.launchable with
  | false =>
    rw [step_refused hl, step_refused (hu.trans hl)]
    rfl
  | true =>
    have hbegin : LikeUpToBreak (s.setBus []) (t.setBus []) := h.map (op := fun r => r.setBus []) fun _ _ _ => rfl
    cases hk : s.pendingInterrupt with
    | some k =>
      rw [step_interrupt hl hk, step_interrupt (hu.trans hl) (h.pendingInterrupt_eq.trans hk)]
      exact hbegin.interruptEntry k
    | none =>
      rw [step_instruction hl hk, step_instruction (hu.trans hl) (h.pendingInterrupt_eq.trans hk), hbegin.fetch_eq]
      exact exec_likeUpToBreak (hbegin.map afterFetch_ignoresStatus) (by rw [State.afterFetch_p]; exact hl) _

end

end Sys2Proof.Machine
end

section
/-! SUPPORT. Exceptions: BRK and RTI (49_flag_system.md), and interrupt entry (60_exceptions.md). -/

namespace Sys2Proof.Machine

/-! ## The three bytes an exception's entry saves (60_exceptions.md R219) -/

section
variable (s : State) (vector ret : Word) (copy : Byte)

/-- The state after the three writes of an exception's entry: the return address high then low, and the copy of the status. -/
def State.savedFrame : State :=
  ((s.memWrite (stackAddr s.sp) (hi ret)).memWrite (stackAddr (s.sp - 1)) (lo ret)).memWrite (stackAddr (s.sp - 2)) copy

/-- The three pushes are those writes, as far as memory, the answers and the record go. -/
theorem State.push3_eq_savedFrame : (s.pushWord ret).push copy = (s.savedFrame ret copy).setSp (s.sp - 3) :=
  s.push3_eq ret copy

theorem State.savedFrame_mem : (s.savedFrame ret copy).mem = ((s.pushWord ret).push copy).mem := by
  rw [State.push3_eq_savedFrame, State.setSp_mem]

/-- Only the three cells of the stack are written. -/
theorem State.get_savedFrame_other {a : Word} (h : a ∉ [stackAddr s.sp, stackAddr (s.sp - 1), stackAddr (s.sp - 2)]) :
    (s.savedFrame ret copy).mem.get a = s.mem.get a := by
  simp only [List.mem_cons, List.not_mem_nil, or_false, not_or] at h
  obtain ⟨hhigh, hlow, hcopy⟩ := h
  rw [State.savedFrame, State.get_memWrite_other _ _ hcopy, State.get_memWrite_other _ _ hlow,
    State.get_memWrite_other _ _ hhigh]

/-- No vector is in the stack's page (20_memory.md R38, R41). -/
theorem not_mem_stack_of_hi {a : Word} {p q r : Byte} (h : hi a = 0xFF) : a ∉ [stackAddr p, stackAddr q, stackAddr r] := by
  have hne (b : Byte) : a ≠ stackAddr b := fun hab => by
    rw [hab, hi_stackAddr] at h
    exact absurd h (by decide)
  simp [hne]

section
variable {s} (h : s.Plain)
include h

/-- On plain memory the three cells hold the three bytes. -/
theorem State.get_savedFrame : (s.savedFrame ret copy).mem.get (stackAddr s.sp) = hi ret ∧
    (s.savedFrame ret copy).mem.get (stackAddr (s.sp - 1)) = lo ret ∧
    (s.savedFrame ret copy).mem.get (stackAddr (s.sp - 2)) = copy := by
  have hsp : (s.pushWord ret).sp = s.sp - 2 := by rw [State.pushWord_sp, sub_one_sub_one]
  have hother (b : Byte) (hb : b ≠ s.sp - 2) : ((s.pushWord ret).push copy).mem.get (stackAddr b) =
      (s.pushWord ret).mem.get (stackAddr b) :=
    State.get_push_other _ _ (stackAddr_ne (by rwa [hsp]))
  obtain ⟨hhigh, hlow⟩ := State.get_pushWord h ret
  rw [State.savedFrame_mem]
  refine ⟨(hother _ (by bv_omega)).trans hhigh, (hother _ (by bv_omega)).trans hlow, ?_⟩
  rw [← hsp]
  exact State.get_push_self (State.plain_pushWord h ret) copy

/-- On plain memory the vector read is the cells', at an address outside the stack's page. -/
theorem State.memRead_savedFrame {a : Word} (ha : hi a = 0xFF) :
    (s.savedFrame ret copy).memRead a = s.mem.get a := by
  have hreplies : (s.savedFrame ret copy).replies = [] := by simp [State.savedFrame, h.1]
  rw [State.memRead_plain hreplies]
  exact s.get_savedFrame_other ret copy (not_mem_stack_of_hi ha)

theorem State.memRead_savedFrame_next {a b : Word} (hb : hi b = 0xFF) :
    ((s.savedFrame ret copy).afterMemRead a).memRead b = s.mem.get b := by
  have hreplies : ((s.savedFrame ret copy).afterMemRead a).replies = [] := by simp [State.savedFrame, h.1]
  rw [State.memRead_plain hreplies, State.afterMemRead_mem]
  exact s.get_savedFrame_other ret copy (not_mem_stack_of_hi hb)

end

/-! ## BRK and interrupt entry -/

/-- What an exception's entry does, whatever the capability answers; `next` is the address after `vector`. -/
structure Enters (vector next ret : Word) (copy : Byte) (s t : State) : Prop where
  a : t.a = s.a
  x : t.x = s.x
  y : t.y = s.y
  sp : t.sp = s.sp - 3
  masked : flag .i t.p = true
  flags : SameFlagsOutside [.i] s t
  pc : t.pc = join (((s.savedFrame ret copy).afterMemRead vector).memRead next) ((s.savedFrame ret copy).memRead vector)
  bus : t.bus = s.bus ++ [.write (stackAddr s.sp) (hi ret), .write (stackAddr (s.sp - 1)) (lo ret),
    .write (stackAddr (s.sp - 2)) copy, .read vector ((s.savedFrame ret copy).memRead vector),
    .read next (((s.savedFrame ret copy).afterMemRead vector).memRead next)]
  mem : t.mem = (s.savedFrame ret copy).mem
  replies : t.replies = s.replies.drop 5

section
variable {vector next ret copy} {s t : State}

theorem takeException_enters (hnext : vector + 1 = next) :
    Enters vector next ret copy s (s.takeException vector ret copy) := by
  obtain ⟨hmasked, hflags⟩ := flags_of_setFlag (s.takeException_p vector ret copy)
  subst hnext
  refine ⟨by simp, by simp, by simp, ?sp, hmasked, hflags, ?pc, ?bus, ?mem, ?replies⟩
  case sp =>
    rw [State.takeException_sp]
    bv_omega
  case pc =>
    rw [State.takeException_pc, State.push3_eq_savedFrame]
    rfl
  case bus =>
    rw [State.takeException_bus, State.push3_eq_savedFrame]
    rfl
  case mem => rw [State.takeException_mem, State.savedFrame_mem]
  case replies => rw [State.takeException_replies]; simp only [← List.drop_one, List.drop_drop]

theorem Enters.returns (h : Enters vector next ret copy s t) (i : Instr) (crossed : Bool) (hx : Nat) :
    Enters vector next ret copy s (t.returns i crossed hx) :=
  ⟨h.a, h.x, h.y, h.sp, h.masked, h.flags, h.pc, h.bus, h.mem, h.replies⟩

theorem Enters.clearLatch (h : Enters vector next ret copy s t) (k : InterruptKind) :
    Enters vector next ret copy s (t.clearLatch k) := by
  cases k <;> exact ⟨h.a, h.x, h.y, h.sp, h.masked, h.flags, h.pc, h.bus, h.mem, h.replies⟩

theorem Enters.setCycles (h : Enters vector next ret copy s t) (c : Option Byte) :
    Enters vector next ret copy s (t.setCycles c) :=
  ⟨h.a, h.x, h.y, h.sp, h.masked, h.flags, h.pc, h.bus, h.mem, h.replies⟩

theorem Enters.outside (h : Enters vector next ret copy s t) :
    SameMemoryOutside [stackAddr s.sp, stackAddr (s.sp - 1), stackAddr (s.sp - 2)] s t :=
  fun _ ha => by rw [h.mem]; exact s.get_savedFrame_other ret copy ha

section
variable (h : Enters vector next ret copy s t) (hs : s.Plain) (hvector : hi vector = 0xFF) (hnext : hi next = 0xFF)
include h hs

theorem Enters.cells : t.mem.get (stackAddr s.sp) = hi ret ∧ t.mem.get (stackAddr (s.sp - 1)) = lo ret ∧
    t.mem.get (stackAddr (s.sp - 2)) = copy := by
  rw [h.mem]
  exact State.get_savedFrame ret copy hs

include hvector hnext

theorem Enters.pc_plain : t.pc = join (s.mem.get next) (s.mem.get vector) := by
  rw [h.pc, State.memRead_savedFrame_next ret copy hs hnext, State.memRead_savedFrame ret copy hs hvector]

theorem Enters.bus_plain : t.bus = s.bus ++ [.write (stackAddr s.sp) (hi ret), .write (stackAddr (s.sp - 1)) (lo ret),
    .write (stackAddr (s.sp - 2)) copy, .read vector (s.mem.get vector), .read next (s.mem.get next)] := by
  rw [h.bus, State.memRead_savedFrame_next ret copy hs hnext, State.memRead_savedFrame ret copy hs hvector]

end

end

theorem exec_brk : exec .brk s =
    .next ((s.takeException irqVector (s.pc + 2) (pushedByInstr s.p)).returns .brk false 0) := rfl

/-- BRK enters through the IRQ vector with its own return address and copy, and takes 7 cycles. -/
theorem exec_brk_enters {s t : State} (h : exec .brk s = .next t) :
    Enters 0xFFFE 0xFFFF (s.pc + 2) (pushedByInstr s.p) s t ∧ t.p = setFlag .i true s.p ∧ SameControl s t ∧
      t.stepCycles = some 7 := by
  have hreturned := Host.Outcome.next.inj ((exec_brk s).symm.trans h)
  refine ⟨hreturned ▸ (takeException_enters (by decide)).returns .brk false 0, ?_⟩
  rw [← hreturned]
  simp [SameControl]
  decide

/-- Settles O38: BRK's entry, on plain memory with both vector addresses outside the stack's page. -/
theorem brkTakesTheTrap : Obligations.BrkTakesTheTrap := by
  intro s ret u
  obtain ⟨t, ht⟩ : ∃ t, exec .brk s = .next t := ⟨_, exec_brk s⟩
  obtain ⟨h, -, hcontrol⟩ := exec_brk_enters ht
  exact ⟨t, ht, h.sp, h.masked, h.flags, h.pc, h.bus, h.mem, h.replies,
    fun hs => ⟨h.pc_plain hs (by decide) (by decide), h.bus_plain hs (by decide) (by decide), h.cells hs⟩, h.outside,
    h.a, h.x, h.y, hcontrol⟩

/-- Clearing a latch does not matter to the rest of the entry. -/
theorem State.interruptEntry_eq (k : InterruptKind) : s.interruptEntry k =
    ((s.takeException k.vector s.pc (pushedByInterrupt s.p)).clearLatch k).setCycles (some 7) := by
  cases k <;> rfl

theorem interruptEntry_enters (k : InterruptKind) :
    Enters k.vector (k.vector + 1) s.pc (pushedByInterrupt s.p) s (s.interruptEntry k) := by
  rw [State.interruptEntry_eq]
  exact ((takeException_enters rfl).clearLatch k).setCycles (some 7)

/-- Settles O42: an interrupt entry enters through its vector with `PC` itself and its own copy. -/
theorem interruptEntrySavesAndVectors : Obligations.InterruptEntrySavesAndVectors := by
  intro s k t v copy u
  have hv : v = k.vector := by cases k <;> rfl
  have hpage : hi v = 0xFF ∧ hi (v + 1) = 0xFF := by rw [hv]; cases k <;> decide
  have h : Enters v (v + 1) s.pc copy s t := hv ▸ interruptEntry_enters s k
  refine ⟨h.sp, h.masked, h.flags, h.a, h.x, h.y, s.interruptEntry_cfg k, s.interruptEntry_stepCycles k, ?nmiLatch, ?irqLatch,
    h.pc, h.bus, h.mem, h.replies, h.outside, fun hs => ?plain⟩
  case nmiLatch => cases k <;> exact State.interruptEntry_nmiPending s _
  case irqLatch => cases k <;> exact State.interruptEntry_irqPending s _
  case plain =>
    obtain ⟨hhigh, hlow, hcopy⟩ := h.cells hs
    exact ⟨h.pc_plain hs hpage.1 hpage.2, hhigh, hlow, hcopy, h.bus_plain hs hpage.1 hpage.2⟩

/-! ## RTI (49_flag_system.md R204) -/

theorem exec_rti : exec .rti s = .next (s.returnFromException.returns .rti false 0) := rfl

theorem State.returnFromException_pc : s.returnFromException.pc = s.afterPop.popWord := rfl

theorem State.returnFromException_bus : s.returnFromException.bus = s.afterPop.afterPopWord.bus := rfl

/-- Settles O39: one pop into the status and two into `PC`. -/
theorem rtiRestoresStatusAndPc : Obligations.RtiRestoresStatusAndPc := by
  intro s
  obtain ⟨hlive, hu, hb⟩ := pullP_flags s.cfg.plpBPolicy s.popByte s.p
  rw [← State.returnFromException_p] at hlive hu hb
  refine ⟨_, exec_rti s, ?sp, hlive, hu, hb, ?pc, ?bus, ?_⟩
  case sp =>
    rw [State.returns_sp, State.returnFromException_sp]
    bv_omega
  case pc => rw [State.returns_pc, State.returnFromException_pc, State.popWord]
  case bus =>
    have hthree : s.sp + 1 + 2 = s.sp + 3 := by bv_omega
    rw [State.returns_bus, State.returnFromException_bus, State.afterPopWord_bus, State.afterPop_bus, State.afterPop_sp,
      add_one_add_one, hthree, List.append_assoc]
    rfl
  simp [SameControl, SameMemory]

/-! ## RTI after an entry -/

/-- On plain memory the three bytes saved are pulled again, whatever was written to the registers in between. -/
theorem Enters.pops {vector next ret copy} {s t : State} (h : Enters vector next ret copy s t) (hs : s.Plain) :
    t.popByte = copy ∧ t.afterPop.popWord = ret := by
  obtain ⟨hhigh, hlow, hcopy⟩ := h.cells hs
  have hreplies : t.replies = [] := by rw [h.replies, hs.1, List.drop_nil]
  have hsp1 : s.sp - 3 + 1 = s.sp - 2 := by bv_omega
  have hsp2 : s.sp - 3 + 1 + 1 = s.sp - 1 := by bv_omega
  have hsp3 : s.sp - 3 + 1 + 2 = s.sp := by bv_omega
  constructor
  · rw [State.popByte, State.memRead_plain hreplies, h.sp, hsp1, hcopy]
  · rw [State.popWord_plain (by rw [State.afterPop_replies, hreplies, List.tail_nil]), State.afterPop_sp, State.afterPop_mem,
      h.sp, hsp2, hsp3, hhigh, hlow, join_hi_lo]

/-- A copy of the status that differs in B and U at most restores every flag but B, and under `ignore` all of them. -/
theorem pullP_restores {copy p : Byte} (hcopy : ∀ f, f ≠ .b → f ≠ .u → flag f copy = flag f p) (hu : flag .u p = true)
    (policy : PlpBPolicy) : (∀ f ∉ [Flag.b], flag f (pullP policy copy (setFlag .i true p)) = flag f p) ∧
      (policy = .ignore → pullP policy copy (setFlag .i true p) = p) := by
  have hrestored (f : Flag) (hf : f ≠ .b) : flag f (pullP policy copy (setFlag .i true p)) = flag f p := by
    rw [flag_pullP]
    cases f with
    | b => exact absurd rfl hf
    | u => cases policy <;> simp [hu]
    | _ => cases policy <;> exact hcopy _ nofun nofun
  refine ⟨fun f hf => hrestored f (List.ne_of_not_mem_cons hf), fun hpolicy => flags_ext fun f => ?_⟩
  by_cases hf : f = .b
  · subst hf hpolicy
    simp
  · exact hrestored f hf

/-- RTI after an entry resumes at the return address, with the stack pointer and the flags of the state before it. -/
theorem Enters.rti {vector next ret copy} {s t : State} (h : Enters vector next ret copy s t) (hs : s.Plain)
    (hp : t.p = setFlag .i true s.p) (hcfg : t.cfg = s.cfg) (hu : flag .u s.p = true)
    (hcopy : ∀ f, f ≠ .b → f ≠ .u → flag f copy = flag f s.p) :
    ∃ r, exec .rti t = .next r ∧ r.pc = ret ∧ r.sp = s.sp ∧ r.a = s.a ∧ r.x = s.x ∧ r.y = s.y ∧
      SameFlagsOutside [.b] s r ∧ (s.cfg.plpBPolicy = .ignore → r.p = s.p) := by
  obtain ⟨hpop, hword⟩ := h.pops hs
  have hstatus : (t.returnFromException.returns .rti false 0).p = pullP s.cfg.plpBPolicy copy (setFlag .i true s.p) := by
    rw [State.returns_p, State.returnFromException_p, hpop, hp, hcfg]
  obtain ⟨hflags, hall⟩ := pullP_restores hcopy hu s.cfg.plpBPolicy
  rw [← hstatus] at hflags hall
  refine ⟨_, exec_rti t, ?pc, ?sp, ?a, ?x, ?y, hflags, hall⟩
  case pc => rw [State.returns_pc, State.returnFromException_pc, hword]
  case sp =>
    rw [State.returns_sp, State.returnFromException_sp, h.sp]
    bv_omega
  case a => rw [State.returns_a, State.returnFromException_a, h.a]
  case x => rw [State.returns_x, State.returnFromException_x, h.x]
  case y => rw [State.returns_y, State.returnFromException_y, h.y]

/-- Settles O43: RTI after an interrupt entry, whose return address is `PC` itself. -/
theorem rtiResumesTheInterruptedStream : Obligations.RtiResumesTheInterruptedStream := by
  intro s k hs hu
  exact (interruptEntry_enters s k).rti hs (s.interruptEntry_p k) (s.interruptEntry_cfg k) hu fun f hb hu' => by
    rw [flag_pushedByInterrupt, if_neg hu', if_neg hb]

/-- Settles O44: RTI after BRK, whose return address is two bytes after its opcode. -/
theorem rtiResumesTwoBytesAfterBrk : Obligations.RtiResumesTwoBytesAfterBrk := by
  intro s hs hu
  obtain ⟨t, ht⟩ : ∃ t, exec .brk s = .next t := ⟨_, exec_brk s⟩
  obtain ⟨hbrk, hp, ⟨-, -, hcfg⟩, -⟩ := exec_brk_enters ht
  obtain ⟨r, hr, hpc, hsp, -, -, -, hflags, hall⟩ := hbrk.rti hs hp hcfg hu fun f hb hu' => by
    rw [flag_pushedByInstr, if_neg (by simp [hb, hu'])]
  exact ⟨t, r, ht, hr, hpc, hsp, hflags, hall⟩

end

end Sys2Proof.Machine
end

section
/-! SUPPORT. One access (20_memory.md R31), Reset (70_reset_and_hazards.md R240), the Step's check and fetch (60_exceptions.md R218,
40_step_and_addressing.md R70 to R76), bit 4 of `P` under `ignore` (10_state.md R17), and nine rotations (46_shift_rotate.md
R163). -/

namespace Sys2Proof.Machine

/-! ## One access of the memory capability (20_memory.md R31) -/

section
variable {s : State} {rs : List BusReply}

theorem access_device {v : Byte} (h : s.replies = .device v :: rs) (a : Word) (w : Byte) :
    s.memRead a = v ∧ s.afterMemRead a = (s.setReplies rs).setBus (s.bus ++ [.read a v]) ∧
      s.memWrite a w = (s.setReplies rs).setBus (s.bus ++ [.write a w]) := by
  have hread : s.memRead a = v := by rw [State.memRead, h]
  have hlands : s.writeLands = false := by rw [State.writeLands, h]
  refine ⟨hread, ?_, ?_⟩
  · rw [State.afterMemRead, hread, h]
    rfl
  · rw [State.memWrite, hlands, h]
    rfl

/-- The answer `memory`, or none left, lets an access reach the cells. -/
theorem access_memory (h : s.replies = .memory :: rs ∨ s.replies = [] ∧ rs = []) (a : Word) (w : Byte) :
    s.memRead a = s.mem.get a ∧ s.writeLands = true ∧
      s.afterMemRead a = (s.setReplies rs).setBus (s.bus ++ [.read a (s.mem.get a)]) ∧
      s.memWrite a w = ((s.setMem (s.memWrite a w).mem).setReplies rs).setBus (s.bus ++ [.write a w]) := by
  have hcells : s.memRead a = s.mem.get a ∧ s.writeLands = true ∧ s.replies.tail = rs := by
    obtain h | ⟨h, rfl⟩ := h <;> simp [State.memRead, State.writeLands, h]
  obtain ⟨hread, hlands, htail⟩ := hcells
  refine ⟨hread, hlands, ?_, ?_⟩
  · rw [State.afterMemRead, hread, htail]
    rfl
  · rw [← htail]
    rfl

/-- Settles O6: by the next answer; then on plain memory, where there is none. -/
theorem loadSeesTheLatestStore : Obligations.LoadSeesTheLatestStore := by
  refine ⟨fun s rs v h a w => access_device h a w, fun s rs h a w => ?memory, fun s a b v hs => ?plain⟩
  case memory =>
    obtain ⟨hread, hlands, hafter, hwrite⟩ := access_memory h a w
    refine ⟨hread, hafter, hwrite, fun b hb => s.get_memWrite_other w (List.ne_of_not_mem_cons hb), fun hwf => ⟨?_, ?_⟩⟩
    · rw [State.memWrite_mem, if_pos hlands, Memory.get_set_same _ _ _ hwf]
    · exact State.wf_memWrite hwf a w
  case plain =>
    obtain ⟨hreplies, hwf⟩ := hs
    have hafter : (s.memWrite a v).replies = [] := by rw [State.memWrite_replies, hreplies, List.tail_nil]
    refine ⟨?_, rfl, hafter, State.wf_memWrite hwf a v⟩
    rw [State.memRead_plain hafter, State.memRead_plain hreplies, State.memWrite_mem_plain hreplies, Memory.get_set _ _ _ _ hwf]

end

/-! ## Reset (70_reset_and_hazards.md R240) -/

/-- Settles O57: the reset state's fields, by evaluation. -/
theorem resetStateMeetsTheInvariant : Obligations.ResetStateMeetsTheInvariant :=
  ⟨reset_inv, rfl, rfl, rfl, rfl, rfl, rfl, rfl, rfl, rfl, by decide, rfl, rfl, rfl, rfl⟩

/-- Settles O58: Reset's two reads are those of a pair, from an empty record. -/
theorem hostResetInstallsTheResetValues : Obligations.HostResetInstallsTheResetValues := by
  intro s
  have hpc : s.hostReset.pc.toNat = ((s.afterMemRead 0xFFFC).memRead 0xFFFD).toNat * 256 + (s.memRead 0xFFFC).toNat :=
    memReadPair_toNat s 0xFFFC 0xFFFD
  have hbus : s.hostReset.bus =
      [.read 0xFFFC (s.memRead 0xFFFC), .read 0xFFFD ((s.afterMemRead 0xFFFC).memRead 0xFFFD)] := rfl
  refine ⟨_, rfl, rfl, rfl, rfl, rfl, rfl, rfl, rfl, rfl, rfl, rfl, hpc, hbus, ?answers, fun h => ?plain⟩
  case answers =>
    change s.replies.tail.tail = _
    rw [← List.drop_one, ← List.drop_one, List.drop_drop]
  case plain =>
    have hlow : s.memRead 0xFFFC = s.mem.get 0xFFFC := State.memRead_plain h.1 _
    have hhigh : (s.afterMemRead 0xFFFC).memRead 0xFFFD = s.mem.get 0xFFFD :=
      State.memRead_plain (by rw [State.afterMemRead_replies, h.1, List.tail_nil]) _
    rw [hlow, hhigh] at hpc hbus
    exact ⟨hpc, hbus⟩

/-! ## The interrupt check (60_exceptions.md R218) -/

/-- Settles O41: the three answers of the check. -/
theorem interruptCheckPrecedesTheFetch : Obligations.InterruptCheckPrecedesTheFetch := by
  intro s hl
  refine ⟨fun hnmi => step_interrupt hl ?_, fun hnmi hirq hi => step_interrupt hl ?_,
    fun hnmi hnone => step_instruction hl ?_⟩
  · simp [State.pendingInterrupt, hnmi]
  · simp [State.pendingInterrupt, hnmi, hirq, hi]
  · obtain hirq | hi := hnone
    · simp [State.pendingInterrupt, hnmi, hirq]
    · simp [State.pendingInterrupt, hnmi, hi]

/-- Settles O45: CLI and SEI leave the latches, bit 5 and every flag but I, and the next check reads I. -/
theorem interruptDisableActsAtOnce : Obligations.InterruptDisableActsAtOnce := by
  intro s hnmi hirq hu
  have hcheck (t : State) (hothers : SameFlagsOutside [.i] s t) (hcontrol : SameControl s t) :
      t.launchable = true ∧ t.nmiPending = false ∧ t.irqPending = true :=
    ⟨(hothers .u (by decide)).trans hu, hcontrol.1.trans hnmi, hcontrol.2.1.trans hirq⟩
  constructor
  · obtain ⟨t, ht, hi, hothers, -, -, -, -, -, -, hcontrol, -⟩ := runImplied_setFlag s .cli .i false
    obtain ⟨hl, hnmi', hirq'⟩ := hcheck t hothers hcontrol
    exact ⟨t, ht, (interruptCheckPrecedesTheFetch t hl).2.1 hnmi' hirq' hi⟩
  · obtain ⟨t, ht, hi, hothers, -, -, -, -, -, -, hcontrol, -⟩ := runImplied_setFlag s .sei .i true
    obtain ⟨hl, hnmi', -⟩ := hcheck t hothers hcontrol
    exact ⟨t, ht, (interruptCheckPrecedesTheFetch t hl).2.2 hnmi' (.inr hi)⟩

/-! ## The fetch (40_step_and_addressing.md R71, R72) -/

section
variable {s : State}

/-- The fetch reads what decoding the bytes at `PC` gives, whatever the capability answers. -/
theorem fetch_of_decode {i : Instr} {rest : List Byte}
    (h : decode [s.memRead s.pc, (s.afterMemRead s.pc).memRead (s.pc + 1),
      ((s.afterMemRead s.pc).afterMemRead (s.pc + 1)).memRead (s.pc + 2)] = .ok (i, rest)) : s.fetch = i := by
  obtain hlength | hlength | hlength := Laws.opcodeInfo_length_cases (s.memRead s.pc)
  · rw [Laws.decode_one hlength] at h
    cases h
    simp only [State.fetch, hlength]
  · rw [Laws.decode_two hlength] at h
    cases h
    simp only [State.fetch, hlength]
  · rw [Laws.decode_three hlength] at h
    cases h
    simp only [State.fetch, hlength]

/-- The fetched instruction has the length of its opcode's entry (R72). -/
theorem fetch_form_length (s : State) : s.fetch.form.length = (opcodeInfo (s.memRead s.pc)).length := by
  obtain ⟨hop, hwf⟩ := fetch_opcode s
  rw [Laws.opcodeInfo_length, (Laws.opcodeInfo_of_opcodeOf hwf hop).2]
  rfl

/-- The fetch makes one read for each byte of the instruction, in ascending order (20_memory.md R44). -/
theorem afterFetch_eq_foldl (s : State) : s.afterFetch =
    (List.range s.fetch.form.length).foldl (fun u k => u.afterMemRead (s.pc + BitVec.ofNat 16 k)) s := by
  have hzero : s.pc + BitVec.ofNat 16 0 = s.pc := BitVec.add_zero _
  rw [fetch_form_length]
  obtain hlength | hlength | hlength := Laws.opcodeInfo_length_cases (s.memRead s.pc) <;>
    simp only [State.afterFetch, hlength, List.range_succ, List.range_zero, List.foldl_append, List.foldl_cons, List.foldl_nil,
      hzero]
  · rfl
  · rfl

/-- On plain memory reads are their record, and nothing else. -/
theorem foldl_afterMemRead_plain (h : s.replies = []) (addr : Nat → Word) (n : Nat) :
    (List.range n).foldl (fun u k => u.afterMemRead (addr k)) s =
      s.setBus (s.bus ++ (List.range n).map fun k => .read (addr k) (s.mem.get (addr k))) := by
  induction n with
  | zero =>
    rw [List.range_zero, List.foldl_nil, List.map_nil, List.append_nil]
    rfl
  | succ n ih =>
    rw [List.range_succ, List.foldl_append, ih, List.foldl_cons, List.foldl_nil, State.afterMemRead_plain (by simpa using h),
      List.map_append, List.map_singleton, State.setBus_bus, State.setBus_mem, List.append_assoc]
    rfl

/-- Settles O46: the fetch is the decoder's reading of the bytes at `PC`; on plain memory these are the cells. -/
theorem stepRunsTheDecodedInstruction : Obligations.StepRunsTheDecodedInstruction := by
  have hstep (s : State) (i : Instr) (rest : List Byte) (hl : s.launchable = true) (hk : s.pendingInterrupt = none)
      (h : decode [s.memRead s.pc, (s.afterMemRead s.pc).memRead (s.pc + 1),
        ((s.afterMemRead s.pc).afterMemRead (s.pc + 1)).memRead (s.pc + 2)] = .ok (i, rest)) :
      step s = exec i ((List.range i.form.length).foldl (fun u k => u.afterMemRead (s.pc + BitVec.ofNat 16 k))
        (s.setBus [])) := by
    have hfetch : (s.setBus []).fetch = i := fetch_of_decode h
    rw [step_instruction hl hk, afterFetch_eq_foldl, hfetch, State.setBus_pc]
  refine ⟨hstep, fun s i rest hl hk hs h => ?plain⟩
  case plain =>
    have hreplies := hs.1
    have hbytes : [s.memRead s.pc, (s.afterMemRead s.pc).memRead (s.pc + 1),
        ((s.afterMemRead s.pc).afterMemRead (s.pc + 1)).memRead (s.pc + 2)] =
        [s.mem.get s.pc, s.mem.get (s.pc + 1), s.mem.get (s.pc + 2)] := by
      rw [State.memRead_plain hreplies, State.memRead_plain (by simp [hreplies]), State.memRead_plain (by simp [hreplies])]
      rfl
    rw [hstep s i rest hl hk (hbytes ▸ h), foldl_afterMemRead_plain (s := s.setBus []) hreplies]
    rfl

end

/-! ## Bit 4 of `P` under `ignore` (10_state.md R17) -/

section
variable {i : Instr} {f : OperandForm} {s t : State}

theorem runRead_b {act : Byte → State → State} (hact : ∀ m r, flag .b (act m r).p = flag .b r.p)
    (h : runRead i f act s = .next t) : flag .b t.p = flag .b s.p := by
  simp only [runRead, Host.Outcome.next.injEq] at h
  rw [← h, State.returns_p, hact, afterOperandByte_p]

theorem runModify_b {result : Byte → Byte} {flags : Byte → Byte → Byte}
    (hflags : ∀ v p, flag .b (flags v p) = flag .b p) (h : runModify i f result flags s = .next t) : flag .b t.p = flag .b s.p := by
  rw [runModify_p h, hflags]

theorem runImplied_b {act : State → State} (hact : flag .b (act (atHandler .imp s)).p = flag .b s.p)
    (h : runImplied i act s = .next t) : flag .b t.p = flag .b s.p := by
  simp only [runImplied, Host.Outcome.next.injEq] at h
  rw [← h, State.returns_p, hact]

/-- Only PLP and RTI could write bit 4, and under `ignore` they keep it. -/
theorem exec_b (hpolicy : s.cfg.plpBPolicy = .ignore) (h : exec i s = .next t) : flag .b t.p = flag .b s.p := by
  cases i with
  | lda f | ldx f | ldy f | and f | ora f | eor f | bit f | adc f | sbc f | cmp f | cpx f | cpy f =>
    simp only [exec] at h
    refine runRead_b (fun m r => ?_) h
    simp
  | inc f | dec f | asl f | lsr f | rol f | ror f =>
    simp only [exec] at h
    refine runModify_b (fun v p => ?_) h
    simp
  | sta f | stx f | sty f => exact congrArg (flag .b) (runStore_p (f := f) h)
  | bpl d | bmi d | bvc d | bvs d | bcc d | bcs d | bne d | beq d => exact congrArg (flag .b) (runBranch_p (disp := d) h)
  | jmp f => exact congrArg (flag .b) (execJmp_p h)
  | jsr w => exact congrArg (flag .b) (execJsr_p h)
  | ill op => exact congrArg (flag .b) (execIll_p h)
  | _ =>
    simp only [exec] at h
    refine runImplied_b ?_ h
    simp [hpolicy]

/-- Settles O55: no instruction writes bit 4 under `ignore`, and no interrupt entry writes it at all. -/
theorem breakBitIsNeverWrittenUnderIgnore : Obligations.BreakBitIsNeverWrittenUnderIgnore := by
  intro s t hpolicy h
  obtain ⟨-, ⟨k, -, rfl⟩ | ⟨-, hexec⟩⟩ := step_next_cases h
  · rw [State.interruptEntry_p, flag_setFlag, if_neg nofun, State.setBus_p]
  · have hb := exec_b (by rwa [State.afterFetch_cfg]) hexec
    rwa [State.afterFetch_p] at hb

end

/-! ## Nine rotations (46_shift_rotate.md R163, R164) -/

/-- What ROL makes of `A` and the carry. -/
def rolPair (q : Byte × Bool) : Byte × Bool := (rolResult q.2 q.1, q.1.getLsbD 7)

/-- What ROR makes of `A` and the carry. -/
def rorPair (q : Byte × Bool) : Byte × Bool := (rorResult q.2 q.1, q.1.getLsbD 0)

/-- `A` and the carry of a state. -/
def State.carryPair (s : State) : Byte × Bool := (s.a, flag .c s.p)

/-- ROL rotates nine bits, by evaluation over `A` and the carry. -/
theorem rolPair_nine (q : Byte × Bool) : rolPair^[9] q = q := by
  have hall : ∀ (a : Byte) (c : Bool), rolPair^[9] (a, c) = (a, c) := by
    set_option maxRecDepth 20000 in decide
  exact hall q.1 q.2

theorem rorPair_rolPair (q : Byte × Bool) : rorPair (rolPair q) = q := by
  have hall : ∀ (a : Byte) (c : Bool), rorPair (rolPair (a, c)) = (a, c) := by
    set_option maxRecDepth 20000 in decide
  exact hall q.1 q.2

/-- ROR undoes ROL, so it rotates the nine bits too. -/
theorem rorPair_nine (q : Byte × Bool) : rorPair^[9] q = q := by
  have hundo : rorPair^[9] (rolPair^[9] q) = q := Function.LeftInverse.iterate rorPair_rolPair 9 q
  rwa [rolPair_nine] at hundo

/-- Where every step answers a state and acts on the pair by `g`, so do `n` steps by `n` times `g`. -/
theorem bind_iterate {next : State → Option State} {g : Byte × Bool → Byte × Bool}
    (hnext : ∀ s, ∃ t, next s = some t ∧ t.carryPair = g s.carryPair) (n : Nat) (s : State) :
    ∃ t, (fun r => r.bind next)^[n] (some s) = some t ∧ t.carryPair = g^[n] s.carryPair := by
  induction n with
  | zero => exact ⟨s, rfl, rfl⟩
  | succ n ih =>
    obtain ⟨t, ht, hpair⟩ := ih
    obtain ⟨r, hr, hstep⟩ := hnext t
    exact ⟨r, by rw [Function.iterate_succ_apply', ht, Option.bind_some, hr],
      by rw [Function.iterate_succ_apply', hstep, hpair]⟩

theorem carryPair_eq {s t : State} (h : t.carryPair = s.carryPair) : t.a = s.a ∧ flag .c t.p = flag .c s.p :=
  Prod.mk.inj h

/-- Settles O30: ROL and ROR act on `A` and the carry as on nine bits. -/
theorem nineRotationsRestore : Obligations.NineRotationsRestore := by
  intro s rol ror
  have hrol (s : State) : ∃ t, rol s = some t ∧ t.carryPair = rolPair s.carryPair :=
    ⟨_, rfl, Prod.ext rfl (flag_shiftFlags .c _ _ _)⟩
  have hror (s : State) : ∃ t, ror s = some t ∧ t.carryPair = rorPair s.carryPair :=
    ⟨_, rfl, Prod.ext rfl (flag_shiftFlags .c _ _ _)⟩
  refine ⟨?rols, ?rors, ?both⟩
  case rols =>
    obtain ⟨t, ht, hpair⟩ := bind_iterate hrol 9 s
    exact ⟨t, ht, carryPair_eq (hpair.trans (rolPair_nine _))⟩
  case rors =>
    obtain ⟨t, ht, hpair⟩ := bind_iterate hror 9 s
    exact ⟨t, ht, carryPair_eq (hpair.trans (rorPair_nine _))⟩
  case both =>
    obtain ⟨t, ht, hpair⟩ := hrol s
    obtain ⟨r, hr, hpair'⟩ := hror t
    refine ⟨r, by rw [ht, Option.bind_some, hr], carryPair_eq ?_⟩
    rw [hpair', hpair]
    exact rorPair_rolPair _

end Sys2Proof.Machine
end
